-- ==== Sys2Proof/Word.lean ====
section
/-! DEFINITION. The types of the bits the block moves: bytes, 32-bit words, byte strings. -/

namespace Sys2Proof

/-- A byte is 8 bits (R10). -/
abbrev Byte := BitVec 8

/-- Every port register and every command word is 32 bits wide (R9, R21, R90). -/
abbrev Word := BitVec 32

/-- A byte string `B[0] ... B[n-1]` (R10). -/
abbrev Bytes := List Byte

end Sys2Proof
end

