-- ==== Sys2Proof/Config.lean ====
section
/-! DEFINITION. What is fixed for one machine but not by the spec: the opaque cipher backends and generator (R8, R121,
R161), the OPEN parameters (R7), the answers of the entropy ports (R201, R214), and the free values (R14). The machine's
own configuration `Config.hw` has no body, so a claim about it holds whatever these are. N_CTX and N_REQ are not here:
they are the lengths of the state's slot and port lists, so a claim about every state holds for every N_CTX and N_REQ. -/

namespace Sys2Proof

/-- The cipher primitive of one mode (R121). `none` is the status `fail`; a result is given only with `ok`, because no
rule uses the other results of a failed call. The length laws of R121 are in the types. -/
structure Backend where
  /-- `state_size`, read as a signed 32-bit constant. -/
  stateSize : Word
  /-- `init(key, n) -> (st, bs)`, `len(bs) = n`. -/
  init : Bytes → (n : Nat) → Option (Vector Byte n)
  /-- `reset_iv(nonce, bs) -> (st, bs')`. -/
  resetIv : Bytes → (bs : Bytes) → Option (Vector Byte bs.length)
  /-- `process_aad(data, bs) -> (st, bs')`. -/
  processAad : Bytes → (bs : Bytes) → Option (Vector Byte bs.length)
  /-- `encrypt_block(in, bs) -> (st, out, bs')`, `len(out) = len(in)`. -/
  encryptBlock : (inp bs : Bytes) → Option (Vector Byte inp.length × Vector Byte bs.length)
  /-- `decrypt_block(in, bs) -> (st, out, bs')`, `len(out) = len(in)`. -/
  decryptBlock : (inp bs : Bytes) → Option (Vector Byte inp.length × Vector Byte bs.length)
  /-- `get_tag(n, bs) -> (st, tag, bs')`, `len(tag) = n`. -/
  getTag : (n : Nat) → (bs : Bytes) → Option (Vector Byte n × Vector Byte bs.length)
deriving Inhabited

/-- The two members that only the CounterMode backend has (R121). -/
structure CounterBackend extends Backend where
  /-- `set_tag_len(n, bs) -> (st, bs')`, `n` a signed number. -/
  setTagLen : Int → (bs : Bytes) → Option (Vector Byte bs.length)
  /-- `set_msg_len(n, bs) -> (st, bs')`. -/
  setMsgLen : Nat → (bs : Bytes) → Option (Vector Byte bs.length)
deriving Inhabited

/-- The opaque generator (R161). `none` is the status `fail`. The generator state is a byte string of no fixed length.
`SEED_BITS_MAX` goes to `create`, as R161's table has it, where D28 calls it an argument of `seed`; following R161 is the
model's choice (assumption 23). -/
structure Gen where
  /-- `create(seed_bits_max) -> (st, G)`. -/
  create : Nat → Option Bytes
  /-- `seed(bytes, G) -> (st, G')`. -/
  seed : Bytes → Bytes → Option Bytes
  /-- `augment(bytes64, G) -> (st, G')`. -/
  augment : Bytes → Bytes → Option Bytes
  /-- `words(n, G) -> (st, W, G')`, `W` a sequence of `n` words. -/
  words : (n : Nat) → Bytes → Option (Vector Word n × Bytes)
deriving Inhabited

/-- What `KDEV.read(64)` answers, the answers to its repeated requests included: any finite number of `retry` answers
and then `ok` or `fail` (R201, R204: the model may assume the repeats are finitely many; assumption 6). -/
inductive KdevReply where
  | ok (b : Vector Byte 64)
  | fail
  | retry (later : KdevReply)
deriving Inhabited

/-- Everything fixed for one machine: OPEN parameters, opaque records, oracles of the entropy ports, free values. -/
structure Config where
  /-- `CTR_MSGLEN_MAX` (R7). -/
  ctrMsgLenMax : Nat
  /-- `SEED_BITS_MAX` less 512: the parameter is at least 512 (R7). -/
  seedBitsOver512 : Nat
  /-- `FALLBACK_CONST`, 64 bytes (R7, R205). -/
  fallbackConst : Vector Byte 64
  /-- `CLK_MIX_BYTES` less 1: the parameter is 1 to 8 (R7, R209). -/
  clkMixLess1 : Fin 8
  /-- `TAG_ZERO_BEFORE_VALIDATE` (R7, R143). -/
  tagZeroBeforeValidate : Bool
  /-- `GEN_CONTEXTLESS` (R7, R181). -/
  genContextless : Bool
  /-- `GEN_HANDLE` less 1: the parameter is a non-zero 32-bit value (R7). -/
  genHandleLess1 : Fin 4294967295
  /-- `PORT_BASE` (R7, R21). -/
  portBase : Nat
  /-- `Backend[StreamMode]` (R8). -/
  stream : Backend
  /-- `Backend[CounterMode]` (R8). -/
  counter : CounterBackend
  /-- `Gen` (R8, R161). -/
  gen : Gen
  /-- The answer to the k-th request `TRNG.draw(64)`; `none` is `fail` (R201). -/
  trng : Nat → Option (Vector Byte 64)
  /-- The answer to the k-th request `HPRNG.draw(64)`; `none` is `fail` (R201). -/
  hprng : Nat → Option (Vector Byte 64)
  /-- The answers of `KDEV` from its k-th request on (R201, R204). -/
  kdev : Nat → KdevReply
  /-- What the clock shows at the k-th `CLOCK.sample()`; `Machine.sampleClock` makes the samples monotonic (R210). -/
  clock : Nat → BitVec 64
  /-- Free value: the i-th byte of the k-th `draw` of a byte string (R14, "unspecified"). -/
  freeByte : Nat → Nat → Byte
  /-- Free value: which of the ports with a pending command is served next, at the k-th choice (R73). -/
  schedule : Nat → Nat
  /-- Launch content of data memory: what a byte nothing has written reads as, the same at every read (R68, D19). -/
  launchByte : Nat → Byte
  /-- How much more than needed a Secure Buffer's new store holds: (old capacity, bytes needed) to spare bytes
  (R220: growth is not specified). -/
  capSlack : Nat → Nat → Nat
deriving Inhabited

/-- The configuration of the hardware this model is of. It has NO BODY: nothing in Lean can evaluate it, so whatever is
proved about it holds for every configuration (R7: a proof must hold for every admitted value). -/
opaque Config.hw : Config

namespace Config

/-- `SEED_BITS_MAX` (R7). -/
def seedBitsMax (cfg : Config) : Nat := cfg.seedBitsOver512 + 512

/-- `CLK_MIX_BYTES`, 1 to 8 (R7). -/
def clkMixBytes (cfg : Config) : Nat := cfg.clkMixLess1.val + 1

/-- `GEN_HANDLE`, never 0 (R7). -/
def genHandle (cfg : Config) : Word := BitVec.ofNat 32 (cfg.genHandleLess1.val + 1)

/-- `N_CTX` of `State.reset`: the parameter's default (R7). Any other number of slots is another length of the state's
slot list; no meaning uses this number (assumption 1, DESIGN CHOICE). -/
def nCtxDefault : Nat := 2

/-- `N_REQ` of `State.reset`: the parameter's default (R7, assumption 1, DESIGN CHOICE). -/
def nReqDefault : Nat := 2

end Config

end Sys2Proof
end

