-- ==== Sys2Proof/Syntax.lean ====
section
/-! DEFINITION. The commands of the block, one constructor per row of the opcode table (R92). -/

namespace Sys2Proof

/-- The mode variant (R29, R95): `StreamMode` is encoded 0, `CounterMode` 1. -/
inductive Mode where
  | stream
  | counter
deriving DecidableEq, Repr

/-- One command (R92). `ctx` is the slot number the command word names (R93); the other operands stand in the issuing
port's latched `ARG` values (R94). -/
inductive Instr where
  /-- AEAD_CONSTRUCT, op 0x10 (R125). -/
  | aeadConstruct (ctx : Nat) (mode : Mode)
  /-- AEAD_RESET, op 0x11 (R129). -/
  | aeadReset (ctx : Nat)
  /-- AEAD_AAD, op 0x12 (R133). -/
  | aeadAad (ctx : Nat)
  /-- AEAD_ENCRYPT, op 0x13 (R136). -/
  | aeadEncrypt (ctx : Nat)
  /-- AEAD_DECRYPT, op 0x14 (R139). -/
  | aeadDecrypt (ctx : Nat)
  /-- AEAD_AUTH_TAG, op 0x15 (R142). -/
  | aeadAuthTag (ctx : Nat)
  /-- AEAD_DESTROY, op 0x16 (R146). -/
  | aeadDestroy (ctx : Nat)
  /-- RNG_SEED, op 0x20 (R166). -/
  | rngSeed
  /-- RNG_RANDOM_SEED, op 0x21 (R168). -/
  | rngRandomSeed
  /-- RNG_RAND_BYTES, op 0x22 (R170). -/
  | rngRandBytes
  /-- RNG_RAND_U32, op 0x23 (R173). -/
  | rngRandU32
  /-- RNG_RAND_U64, op 0x24 (R175). -/
  | rngRandU64
  /-- RNG_LOCK, op 0x25 (R176). -/
  | rngLock
  /-- RNG_UNLOCK, op 0x26 (R178). -/
  | rngUnlock
  /-- RNG_CTX, op 0x27 (R180). -/
  | rngCtx
  /-- RNG_SHUTDOWN, op 0x28 (R184). -/
  | rngShutdown
deriving DecidableEq, Repr

/-- The slot a command names: an AEAD command's `ctx`; an RNG command names none (R72 (b), R93). -/
def Instr.slot? : Instr → Option Nat
  | .aeadConstruct c _ | .aeadReset c | .aeadAad c | .aeadEncrypt c | .aeadDecrypt c | .aeadAuthTag c
  | .aeadDestroy c => some c
  | .rngSeed | .rngRandomSeed | .rngRandBytes | .rngRandU32 | .rngRandU64 | .rngLock | .rngUnlock | .rngCtx
  | .rngShutdown => none

end Sys2Proof
end

