-- ==== Sys2Proof/WellFormed.lean ====
section
/-! DEFINITION. Which commands a block with `nCtx` slots has: the one operand check of the command word is the slot
number (R91, R96). -/

namespace Sys2Proof

/-- Well-formed on a block with `nCtx` slots: an AEAD command names a slot that exists (R91: `ctx >= N_CTX` is illegal)
and that the 8-bit field can name (R90); an RNG command has no field to check. -/
def Instr.wf (nCtx : Nat) (i : Instr) : Bool :=
  match i.slot? with
  | some c => decide (c < nCtx) && decide (c < 256)
  | none => true

end Sys2Proof
end

