-- ==== Sys2Proof/Decode.lean ====
section
/-! DEFINITION. The command word: decoding, total on every 32-bit word and rejecting by name in the order of R91; and
the encoder, written from the same format C (R90) and opcode map (R92). -/

namespace Sys2Proof

/-- Why a command word is illegal (R91, R96), in the order the decoder finds it. -/
inductive DecodeError where
  /-- Bits 31:17 are not 0. -/
  | reservedBits
  /-- `op` is not in the table of R92. -/
  | unknownOpcode
  /-- An RNG command with a non-zero `ctx` or `mode`. -/
  | misplacedRngField
  /-- An AEAD command other than AEAD_CONSTRUCT with `mode` 1. -/
  | misplacedMode
  /-- An AEAD command whose `ctx` names no slot. -/
  | noSuchSlot
deriving DecidableEq, Repr

/-- `op = w[7:0]` (R90). -/
def fieldOp (w : Word) : BitVec 8 := w.extractLsb' 0 8

/-- `ctx = w[15:8]`, an unsigned number (R90, R93). -/
def fieldCtx (w : Word) : BitVec 8 := w.extractLsb' 8 8

/-- `mode = w[16]` (R90). -/
def fieldMode (w : Word) : Bool := w.getLsbD 16

/-- `rsv = w[31:17]` (R90). -/
def fieldRsv (w : Word) : BitVec 15 := w.extractLsb' 17 15

/-- The `mode` bit's meaning: 0 is StreamMode, 1 is CounterMode (R90, R95). -/
def modeOfBit (b : Bool) : Mode := if b then .counter else .stream

/-- The bit that encodes a mode (R90). -/
def Mode.bit : Mode → Bool
  | .stream => false
  | .counter => true

/-- An AEAD command other than AEAD_CONSTRUCT: `mode` must be 0, then `ctx` must name a slot (R91). -/
def decodeAead (nCtx : Nat) (w : Word) (mk : Nat → Instr) : Except DecodeError Instr :=
  if fieldMode w then .error .misplacedMode
  else if (fieldCtx w).toNat < nCtx then .ok (mk (fieldCtx w).toNat)
  else .error .noSuchSlot

/-- AEAD_CONSTRUCT uses its `mode` bit; `ctx` must name a slot (R91). -/
def decodeConstruct (nCtx : Nat) (w : Word) : Except DecodeError Instr :=
  if (fieldCtx w).toNat < nCtx then .ok (.aeadConstruct (fieldCtx w).toNat (modeOfBit (fieldMode w)))
  else .error .noSuchSlot

/-- An RNG command: `ctx` and `mode` must be 0 (R91). -/
def decodeRng (w : Word) (i : Instr) : Except DecodeError Instr :=
  if fieldCtx w = 0 ∧ fieldMode w = false then .ok i else .error .misplacedRngField

/-- The decoder of a block with `nCtx` slots: every word is one command or is rejected by name (R91, R92). -/
def decode (nCtx : Nat) (w : Word) : Except DecodeError Instr :=
  if fieldRsv w ≠ 0 then .error .reservedBits
  else match (fieldOp w).toNat with
    | 0x10 => decodeConstruct nCtx w
    | 0x11 => decodeAead nCtx w .aeadReset
    | 0x12 => decodeAead nCtx w .aeadAad
    | 0x13 => decodeAead nCtx w .aeadEncrypt
    | 0x14 => decodeAead nCtx w .aeadDecrypt
    | 0x15 => decodeAead nCtx w .aeadAuthTag
    | 0x16 => decodeAead nCtx w .aeadDestroy
    | 0x20 => decodeRng w .rngSeed
    | 0x21 => decodeRng w .rngRandomSeed
    | 0x22 => decodeRng w .rngRandBytes
    | 0x23 => decodeRng w .rngRandU32
    | 0x24 => decodeRng w .rngRandU64
    | 0x25 => decodeRng w .rngLock
    | 0x26 => decodeRng w .rngUnlock
    | 0x27 => decodeRng w .rngCtx
    | 0x28 => decodeRng w .rngShutdown
    | _ => .error .unknownOpcode

/-! ### The encoder -/

/-- Format C (R90): the reserved bits, the mode bit, the slot number, the opcode, most significant first. -/
def assemble (op ctx : BitVec 8) (mode : Bool) : Word :=
  (0 : BitVec 15) ++ BitVec.ofBool mode ++ ctx ++ op

/-- The opcode of a command (R92). -/
def Instr.opcode : Instr → BitVec 8
  | .aeadConstruct _ _ => 0x10
  | .aeadReset _ => 0x11
  | .aeadAad _ => 0x12
  | .aeadEncrypt _ => 0x13
  | .aeadDecrypt _ => 0x14
  | .aeadAuthTag _ => 0x15
  | .aeadDestroy _ => 0x16
  | .rngSeed => 0x20
  | .rngRandomSeed => 0x21
  | .rngRandBytes => 0x22
  | .rngRandU32 => 0x23
  | .rngRandU64 => 0x24
  | .rngLock => 0x25
  | .rngUnlock => 0x26
  | .rngCtx => 0x27
  | .rngShutdown => 0x28

/-- The mode bit of a command's word: AEAD_CONSTRUCT's mode, 0 in every other command (R90). -/
def Instr.modeBit : Instr → Bool
  | .aeadConstruct _ m => m.bit
  | .aeadReset _ | .aeadAad _ | .aeadEncrypt _ | .aeadDecrypt _ | .aeadAuthTag _ | .aeadDestroy _
  | .rngSeed | .rngRandomSeed | .rngRandBytes | .rngRandU32 | .rngRandU64 | .rngLock | .rngUnlock | .rngCtx
  | .rngShutdown => false

/-- The word of a command: its opcode, its slot number (0 in an RNG command) and its mode bit (R90, R92). -/
def encode (i : Instr) : Word :=
  assemble i.opcode (BitVec.ofNat 8 (i.slot?.getD 0)) i.modeBit

/-- The command the decoder reads from an opcode-table row's bits: every row is one 32-bit command word (R90, R97), so
the bits above `nbits` are 0 and nothing follows them. The block has the default number of slots (assumption 1). -/
def decodeTableWord (nbits w : Nat) : Option Instr :=
  (decode Config.nCtxDefault (BitVec.ofNat 32 (w % 2 ^ nbits))).toOption

end Sys2Proof
end

