-- ==== Sys2Proof/Machine/State.lean ====
section
/-! DEFINITION. The machine's state as plain data, the reasons a step can stop, and the state after reset (R43).
Five classes (R20): port registers, context slots, the RNG unit, hidden state, and data memory, which the host owns. The
fields of the last group are the model's own: they say which agent moves next and carry the environment's part. -/

namespace Sys2Proof.Machine

/-- A Secure Buffer (R220): a backing store `raw`, whose length is the capacity, and a logical length `len`. -/
structure SecBuf where
  raw : Bytes
  len : Nat
deriving DecidableEq, Repr

/-- `SB.new()`: the empty buffer with no storage (R223). -/
def SecBuf.new : SecBuf := ⟨[], 0⟩

/-- `PHASE[c]` (R28). -/
inductive Phase where
  | unconstructed
  | constructed
  | reset
  | assocData
  | transforming
  | tagExtracted
  | failed
deriving DecidableEq, Repr

/-- A context slot: one CipherContext (R27 to R32). -/
structure Slot where
  /-- `PHASE[c]` (R28). -/
  phase : Phase
  /-- `MODE[c]` (R29). -/
  mode : Mode
  /-- `AADF[c]` (R30). -/
  aadf : Bool
  /-- `TAGLEN[c]`, a signed 32-bit number (R31). -/
  taglen : Word
  /-- `BSTATE[c]` (R32). -/
  bstate : SecBuf
deriving DecidableEq, Repr

/-- A slot that holds no session, at its reset values (R43). -/
def Slot.empty : Slot := ⟨.unconstructed, .stream, false, 0, .new⟩

/-- The four operand values `ARG[0..3]` (R21). -/
structure Args where
  a0 : Word
  a1 : Word
  a2 : Word
  a3 : Word
deriving DecidableEq, Repr

/-- A pending-command record: the latched command word and operands (R22, R36). -/
structure Latch where
  word : Word
  args : Args
deriving DecidableEq, Repr

/-- One requester's port: its registers (R21), its pending-command record (R36) and its staging buffers (R37). `CMD` is
write only and reads 0, so it holds nothing; the reserved offsets hold nothing either. -/
structure Port where
  /-- `STATUS` (R23). -/
  status : Word
  /-- `ERRINFO` (R24). -/
  errinfo : Word
  /-- `ARG[0..3]` (R25). -/
  args : Args
  /-- `RET[0]` (R26). -/
  ret0 : Word
  /-- `RET[1]` (R26). -/
  ret1 : Word
  /-- The pending-command record (R36). -/
  pending : Option Latch
  /-- `KEYSTAGE` (R37). -/
  keyStage : SecBuf
  /-- `TAGSTAGE` (R37). -/
  tagStage : SecBuf
  /-- `SEEDSTAGE` (R37). -/
  seedStage : SecBuf
deriving DecidableEq, Repr

/-- A port at its reset values (R43). -/
def Port.idle : Port := ⟨0, 0, ⟨0, 0, 0, 0⟩, 0, 0, none, .new, .new, .new⟩

/-- What the host has placed at a range of data-memory addresses (R67, R68). -/
inductive RegionKind where
  /-- Ordinary memory: a buffer may stand here. -/
  | ram
  /-- A region with read side effects (R68): a buffer may not stand here. -/
  | device
deriving DecidableEq, Repr

/-- A byte range of data memory the host has provided (R67). -/
structure Region where
  base : Nat
  size : Nat
  kind : RegionKind
deriving DecidableEq, Repr

/-- Data memory: (address, byte) pairs at strictly rising addresses, no pair equal to the launch content of its address;
an unlisted address reads as the launch content (R60, R68). `Memory.wf` is that form. -/
abbrev Memory := List Host.Cell

/-- The entropy ports' side of a run: how many requests each port has had, so that each request gets an answer of its
own (R201), and the last clock sample (R210). -/
structure EnvPorts where
  trngReqs : Nat
  hprngReqs : Nat
  kdevReqs : Nat
  clockReqs : Nat
  lastClock : BitVec 64
deriving DecidableEq, Repr

/-- One move of an agent (R20), as the total order of steps of R71 holds it. A register access names the requester that
makes it, the byte address and the access size; a memory access names the requester and the range. -/
inductive Move where
  /-- The controller takes its step for the pending command of port `p`. -/
  | serve (p : Nat)
  /-- Requester `r` reads `size` bytes of the register space at `addr`. -/
  | regRead (r addr size : Nat)
  /-- Requester `r` writes `v` (of `size` bytes) to the register space at `addr`. -/
  | regWrite (r addr size : Nat) (v : Word)
  /-- Requester `r` reads `n` bytes of data memory at `base`. -/
  | memRead (r base n : Nat)
  /-- Requester `r` writes the bytes `v` to data memory at `base`. -/
  | memWrite (r base : Nat) (v : Bytes)
  /-- `EnvGenUse(r, n)` (R182), through a handle that was obtained when `engineEpoch` was `epoch`. -/
  | handleUse (r n epoch : Nat)
  /-- An attempt of requester `r` to seed or augment through the handle (R183). -/
  | handleSeed (r : Nat) (v : Bytes)
  /-- The hardware reset input (R280, R281). -/
  | hardReset
deriving DecidableEq, Repr

/-- What the last move of a requester or of the environment was handed. -/
inductive Delivered where
  | nothing
  | word (w : Word)
  | bytes (b : Bytes)
  | words (w : List Word)
deriving DecidableEq, Repr

/-- The whole machine. -/
structure State where
  /-- The ports, port `p` at index `p`; there are `N_REQ` of them (R21). -/
  ports : List Port
  /-- The context slots, slot `c` at index `c`; there are `N_CTX` of them (R27). -/
  slots : List Slot
  /-- `CREATED` (R33). -/
  created : Bool
  /-- `GEN` (R33, R35). -/
  gen : SecBuf
  /-- `LOCK_OWNER` (R34): `none` is the spec's own "free". -/
  lockOwner : Option Nat
  /-- Data memory (R60). -/
  mem : Memory
  /-- The ranges of data memory the host has provided (R67). -/
  regions : List Region
  /-- The model's own: the entropy ports' request counters and last clock sample (R201, R210). -/
  env : EnvPorts
  /-- The model's own: how many values `draw` has given (R14), so that each is a fresh free value. -/
  draws : Nat
  /-- The model's own: how many free choices among waiting ports have been made (R73). -/
  picks : Nat
  /-- The model's own: how many times the engine has been destroyed, so that a stale handle is known (R183). -/
  engineEpoch : Nat
  /-- The model's own: the port whose command the controller runs; `r` in the pseudocode of the RNG commands. -/
  cur : Nat
  /-- The model's own: the moves of the agents that are still to come, first first. Where it is empty the controller
  serves pending commands. -/
  agenda : List Move
  /-- The model's own: what the last register read, memory read or handle use was handed. -/
  delivered : Delivered
deriving DecidableEq, Repr

/-- Why the machine stops on an access to data memory. The spec calls each of these situations `refuse`: it gives no
next state (R14). -/
inductive Fault where
  /-- Raised by a command's access to a range that passes the top of the 32-bit address space (R66), and by a requester's
  access past it: no such byte exists (R60). Safe: the spec gives the access no effect. -/
  | addressWrap
  /-- Raised by a command's access to a byte the host has not provided (R67). Safe: the spec gives the command no
  effect. -/
  | bufferNotProvided
  /-- Raised by a command's access to a byte of a region with read side effects (R68). Safe: the spec gives the command
  no effect. -/
  | bufferOverDevice
deriving DecidableEq, Repr

/-- Situations the spec gives no meaning (`refuse`, R14), other than those of `Fault`. -/
inductive Refusal where
  /-- An instruction that has no meaning yet, by its mnemonic. Raised by a refused arm of `exec` only; safe. -/
  | notModelled (mnemonic : String)
  /-- Raised by a meaning run for a port that has no pending command: the controller takes no such step (R20, R36).
  `step` never does so. Safe. -/
  | noCommandInFlight
  /-- Raised by AEAD_ENCRYPT and AEAD_DECRYPT on input and output ranges that overlap without starting at the same
  address (R69). Safe: the spec gives the command no effect. -/
  | partialOverlap
  /-- Raised by `step` in a state where two ports have pending commands for one slot (R72 (b), R293). Safe. -/
  | slotClash
  /-- Raised by a requester's access to a buffer of a pending command (R72 (a), R297). Safe. -/
  | bufferInUse
  /-- Raised by a requester's access to a byte of a device region: the spec does not say what a device does there (R68).
  Safe. -/
  | deviceAccess
  /-- Raised by a use of the generator handle outside R182 (R183). Safe. -/
  | handleMisuse
  /-- Raised by a register access that is not a whole aligned word (R21). Safe. -/
  | badRegisterAccess
  /-- Raised by a requester's access to another requester's port (R21). Safe. -/
  | foreignPort
  /-- Raised by a register access outside every port window: it is no access to this block (R21, R78). Safe. -/
  | notAPort
deriving DecidableEq, Repr

/-- The state after hardware reset of a block with `nCtx` slots and `nReq` ports (R43), nothing to come: the host has
provided all of data memory and written none of it (assumption 3). -/
def State.resetOf (nCtx nReq : Nat) : State where
  ports := List.replicate nReq .idle
  slots := List.replicate nCtx .empty
  created := false
  gen := .new
  lockOwner := none
  mem := []
  regions := [⟨0, 2 ^ 32, .ram⟩]
  env := ⟨0, 0, 0, 0, 0⟩
  draws := 0
  picks := 0
  engineEpoch := 0
  cur := 0
  agenda := []
  delivered := .nothing

/-- The machine right after reset, with the default numbers of slots and ports (R7, R43; assumption 1). -/
def State.reset : State := State.resetOf Config.nCtxDefault Config.nReqDefault

end Sys2Proof.Machine
end

