-- ==== Sys2Proof/Machine/Operands.lean ====
section
/-! DEFINITION. Operand forms (R9, R10, R94): how a register is read as an address or a length, how words and clock
samples meet byte strings, and the backend members as functions on byte strings. -/

namespace Sys2Proof.Machine

/-- `s32(v)`: a word as a two's-complement signed number (R9). A length, capacity or tag length is read so (R25). -/
def s32 (v : Word) : Int := v.toInt

/-- `u32(v)`: a word as an unsigned number (R9). An address is read so (R25, R61). -/
def u32 (v : Word) : Nat := v.toNat

/-- A length operand as the number of bytes of a range, for the lengths the checks let pass (R18, R19). -/
def byteCount (v : Word) : Nat := (s32 v).toNat

/-- `zeros(n)` (R10). -/
def zeros (n : Nat) : Bytes := List.replicate n 0

/-- `le32(w)`: the least significant byte first (R10, R63 (a)). -/
def le32 (w : Word) : Bytes :=
  [w.extractLsb' 0 8, w.extractLsb' 8 8, w.extractLsb' 16 8, w.extractLsb' 24 8]

/-- Generated words as a byte string: word after word, each least significant byte first (R171). -/
def wordBytes (ws : List Word) : Bytes := ws.flatMap le32

/-- Byte `j` of a clock sample: `t[8j+7 : 8j]` (R63 (c), R209). -/
def clockByte (t : BitVec 64) (j : Nat) : Byte := t.extractLsb' (8 * j) 8

/-- `Backend[m]`: the members both modes have (R95: matched without a default arm). -/
def backendOf (cfg : Config) : Mode → Backend
  | .stream => cfg.stream
  | .counter => cfg.counter.toBackend

/-- `init` on byte strings; `none` is `fail` (R121). -/
def initBytes (be : Backend) (key : Bytes) (n : Nat) : Option Bytes :=
  (be.init key n).map Vector.toList

/-- `reset_iv` on byte strings (R121). -/
def resetIvBytes (be : Backend) (nonce bs : Bytes) : Option Bytes :=
  (be.resetIv nonce bs).map Vector.toList

/-- `process_aad` on byte strings (R121). -/
def processAadBytes (be : Backend) (data bs : Bytes) : Option Bytes :=
  (be.processAad data bs).map Vector.toList

/-- `encrypt_block` on byte strings: the output and the new state (R121). -/
def encryptBytes (be : Backend) (inp bs : Bytes) : Option (Bytes × Bytes) :=
  (be.encryptBlock inp bs).map fun r => (r.1.toList, r.2.toList)

/-- `decrypt_block` on byte strings: the output and the new state (R121). -/
def decryptBytes (be : Backend) (inp bs : Bytes) : Option (Bytes × Bytes) :=
  (be.decryptBlock inp bs).map fun r => (r.1.toList, r.2.toList)

/-- `get_tag` on byte strings: the tag and the new state (R121). -/
def getTagBytes (be : Backend) (n : Nat) (bs : Bytes) : Option (Bytes × Bytes) :=
  (be.getTag n bs).map fun r => (r.1.toList, r.2.toList)

/-- The `set_tag_len` call of AEAD_CONSTRUCT: made for CounterMode only (R125 lines 10 to 12). -/
def setTagLenIfCounter (cfg : Config) (mode : Mode) (tagLen : Word) (bs : Bytes) : Option Bytes :=
  match mode with
  | .stream => some bs
  | .counter => (cfg.counter.setTagLen (s32 tagLen) bs).map Vector.toList

/-- The `set_msg_len(CTR_MSGLEN_MAX)` call of AEAD_RESET: made for CounterMode only (R129 lines 10 to 12). -/
def setMsgLenIfCounter (cfg : Config) (mode : Mode) (bs : Bytes) : Option Bytes :=
  match mode with
  | .stream => some bs
  | .counter => (cfg.counter.setMsgLen cfg.ctrMsgLenMax bs).map Vector.toList

/-- The `process_aad` call of AEAD_RESET: made only when associated data is given (R129 lines 13 to 15, R131). -/
def processAadIfAny (be : Backend) (aadLen : Word) (aad bs : Bytes) : Option Bytes :=
  if s32 aadLen > 0 then processAadBytes be aad bs else some bs

/-- `Gen.words` with the words as a list; `none` is `fail` (R161). -/
def genWords (g : Gen) (n : Nat) (st : Bytes) : Option (List Word × Bytes) :=
  (g.words n st).map fun r => (r.1.toList, r.2)

end Sys2Proof.Machine
end

