-- ==== Sys2Proof/Machine/Flags.lean ====
section
/-! DEFINITION. The status register and its codes. The block has no condition codes and no arithmetic flags (R41); the
one-bit state it has is BUSY here, `AADF[c]` in a slot and `CREATED` in the RNG unit. -/

namespace Sys2Proof.Machine

/-- The seven errors (R241). -/
inductive Err where
  | arg
  | size
  | unsupported
  | init
  | backend
  | seq
  | illegal
deriving DecidableEq, Repr

/-- The `STATUS[7:0]` code of an error (R241). -/
def Err.code : Err → BitVec 8
  | .arg => 1
  | .size => 2
  | .unsupported => 3
  | .init => 4
  | .backend => 5
  | .seq => 6
  | .illegal => 7

/-- `STATUS` of a completed command: the code, BUSY 0, the other bits 0 (R13, R23). -/
def statusDone (code : BitVec 8) : Word := code.setWidth 32

/-- `STATUS` of a pending command: BUSY 1, code 0, the other bits 0 (R22, R23). -/
def statusPending : Word := 0x80000000

/-- BUSY: `STATUS[31]` (R23). -/
def Port.busy (p : Port) : Bool := p.status.getLsbD 31

/-- The status code: `STATUS[7:0]` (R23). -/
def Port.code (p : Port) : BitVec 8 := p.status.extractLsb' 0 8

end Sys2Proof.Machine
end

