-- ==== Sys2Proof/Machine/SecureBuffer.lean ====
section
/-! DEFINITION. The Secure Buffer's operations (R220 to R232). They are internal: no command names one. -/

namespace Sys2Proof.Machine

/-- `draw` of a byte string: the `n` bytes of the `k`-th free value (R14). -/
def drawBytes (cfg : Config) (k n : Nat) : Bytes := (List.range n).map (cfg.freeByte k)

namespace SecBuf

/-- The content: `raw[0 .. len-1]` (R220). -/
def content (b : SecBuf) : Bytes := b.raw.take b.len

/-- `DBG_RAW(X)`: the whole backing store, for tests only (R262). -/
def dbgRaw (b : SecBuf) : Bytes := b.raw

/-- The invariant of R220 and R230: the content lies inside the store and every byte past it is zero. -/
def wf (b : SecBuf) : Bool := decide (b.len ≤ b.raw.length) && (b.raw.drop b.len).all (· == 0)

/-- Room for `m` bytes: the same store if it is large enough, else a larger one with the same content and zeros after
it; how much larger is not specified (R220, R224). The old store is zeroed and released, so nothing of it is state. -/
def makeRoom (cfg : Config) (b : SecBuf) (m : Nat) : SecBuf :=
  if m ≤ b.raw.length then b
  else ⟨b.content ++ zeros (m - b.content.length + cfg.capSlack b.raw.length m), b.len⟩

/-- `SB.append(x)` (R224). -/
def append (cfg : Config) (b : SecBuf) (x : Byte) : SecBuf :=
  ⟨(makeRoom cfg b (b.len + 1)).raw.set b.len x, b.len + 1⟩

/-- `SB.get(i)`; `none` is the `refuse` of an index outside the content (R225). -/
def get (b : SecBuf) (i : Nat) : Option Byte := if i < b.len then b.raw[i]? else none

/-- `SB.set(i, x)`; `none` is the `refuse` of an index outside the content (R225). -/
def set (b : SecBuf) (i : Nat) (x : Byte) : Option SecBuf :=
  if i < b.len then some ⟨b.raw.set i x, b.len⟩ else none

/-- `SB.resize(m, fill)`: shrinking zeroes what is cut off, growing appends the fill value (R226). -/
def resizeFill (cfg : Config) (b : SecBuf) (m : Nat) (fill : Byte) : SecBuf :=
  if m ≤ b.len then ⟨b.raw.take m ++ zeros (b.len - m) ++ b.raw.drop b.len, m⟩
  else
    let r := makeRoom cfg b m
    ⟨r.raw.take b.len ++ List.replicate (m - b.len) fill ++ r.raw.drop m, m⟩

/-- `SB.resize(m)`: growing appends zeros (R226). -/
def resize (cfg : Config) (b : SecBuf) (m : Nat) : SecBuf := resizeFill cfg b m 0

/-- `SB.resize(m)` for a signed `m`; `none` is the `refuse` of a negative length (R226). -/
def resizeSigned (cfg : Config) (b : SecBuf) (m : Int) : Option SecBuf :=
  if m < 0 then none else some (resize cfg b m.toNat)

/-- `SB.clear()` is `SB.resize(0)` (R227). -/
def clear (cfg : Config) (b : SecBuf) : SecBuf := resize cfg b 0

/-- Every byte of the whole capacity overwritten with zero (R229). -/
def wipe (b : SecBuf) : SecBuf := ⟨zeros b.raw.length, b.len⟩

/-- The store given back: what is left is the buffer with no storage (R229). -/
def release (_ : SecBuf) : SecBuf := new

/-- `SB.destroy()`: wiped, then released (R229). -/
def destroy (b : SecBuf) : SecBuf := release (wipe b)

/-- `X <- v`: resized if the length differs, then every byte set in place (R231). -/
def assign (cfg : Config) (b : SecBuf) (v : Bytes) : SecBuf :=
  let r := if v.length = b.len then b else resize cfg b v.length
  ⟨v ++ r.raw.drop v.length, v.length⟩

/-- `X <- unspecified`: the length kept, every content byte a free value (R231). -/
def scramble (cfg : Config) (k : Nat) (b : SecBuf) : SecBuf :=
  ⟨drawBytes cfg k b.len ++ b.raw.drop b.len, b.len⟩

end SecBuf

end Sys2Proof.Machine
end

