-- ==== Sys2Proof/Machine/Ops.lean ====
section
/-! DEFINITION. The operations the commands share: data memory, ports, completing a command and raising an error, slots,
free values. -/

namespace Sys2Proof.Machine

/-- The outcome of one step. -/
abbrev Result := Host.Outcome State Fault Refusal

/-! ### Data memory -/

/-- The byte listed for an address. -/
def Memory.lookup : Memory → Nat → Option Byte
  | [], _ => none
  | (a, b) :: m, x => if x = a then some b else Memory.lookup m x

/-- The byte at an address; an unlisted address reads as its launch content (R60, R68). -/
def Memory.read (cfg : Config) (m : Memory) (a : Nat) : Byte := (Memory.lookup m a).getD (cfg.launchByte a)

/-- The memory without an entry for `a`. -/
def Memory.erase (m : Memory) (a : Nat) : Memory := m.filter fun c => c.1 ≠ a

/-- The memory with the entry `(a, b)`, in address order. -/
def Memory.insert : Memory → Nat → Byte → Memory
  | [], a, b => [(a, b)]
  | (x, y) :: m, a, b =>
    if a < x then (a, b) :: (x, y) :: m
    else if a = x then (a, b) :: m
    else (x, y) :: Memory.insert m a b

/-- One byte written: an entry, or none where the byte is the launch content, so that equal memories are equal lists. -/
def Memory.write (cfg : Config) (m : Memory) (a : Nat) (b : Byte) : Memory :=
  if b = cfg.launchByte a then Memory.erase m a else Memory.insert m a b

/-- `MemRead(base, n)`: byte `i` is the byte at `base + i` (R12, R63). -/
def Memory.readBytes (cfg : Config) (m : Memory) (base n : Nat) : Bytes :=
  (List.range n).map fun i => Memory.read cfg m (base + i)

/-- `MemWrite(base, len(v), v)`: byte `i` goes to `base + i` (R12, R63). -/
def Memory.writeBytes (cfg : Config) : Memory → Nat → Bytes → Memory
  | m, _, [] => m
  | m, base, b :: v => Memory.writeBytes cfg (Memory.write cfg m base b) (base + 1) v

/-- The canonical form: strictly rising addresses of the 32-bit space, no entry equal to the launch content. -/
def Memory.wf (cfg : Config) (m : Memory) : Bool :=
  decide (m.Pairwise fun c d => c.1 < d.1) &&
    m.all fun c => decide (c.1 < 2 ^ 32) && decide (c.2 ≠ cfg.launchByte c.1)

/-- Whether address `a` lies in a provided region of the given kind. -/
def inRegion (regions : List Region) (kind : RegionKind) (a : Nat) : Bool :=
  regions.any fun g => decide (g.kind = kind) && decide (g.base ≤ a) && decide (a < g.base + g.size)

/-- Why the range of `n` bytes at `base` cannot be accessed, if so: it wraps (R66), a byte of it lies in a device region
(R68), or a byte of it is not provided (R67). -/
def rangeFault (regions : List Region) (base n : Nat) : Option Fault :=
  if 2 ^ 32 < base + n then some .addressWrap
  else if (List.range n).any fun i => inRegion regions .device (base + i) then some .bufferOverDevice
  else if (List.range n).all fun i => inRegion regions .ram (base + i) then none
  else some .bufferNotProvided

/-- Go on with `k` if the range of `n` bytes at `base` can be accessed (R66, R67, R68). That a command's access is not
tested against the buffers of another port's held command is the model's choice: R72 (a) exempts the controller in so many
words for writes alone, and R297 says "anyone else" (assumption 25). -/
def withRange (s : State) (base n : Nat) (k : Result) : Result :=
  match rangeFault s.regions base n with
  | some f => .fault f
  | none => k

/-- `MemRead` of the state's data memory. -/
def State.load (cfg : Config) (s : State) (base n : Nat) : Bytes := Memory.readBytes cfg s.mem base n

/-- `MemWrite` of the state's data memory. -/
def State.store (cfg : Config) (s : State) (base : Nat) (v : Bytes) : State :=
  { s with mem := Memory.writeBytes cfg s.mem base v }

/-- `MemWrite(base, n, unspecified)`: `n` free bytes (R14). -/
def State.storeFree (cfg : Config) (s : State) (base n : Nat) : State :=
  { s with mem := Memory.writeBytes cfg s.mem base (drawBytes cfg s.draws n), draws := s.draws + 1 }

/-! ### Ports, completion, errors -/

/-- The port whose command the controller runs. -/
def State.curPort (s : State) : Port := s.ports[s.cur]?.getD .idle

/-- A change of the port whose command the controller runs; no command writes another port (R247). -/
def State.updCur (s : State) (f : Port → Port) : State := { s with ports := s.ports.modify s.cur f }

/-- The end of a command: `STATUS` and `ERRINFO` written, BUSY cleared, no command pending (R13, R22, R36). -/
def finish (s : State) (code : BitVec 8) (info : Word) : State :=
  s.updCur fun p => { p with status := statusDone code, errinfo := info, pending := none }

/-- A command that reaches the end of its pseudocode (R13). -/
def complete (s : State) : State := finish s 0 0

/-- `raise E(info)`, the one way an error is taken (R13, R248): the command ends with its code and detail, and nothing
already written is undone. It transfers no control: the block has no handler, no saved program counter and no return
(R248, R250), so there is no operation of return beside it. -/
def raise (s : State) (e : Err) (info : Word) : State := finish s e.code info

/-- Run a command with the operands latched at its issue (R22, R25). -/
def withCommand (s : State) (k : Args → Result) : Result :=
  match s.ports[s.cur]? with
  | none => .refused .noCommandInFlight
  | some p =>
    match p.pending with
    | none => .refused .noCommandInFlight
    | some l => k l.args

/-- `RET[0] <- v` of the current port (R26). -/
def State.setRet0 (s : State) (v : Word) : State := s.updCur fun p => { p with ret0 := v }

/-- `RET[1] <- v` of the current port (R26). -/
def State.setRet1 (s : State) (v : Word) : State := s.updCur fun p => { p with ret1 := v }

/-! ### Staging buffers (R37, D34): filled, read, destroyed inside one command -/

/-- Bytes passed through `KEYSTAGE`: what is read from it, and the state with it destroyed again (R127). -/
def throughKeyStage (cfg : Config) (s : State) (v : Bytes) : Bytes × State :=
  let b := SecBuf.assign cfg s.curPort.keyStage v
  (b.content, s.updCur fun p => { p with keyStage := b.destroy })

/-- Bytes passed through `TAGSTAGE` (R145). -/
def throughTagStage (cfg : Config) (s : State) (v : Bytes) : Bytes × State :=
  let b := SecBuf.assign cfg s.curPort.tagStage v
  (b.content, s.updCur fun p => { p with tagStage := b.destroy })

/-- Bytes passed through `SEEDSTAGE` (R167, R213). -/
def throughSeedStage (cfg : Config) (s : State) (v : Bytes) : Bytes × State :=
  let b := SecBuf.assign cfg s.curPort.seedStage v
  (b.content, s.updCur fun p => { p with seedStage := b.destroy })

/-! ### Context slots -/

/-- Slot `c` replaced. -/
def State.setSlot (s : State) (c : Nat) (sl : Slot) : State := { s with slots := s.slots.set c sl }

/-- Run a command on slot `c`; a number that names no slot is the illegal command of R96. The decoder lets no such
number pass (R91). -/
def withSlot (s : State) (c : Nat) (k : Slot → Result) : Result :=
  match s.slots[c]? with
  | none => .next (raise s .illegal 0)
  | some sl => k sl

/-- A session ended: the backend state destroyed, every field at its reset value (R146). -/
def Slot.destroyed (sl : Slot) : Slot :=
  { sl with bstate := sl.bstate.destroy, mode := .stream, aadf := false, taglen := 0, phase := .unconstructed }

/-- `fail_slot(c)`: the backend state unspecified, its length kept, and the phase `Failed` (R129, R150). -/
def failSlot (cfg : Config) (s : State) (c : Nat) (sl : Slot) : State :=
  { s with slots := s.slots.set c { sl with bstate := sl.bstate.scramble cfg s.draws, phase := .failed },
           draws := s.draws + 1 }

end Sys2Proof.Machine
end

