-- ==== Sys2Proof/Machine/Aead.lean ====
section
/-! DEFINITION. The AEAD commands (R120 to R150). Each meaning follows its rule's pseudocode line by line; the order of
the checks is the order of the errors (R246). -/

namespace Sys2Proof.Machine

/-! ### AEAD_CONSTRUCT -/

/-- Slot `c` after line 2 of R125: a live session is destroyed first (R126 (g)). -/
def slotForConstruct (sl : Slot) : Slot := if sl.phase = .unconstructed then sl else sl.destroyed

/-- Lines 6 to 17 of R125: the backend state made from the staged key, in a slot that holds no session. -/
def installKey (cfg : Config) (c : Nat) (mode : Mode) (tagLen : Word) (key : Bytes) (sl : Slot) (s : State) : Result :=
  let n := byteCount (backendOf cfg mode).stateSize
  let store := SecBuf.resize cfg sl.bstate n
  let dead := { sl with bstate := store.destroy }
  match initBytes (backendOf cfg mode) key n with
  | none => .next (raise (s.setSlot c dead) .init 2)
  | some bs =>
    match setTagLenIfCounter cfg mode tagLen bs with
    | none => .next (raise (s.setSlot c dead) .init 3)
    | some bs' =>
      .next (complete (s.setSlot c
        { phase := .constructed, mode := mode, aadf := false,
          taglen := if mode = .counter then tagLen else 0,
          bstate := SecBuf.assign cfg store bs' }))

/-- AEAD_CONSTRUCT (R125, R126). -/
def aeadConstruct (cfg : Config) (c : Nat) (mode : Mode) (s : State) : Result :=
  withCommand s fun a =>
  withSlot s c fun sl =>
  if s32 a.a1 ≤ 0 then .next (raise s .arg 0)
  else
    let sl' := slotForConstruct sl
    if s32 (backendOf cfg mode).stateSize ≤ 0 then .next (raise (s.setSlot c sl') .init 1)
    else
      withRange s (u32 a.a0) (byteCount a.a1) <|
        let staged := throughKeyStage cfg s (s.load cfg (u32 a.a0) (byteCount a.a1))
        installKey cfg c mode a.a2 staged.1 sl' staged.2

/-! ### AEAD_RESET -/

/-- The checks of R129 lines 1 to 4. -/
def resetError (sl : Slot) (a : Args) : Option Err :=
  if sl.phase = .unconstructed then some .seq
  else if sl.mode = .stream ∧ s32 a.a1 < 1 then some .arg
  else if sl.mode = .counter ∧ (s32 a.a1 < 8 ∨ s32 a.a1 > 12) then some .arg
  else if s32 a.a3 < 0 then some .arg
  else none

/-- Lines 7 to 18 of R129: the backend calls in their order, with the nonce and the associated data read. -/
def startMessage (cfg : Config) (c : Nat) (a : Args) (nonce aad : Bytes) (sl : Slot) (s : State) : Result :=
  let cleared := { sl with aadf := false }
  match resetIvBytes (backendOf cfg sl.mode) nonce sl.bstate.content with
  | none => .next (raise (failSlot cfg s c cleared) .init 4)
  | some bs1 =>
    match setMsgLenIfCounter cfg sl.mode bs1 with
    | none => .next (raise (failSlot cfg s c cleared) .init 5)
    | some bs2 =>
      match processAadIfAny (backendOf cfg sl.mode) a.a3 aad bs2 with
      | none => .next (raise (failSlot cfg s c cleared) .backend 6)
      | some bs3 =>
        .next (complete (s.setSlot c
          { sl with aadf := decide (s32 a.a3 > 0), bstate := SecBuf.assign cfg sl.bstate bs3, phase := .reset }))

/-- AEAD_RESET (R129 to R132). Overlap of its two ranges has no effect: that is R69's sentence, where D15 and the table of
93_implementation_defined.md say `refuse`; following R69 is the model's choice (assumption 22). -/
def aeadReset (cfg : Config) (c : Nat) (s : State) : Result :=
  withCommand s fun a =>
  withSlot s c fun sl =>
  match resetError sl a with
  | some e => .next (raise s e 0)
  | none =>
    withRange s (u32 a.a0) (byteCount a.a1) <|
    withRange s (u32 a.a2) (byteCount a.a3) <|
      startMessage cfg c a (s.load cfg (u32 a.a0) (byteCount a.a1)) (s.load cfg (u32 a.a2) (byteCount a.a3)) sl s

/-! ### AEAD_AAD -/

/-- The checks of R133 lines 1 to 4: the mode test stands before the phase test (R134). -/
def aadError (sl : Slot) (a : Args) : Option Err :=
  if sl.phase = .unconstructed then some .seq
  else if sl.mode = .counter then some .unsupported
  else if ¬ (sl.phase = .reset ∨ sl.phase = .assocData) then some .seq
  else if s32 a.a1 ≤ 0 then some .arg
  else none

/-- AEAD_AAD (R133 to R135). -/
def aeadAad (cfg : Config) (c : Nat) (s : State) : Result :=
  withCommand s fun a =>
  withSlot s c fun sl =>
  match aadError sl a with
  | some e => .next (raise s e 0)
  | none =>
    withRange s (u32 a.a0) (byteCount a.a1) <|
      match processAadBytes (backendOf cfg sl.mode) (s.load cfg (u32 a.a0) (byteCount a.a1)) sl.bstate.content with
      | none => .next (raise (failSlot cfg s c sl) .backend 6)
      | some bs =>
        .next (complete (s.setSlot c
          { sl with bstate := SecBuf.assign cfg sl.bstate bs, aadf := true, phase := .assocData }))

/-! ### AEAD_ENCRYPT and AEAD_DECRYPT -/

/-- The phases that admit a transform or a tag (R136, R139, R142, line 1). -/
def Phase.open : Phase → Bool
  | .reset | .assocData | .transforming => true
  | .unconstructed | .constructed | .tagExtracted | .failed => false

/-- The checks of R136 and R139 lines 1 to 3 (R137). -/
def transformError (sl : Slot) (a : Args) : Option Err :=
  if sl.phase.open = false then some .seq
  else if s32 a.a1 ≤ 0 then some .size
  else if s32 a.a3 < s32 a.a1 then some .size
  else none

/-- Two ranges of `n` bytes that overlap without starting at the same address (R69). -/
def partialOverlap (a b n : Nat) : Bool := decide (a ≠ b) && decide (a < b + n) && decide (b < a + n)

/-- Lines 4 to 9 of R136 and R139: the whole input read before any output is written. `member` is the backend member,
`info` the `ERRINFO` of its failure. -/
def runTransform (cfg : Config) (member : Bytes → Bytes → Option (Bytes × Bytes)) (info : Word) (c : Nat) (a : Args)
    (sl : Slot) (s : State) : Result :=
  match member (s.load cfg (u32 a.a0) (byteCount a.a1)) sl.bstate.content with
  | none => .next (raise (failSlot cfg (s.storeFree cfg (u32 a.a2) (byteCount a.a1)) c sl) .backend info)
  | some (out, bs) =>
    .next (complete ((s.store cfg (u32 a.a2) out).setSlot c
      { sl with bstate := SecBuf.assign cfg sl.bstate bs, phase := .transforming }))

/-- What AEAD_ENCRYPT and AEAD_DECRYPT share: they differ in the backend member and in its `ERRINFO` (R139). -/
def transform (cfg : Config) (member : Backend → Bytes → Bytes → Option (Bytes × Bytes)) (info : Word) (c : Nat)
    (s : State) : Result :=
  withCommand s fun a =>
  withSlot s c fun sl =>
  match transformError sl a with
  | some e => .next (raise s e 0)
  | none =>
    withRange s (u32 a.a0) (byteCount a.a1) <|
    withRange s (u32 a.a2) (byteCount a.a1) <|
      if partialOverlap (u32 a.a0) (u32 a.a2) (byteCount a.a1) then .refused .partialOverlap
      else runTransform cfg (member (backendOf cfg sl.mode)) info c a sl s

/-- AEAD_ENCRYPT (R136 to R138). -/
def aeadEncrypt (cfg : Config) (c : Nat) (s : State) : Result := transform cfg encryptBytes 7 c s

/-- AEAD_DECRYPT (R139 to R141). -/
def aeadDecrypt (cfg : Config) (c : Nat) (s : State) : Result := transform cfg decryptBytes 8 c s

/-! ### AEAD_AUTH_TAG -/

/-- Line 2 of R142: whether the mode allows the tag length (R144). -/
def tagLenValid (sl : Slot) (tagLen : Word) : Bool :=
  match sl.mode with
  | .stream => decide (s32 tagLen ≥ 1) && decide (s32 tagLen ≤ 16)
  | .counter => decide (s32 tagLen ≥ 1) && decide (tagLen = sl.taglen)

/-- Line 3 of R142: E_ARG, after the early zero-fill where the implementation does one (R143). -/
def rejectTag (cfg : Config) (a : Args) (s : State) : Result :=
  if cfg.tagZeroBeforeValidate = true ∧ s32 a.a1 ≥ 1 then
    withRange s (u32 a.a0) (byteCount a.a1) <|
      .next (raise (s.store cfg (u32 a.a0) (zeros (byteCount a.a1))) .arg 0)
  else .next (raise s .arg 0)

/-- Lines 5 to 11 of R142, on a state whose output region is already zero. -/
def deliverTag (cfg : Config) (c : Nat) (a : Args) (sl : Slot) (s : State) : Result :=
  match getTagBytes (backendOf cfg sl.mode) (byteCount a.a1) sl.bstate.content with
  | none => .next (raise (failSlot cfg s c sl) .backend 9)
  | some (tag, bs) =>
    let staged := throughTagStage cfg s tag
    .next (complete ((staged.2.store cfg (u32 a.a0) staged.1).setSlot c
      { sl with bstate := SecBuf.assign cfg sl.bstate bs, phase := .tagExtracted }))

/-- AEAD_AUTH_TAG (R142 to R145). -/
def aeadAuthTag (cfg : Config) (c : Nat) (s : State) : Result :=
  withCommand s fun a =>
  withSlot s c fun sl =>
  if sl.phase.open = false then .next (raise s .seq 0)
  else if tagLenValid sl a.a1 = false then rejectTag cfg a s
  else
    withRange s (u32 a.a0) (byteCount a.a1) <|
      deliverTag cfg c a sl (s.store cfg (u32 a.a0) (zeros (byteCount a.a1)))

/-! ### AEAD_DESTROY -/

/-- AEAD_DESTROY (R146): admitted in every phase, and it calls no backend member. -/
def aeadDestroy (c : Nat) (s : State) : Result :=
  withCommand s fun _ =>
  withSlot s c fun sl =>
  .next (complete (s.setSlot c sl.destroyed))

/-! ### The meanings on the hardware's own configuration -/

/-- The meaning of AEAD_CONSTRUCT (R125). -/
def execAeadConstruct (c : Nat) (mode : Mode) (s : State) : Result := aeadConstruct Config.hw c mode s

/-- The meaning of AEAD_RESET (R129). -/
def execAeadReset (c : Nat) (s : State) : Result := aeadReset Config.hw c s

/-- The meaning of AEAD_AAD (R133). -/
def execAeadAad (c : Nat) (s : State) : Result := aeadAad Config.hw c s

/-- The meaning of AEAD_ENCRYPT (R136). -/
def execAeadEncrypt (c : Nat) (s : State) : Result := aeadEncrypt Config.hw c s

/-- The meaning of AEAD_DECRYPT (R139). -/
def execAeadDecrypt (c : Nat) (s : State) : Result := aeadDecrypt Config.hw c s

/-- The meaning of AEAD_AUTH_TAG (R142). -/
def execAeadAuthTag (c : Nat) (s : State) : Result := aeadAuthTag Config.hw c s

/-- The meaning of AEAD_DESTROY (R146). -/
def execAeadDestroy (c : Nat) (s : State) : Result := aeadDestroy c s

end Sys2Proof.Machine
end

