-- ==== Sys2Proof/Machine/Entropy.lean ====
section
/-! DEFINITION. The Entropy Source Chain (R200 to R214): the order of the sources, the fallback, the clock mixing. -/

namespace Sys2Proof.Machine

/-- The repeated `KDEV.read(64)` of R206 line 7: the answer that ends the repeats and how many requests were made. -/
def kdevRead : KdevReply → Option Bytes × Nat
  | .ok b => (some b.toList, 1)
  | .fail => (none, 1)
  | .retry later => ((kdevRead later).1, (kdevRead later).2 + 1)

/-- The source bytes of one draw and the entropy ports afterwards (R202, R206 lines 1 to 9): each source is asked only
if every one before it failed in this draw, and the first that answers gives all 64 bytes. -/
def sourceDraw (cfg : Config) (e : EnvPorts) : Bytes × EnvPorts :=
  match cfg.trng e.trngReqs with
  | some b => (b.toList, { e with trngReqs := e.trngReqs + 1 })
  | none =>
    match cfg.hprng e.hprngReqs with
    | some b => (b.toList, { e with trngReqs := e.trngReqs + 1, hprngReqs := e.hprngReqs + 1 })
    | none =>
      let k := kdevRead (cfg.kdev e.kdevReqs)
      ( k.1.getD cfg.fallbackConst.toList,
        { e with trngReqs := e.trngReqs + 1, hprngReqs := e.hprngReqs + 1, kdevReqs := e.kdevReqs + k.2 })

/-- `CLOCK.sample()`: what the clock shows, never less than an earlier sample of the run (R201, R210). -/
def sampleClock (cfg : Config) (e : EnvPorts) : BitVec 64 × EnvPorts :=
  let shown := cfg.clock e.clockReqs
  let t := if shown.toNat < e.lastClock.toNat then e.lastClock else shown
  (t, { e with clockReqs := e.clockReqs + 1, lastClock := t })

/-- Bytes `j`, `j+1`, ... of a draw with the clock sample mixed in: byte `j` XORed with byte `j` of the sample while
`j < CLK_MIX_BYTES` (R206 line 11, R208). -/
def mixClock (mixBytes : Nat) (t : BitVec 64) : Nat → Bytes → Bytes
  | _, [] => []
  | j, b :: bs => (if j < mixBytes then b ^^^ clockByte t j else b) :: mixClock mixBytes t (j + 1) bs

/-- `chain_draw()` (R206): 64 bytes, and the entropy ports afterwards. It has no failure (R212). -/
def chainDraw (cfg : Config) (e : EnvPorts) : Bytes × EnvPorts :=
  let src := sourceDraw cfg e
  let clk := sampleClock cfg src.2
  (mixClock cfg.clkMixBytes clk.1 0 src.1, clk.2)

/-- One draw into `SEEDSTAGE`, read and destroyed again (R165 lines 4 and 6, R168 lines 2 and 4, R213). -/
def drawSeed (cfg : Config) (s : State) : Bytes × State :=
  let d := chainDraw cfg s.env
  throughSeedStage cfg { s with env := d.2 } d.1

end Sys2Proof.Machine
end

