-- ==== Sys2Proof/Machine/Rng.lean ====
section
/-! DEFINITION. The RNG commands (R160 to R185): the mutex, the command frame, lazy creation, and the nine commands. The
requester `r` of the rules is the state's current port. -/

namespace Sys2Proof.Machine

/-! ### The mutex and lazy creation -/

/-- `LOCK_OWNER <- r` (R163). -/
def State.takeMutex (s : State) : State := { s with lockOwner := some s.cur }

/-- `release()` (R163). -/
def State.release (s : State) : State := { s with lockOwner := none }

/-- `acquire(r)` (R163): while the mutex is not free the command is held, and a held command has no effect (R14). The
test is on `none` alone, so an owner that acquires again is held too (R177). -/
def withMutex (s : State) (k : State → Result) : Result :=
  match s.lockOwner with
  | some _ => .next s
  | none => k s.takeMutex

/-- `ensure_created()` (R165): the state in which the engine exists, or the state a failed creation leaves and its
`ERRINFO`. A failed `augment` leaves `GEN` empty, as R165 and R42 (f) say, where the table of
93_implementation_defined.md makes it any value; following R165 is the model's choice (assumption 24). -/
def ensureCreated (cfg : Config) (s : State) : Except (State × Word) State :=
  if s.created then .ok s
  else
    match cfg.gen.create cfg.seedBitsMax with
    | none => .error (s, 16)
    | some g =>
      let drawn := drawSeed cfg s
      match cfg.gen.augment drawn.1 g with
      | none => .error (drawn.2, 18)
      | some g' => .ok { drawn.2 with gen := SecBuf.assign cfg drawn.2.gen g', created := true }

/-- A failed creation: the mutex released and E_BACKEND raised (R164, R165 lines 3 and 7). -/
def creationFailed (r : State × Word) : State := raise r.1.release .backend r.2

/-- Steps 4 and 5 of the command frame of R164, with the mutex held: the engine made to exist, then the body `k`. -/
def onEngine (cfg : Config) (s : State) (k : State → State) : State :=
  match ensureCreated cfg s with
  | .error r => creationFailed r
  | .ok s' => k s'

/-- The same for a body that accesses data memory and so may stop. -/
def withEngine (cfg : Config) (s : State) (k : State → Result) : Result :=
  match ensureCreated cfg s with
  | .error r => .next (creationFailed r)
  | .ok s' => k s'

/-- `GEN <- G` (R231). -/
def State.setGen (cfg : Config) (s : State) (g : Bytes) : State := { s with gen := SecBuf.assign cfg s.gen g }

/-- `GEN <- unspecified` (R189, R231). -/
def State.scrambleGen (cfg : Config) (s : State) : State :=
  { s with gen := s.gen.scramble cfg s.draws, draws := s.draws + 1 }

/-- A generator member failed on an existing state: `GEN` unspecified, the mutex released, E_BACKEND (R189). -/
def genFailed (cfg : Config) (s : State) (info : Word) : State :=
  raise (s.scrambleGen cfg).release .backend info

/-! ### RNG_SEED and RNG_RANDOM_SEED -/

/-- The seeding call that RNG_SEED and RNG_RANDOM_SEED end in (R166 lines 4 to 8, R168 lines 3 to 7). -/
def seedWith (cfg : Config) (seed : Bytes) (s : State) : State :=
  match cfg.gen.seed seed s.gen.content with
  | none => genFailed cfg s 17
  | some g => complete (s.setGen cfg g).release

/-- RNG_SEED (R166, R167). -/
def rngSeed (cfg : Config) (s : State) : Result :=
  withCommand s fun a =>
  if s32 a.a1 ≤ 0 then .next (raise s .arg 0)
  else
    withMutex s fun s =>
    withEngine cfg s fun s =>
    withRange s (u32 a.a0) (byteCount a.a1) <|
      let staged := throughSeedStage cfg s (s.load cfg (u32 a.a0) (byteCount a.a1))
      .next (seedWith cfg staged.1 staged.2)

/-- RNG_RANDOM_SEED (R168, R169). -/
def rngRandomSeed (cfg : Config) (s : State) : Result :=
  withCommand s fun _ =>
  withMutex s fun s =>
  .next (onEngine cfg s fun s => seedWith cfg (drawSeed cfg s).1 (drawSeed cfg s).2)

/-! ### RNG_RAND_BYTES -/

/-- `rand_fail()` (R170): `GEN` and the `len` output bytes unspecified, then as any generator failure. -/
def randFail (cfg : Config) (base len : Nat) (s : State) : State :=
  genFailed cfg (s.storeFree cfg base len) 19

/-- Lines 4 to 8 of R170: the whole words, by one `words` call; `none` is a failed call. -/
def wholeWords (cfg : Config) (base q : Nat) (s : State) : Option State :=
  if q = 0 then some s
  else
    match genWords cfg.gen q s.gen.content with
    | none => none
    | some (ws, g) => some ((s.setGen cfg g).store cfg base (wordBytes ws))

/-- Lines 9 to 13 of R170: one extra word for the tail, of which the first `t` bytes are stored (R171). -/
def tailWord (cfg : Config) (base t : Nat) (s : State) : Option State :=
  if t = 0 then some s
  else
    match genWords cfg.gen 1 s.gen.content with
    | none => none
    | some (ws, g) => some ((s.setGen cfg g).store cfg base ((wordBytes ws).take t))

/-- Lines 3 to 14 of R170. -/
def fillRandom (cfg : Config) (buf len : Nat) (s : State) : State :=
  match wholeWords cfg buf (len / 4) s with
  | none => randFail cfg buf len s
  | some s1 =>
    match tailWord cfg (buf + 4 * (len / 4)) (len % 4) s1 with
    | none => randFail cfg buf len s1
    | some s2 => complete s2.release

/-- RNG_RAND_BYTES (R170 to R172). -/
def rngRandBytes (cfg : Config) (s : State) : Result :=
  withCommand s fun a =>
  if s32 a.a1 ≤ 0 then .next (raise s .arg 0)
  else
    withMutex s fun s =>
    withEngine cfg s fun s =>
    withRange s (u32 a.a0) (byteCount a.a1) <|
      .next (fillRandom cfg (u32 a.a0) (byteCount a.a1) s)

/-! ### RNG_RAND_U32 and RNG_RAND_U64 -/

/-- Lines 2 to 6 of R173: one word, into `RET[0]`. -/
def returnWord (cfg : Config) (s : State) : State :=
  match genWords cfg.gen 1 s.gen.content with
  | none => genFailed cfg s 19
  | some (ws, g) => complete ((s.setGen cfg g).setRet0 (ws.getD 0 0)).release

/-- RNG_RAND_U32 (R173, R174). -/
def rngRandU32 (cfg : Config) (s : State) : Result :=
  withCommand s fun _ =>
  withMutex s fun s =>
  .next (onEngine cfg s (returnWord cfg))

/-- Lines 2 to 6 of R175: two words by one call, the first one into `RET[0]`, the low half. -/
def returnTwoWords (cfg : Config) (s : State) : State :=
  match genWords cfg.gen 2 s.gen.content with
  | none => genFailed cfg s 19
  | some (ws, g) => complete (((s.setGen cfg g).setRet0 (ws.getD 0 0)).setRet1 (ws.getD 1 0)).release

/-- RNG_RAND_U64 (R175). -/
def rngRandU64 (cfg : Config) (s : State) : Result :=
  withCommand s fun _ =>
  withMutex s fun s =>
  .next (onEngine cfg s (returnTwoWords cfg))

/-! ### RNG_LOCK, RNG_UNLOCK, RNG_CTX, RNG_SHUTDOWN -/

/-- RNG_LOCK (R176): the mutex is kept. -/
def rngLock (cfg : Config) (s : State) : Result :=
  withCommand s fun _ =>
  withMutex s fun s =>
  .next (onEngine cfg s complete)

/-- RNG_UNLOCK (R178): no hold and no creation. -/
def rngUnlock (s : State) : Result :=
  withCommand s fun _ =>
  if s.lockOwner = some s.cur then .next (complete s.release) else .next (raise s .seq 0)

/-- The value RNG_CTX returns (R180 line 3, R181). -/
def ctxValue (cfg : Config) : Word := if cfg.genContextless then 0 else cfg.genHandle

/-- RNG_CTX (R180, R181): on an engine that exists it takes no mutex. -/
def rngCtx (cfg : Config) (s : State) : Result :=
  withCommand s fun _ =>
  if s.created then .next (complete (s.setRet0 (ctxValue cfg)))
  else
    withMutex s fun s =>
    .next (onEngine cfg s fun s => complete (s.release.setRet0 (ctxValue cfg)))

/-- The engine gone: its storage wiped and released, `CREATED` 0 (R184 lines 3 and 4). -/
def State.dropEngine (s : State) : State :=
  { s with gen := s.gen.destroy, created := false, engineEpoch := s.engineEpoch + 1 }

/-- RNG_SHUTDOWN (R184, R185): no creation. -/
def rngShutdown (s : State) : Result :=
  withCommand s fun _ =>
  withMutex s fun s =>
  .next (complete (if s.created then s.dropEngine else s).release)

/-! ### The meanings on the hardware's own configuration -/

/-- The meaning of RNG_SEED (R166). -/
def execRngSeed (s : State) : Result := rngSeed Config.hw s

/-- The meaning of RNG_RANDOM_SEED (R168). -/
def execRngRandomSeed (s : State) : Result := rngRandomSeed Config.hw s

/-- The meaning of RNG_RAND_BYTES (R170). -/
def execRngRandBytes (s : State) : Result := rngRandBytes Config.hw s

/-- The meaning of RNG_RAND_U32 (R173). -/
def execRngRandU32 (s : State) : Result := rngRandU32 Config.hw s

/-- The meaning of RNG_RAND_U64 (R175). -/
def execRngRandU64 (s : State) : Result := rngRandU64 Config.hw s

/-- The meaning of RNG_LOCK (R176). -/
def execRngLock (s : State) : Result := rngLock Config.hw s

/-- The meaning of RNG_UNLOCK (R178). -/
def execRngUnlock (s : State) : Result := rngUnlock s

/-- The meaning of RNG_CTX (R180). -/
def execRngCtx (s : State) : Result := rngCtx Config.hw s

/-- The meaning of RNG_SHUTDOWN (R184). -/
def execRngShutdown (s : State) : Result := rngShutdown s

end Sys2Proof.Machine
end

