-- ==== Sys2Proof/Machine/Requesters.lean ====
section
/-! DEFINITION. The moves of the other agents (R20): a requester's accesses to its port registers and to data memory, the
environment's use of the generator handle, and the hardware reset. -/

namespace Sys2Proof.Machine

/-! ### Which ranges a pending command reads and writes (R62) -/

/-- A range of data memory: its first address and its number of bytes. -/
structure Span where
  base : Nat
  size : Nat
deriving DecidableEq, Repr

/-- The ranges a command reads with operands `a`: none where its checks fail, and for AEAD_RESET the associated data only
where its length is positive (R62, R94, R131). -/
def readSpans (cfg : Config) (slots : List Slot) (a : Args) : Instr → List Span
  | .aeadConstruct c m =>
    if slots[c]? = none ∨ s32 a.a1 ≤ 0 ∨ s32 (backendOf cfg m).stateSize ≤ 0 then [] else [⟨u32 a.a0, byteCount a.a1⟩]
  | .aeadReset c =>
    match slots[c]? with
    | none => []
    | some sl =>
      if resetError sl a = none then
        ⟨u32 a.a0, byteCount a.a1⟩ :: if s32 a.a3 > 0 then [⟨u32 a.a2, byteCount a.a3⟩] else []
      else []
  | .aeadAad c =>
    match slots[c]? with
    | none => []
    | some sl => if aadError sl a = none then [⟨u32 a.a0, byteCount a.a1⟩] else []
  | .aeadEncrypt c | .aeadDecrypt c =>
    match slots[c]? with
    | none => []
    | some sl => if transformError sl a = none then [⟨u32 a.a0, byteCount a.a1⟩] else []
  | .rngSeed => if s32 a.a1 ≤ 0 then [] else [⟨u32 a.a0, byteCount a.a1⟩]
  | .aeadAuthTag _ | .aeadDestroy _ | .rngRandomSeed | .rngRandBytes | .rngRandU32 | .rngRandU64 | .rngLock
  | .rngUnlock | .rngCtx | .rngShutdown => []

/-- A command's output range by its operands alone, whatever its checks say: R62's column of writes. A length that is
not positive gives an empty range. -/
def outputSpans (a : Args) : Instr → List Span
  | .aeadEncrypt _ | .aeadDecrypt _ => [⟨u32 a.a2, byteCount a.a1⟩]
  | .aeadAuthTag _ | .rngRandBytes => [⟨u32 a.a0, byteCount a.a1⟩]
  | .aeadConstruct _ _ | .aeadReset _ | .aeadAad _ | .aeadDestroy _ | .rngSeed | .rngRandomSeed | .rngRandU32
  | .rngRandU64 | .rngLock | .rngUnlock | .rngCtx | .rngShutdown => []

/-- The ranges a command writes, with operands `a`: none where its checks fail, but for the early zero-fill (R62,
R143). -/
def writeSpans (cfg : Config) (slots : List Slot) (a : Args) : Instr → List Span
  | .aeadEncrypt c =>
    match slots[c]? with
    | none => []
    | some sl => if transformError sl a = none then outputSpans a (.aeadEncrypt c) else []
  | .aeadDecrypt c =>
    match slots[c]? with
    | none => []
    | some sl => if transformError sl a = none then outputSpans a (.aeadDecrypt c) else []
  | .aeadAuthTag c =>
    match slots[c]? with
    | none => []
    | some sl =>
      if sl.phase.open ∧ s32 a.a1 ≥ 1 ∧ (tagLenValid sl a.a1 ∨ cfg.tagZeroBeforeValidate) then
        outputSpans a (.aeadAuthTag c)
      else []
  | .rngRandBytes => if s32 a.a1 ≤ 0 then [] else outputSpans a .rngRandBytes
  | .aeadConstruct _ _ | .aeadReset _ | .aeadAad _ | .aeadDestroy _ | .rngSeed | .rngRandomSeed | .rngRandU32
  | .rngRandU64 | .rngLock | .rngUnlock | .rngCtx | .rngShutdown => []

/-- The pending commands of the block, each decoded with its operands; an illegal word is no command (R91). -/
def State.pendingCommands (s : State) : List (Instr × Args) :=
  s.ports.filterMap fun p => p.pending.bind fun l => (decode s.slots.length l.word).toOption.map fun i => (i, l.args)

/-- The ranges the pending commands read. -/
def State.pendingReads (cfg : Config) (s : State) : List Span :=
  s.pendingCommands.flatMap fun c => readSpans cfg s.slots c.2 c.1

/-- The ranges the pending commands write. -/
def State.pendingWrites (cfg : Config) (s : State) : List Span :=
  s.pendingCommands.flatMap fun c => writeSpans cfg s.slots c.2 c.1

/-- The output ranges of the pending commands, whatever their checks say. -/
def State.pendingOutputs (s : State) : List Span := s.pendingCommands.flatMap fun c => outputSpans c.2 c.1

/-- Whether some byte of a range lies in one of the given ranges; an empty range has no byte. -/
def meetsAny (spans : List Span) (base n : Nat) : Bool :=
  spans.any fun t => decide (max base t.base < min (base + n) (t.base + t.size))

/-- Two ports have pending commands for one slot (R72 (b)). -/
def State.slotClash (s : State) : Bool :=
  !decide ((s.pendingCommands.filterMap fun c => c.1.slot?).Nodup)

/-! ### Port registers (R21, R22) -/

/-- The byte address of a register of port `p` (R21). -/
def portAddr (cfg : Config) (p off : Nat) : Nat := cfg.portBase + 0x40 * p + off

/-- The port and the offset in its window that a byte address of the register space names; `none` outside every window
(R21). -/
def portOffset (cfg : Config) (nPorts addr : Nat) : Option (Nat × Nat) :=
  if cfg.portBase ≤ addr ∧ (addr - cfg.portBase) / 0x40 < nPorts then
    some ((addr - cfg.portBase) / 0x40, (addr - cfg.portBase) % 0x40)
  else none

/-- What a register reads as, by its offset: `CMD` and the reserved offsets read 0 (R21). -/
def Port.readReg (p : Port) (off : Nat) : Word :=
  match off with
  | 0x04 => p.status
  | 0x08 => p.errinfo
  | 0x10 => p.args.a0
  | 0x14 => p.args.a1
  | 0x18 => p.args.a2
  | 0x1C => p.args.a3
  | 0x20 => p.ret0
  | 0x24 => p.ret1
  | _ => 0

/-- The issue of a command: the word and the operands latched, BUSY set, the code 0 (R22). -/
def Port.issue (p : Port) (w : Word) : Port := { p with pending := some ⟨w, p.args⟩, status := statusPending }

/-- A write to a register, by its offset: `CMD` issues a command, the `ARG` registers take the value, both only while
BUSY is 0; a write to a read-only or reserved offset is ignored (R21, R22). -/
def Port.writeReg (p : Port) (off : Nat) (v : Word) : Port :=
  if p.busy then p
  else
    match off with
    | 0x00 => p.issue v
    | 0x10 => { p with args := { p.args with a0 := v } }
    | 0x14 => { p with args := { p.args with a1 := v } }
    | 0x18 => { p with args := { p.args with a2 := v } }
    | 0x1C => { p with args := { p.args with a3 := v } }
    | _ => p

/-- A register access of requester `r`: a whole aligned word of its own port (R21); `k` gets the port's number and the
offset. -/
def withRegister (cfg : Config) (s : State) (r addr size : Nat) (k : Nat → Nat → Result) : Result :=
  match portOffset cfg s.ports.length addr with
  | none => .refused .notAPort
  | some (p, off) =>
    if p ≠ r then .refused .foreignPort
    else if size ≠ 4 ∨ off % 4 ≠ 0 then .refused .badRegisterAccess
    else k p off

/-- A requester reads a register. -/
def regRead (cfg : Config) (r addr size : Nat) (s : State) : Result :=
  withRegister cfg s r addr size fun p off =>
  .next { s with delivered := .word ((s.ports[p]?.getD .idle).readReg off) }

/-- A requester writes a register. -/
def regWrite (cfg : Config) (r addr size : Nat) (v : Word) (s : State) : Result :=
  withRegister cfg s r addr size fun p off =>
  .next { s with ports := s.ports.modify p fun q => q.writeReg off v }

/-! ### Data memory (R20, R72 (a)) -/

/-- A requester's access to the range of `n` bytes at `base`. Data memory is total for the host (D19), provided as a
buffer or not. There is no byte past the top of the address space (R60); the spec says nothing of what a device does
(R68); and no byte of a `blocked` range may be accessed (R72 (a)). -/
def withHostRange (s : State) (blocked : List Span) (base n : Nat) (k : Result) : Result :=
  if 2 ^ 32 < base + n then .fault .addressWrap
  else if (List.range n).any fun i => inRegion s.regions .device (base + i) then .refused .deviceAccess
  else if meetsAny blocked base n then .refused .bufferInUse
  else k

/-- A requester reads data memory; no agent reads a range a pending command writes (R72 (a)). -/
def memRead (cfg : Config) (base n : Nat) (s : State) : Result :=
  withHostRange s (s.pendingWrites cfg) base n <|
    .next { s with delivered := .bytes (s.load cfg base n) }

/-- A requester writes data memory; no agent writes a range a pending command reads or writes (R72 (a)). -/
def memWrite (cfg : Config) (base : Nat) (v : Bytes) (s : State) : Result :=
  withHostRange s (s.pendingReads cfg ++ s.pendingWrites cfg) base v.length <|
    .next (s.store cfg base v)

/-! ### The generator handle (R182, R183) -/

/-- `EnvGenUse(r, n)`: the mutex owner's use of the generator through a handle of the present engine (R182); any other
use has no meaning (R183). -/
def handleUse (cfg : Config) (r n epoch : Nat) (s : State) : Result :=
  if s.lockOwner = some r ∧ s.created = true ∧ cfg.genContextless = false ∧ 1 ≤ n ∧ epoch = s.engineEpoch then
    match genWords cfg.gen n s.gen.content with
    | none => .next { s.scrambleGen cfg with delivered := .nothing }
    | some (ws, g) => .next { s.setGen cfg g with delivered := .words ws }
  else .refused .handleMisuse

/-! ### Hardware reset (R280, R281) -/

/-- Every byte of the given ranges that the address space has holds a free value afterwards (R281). -/
def storeFreeAll (cfg : Config) : List Span → State → State
  | [], s => s
  | t :: ts, s => storeFreeAll cfg ts (s.storeFree cfg t.base (min t.size (2 ^ 32 - t.base)))

/-- Every Secure Buffer destroyed and every piece of the block's state at its reset value; data memory, the clock and
what the host has still to do are not the block's (R43, R280). The output ranges of the abandoned commands hold free
values, whatever the commands' checks would have said (R281, assumption 15). -/
def hardReset (cfg : Config) (s : State) : State :=
  let s := storeFreeAll cfg s.pendingOutputs s
  { s with ports := s.ports.map fun _ => .idle,
           slots := s.slots.map fun _ => .empty,
           created := false,
           gen := s.gen.destroy,
           lockOwner := none,
           engineEpoch := s.engineEpoch + 1 }

end Sys2Proof.Machine
end

