-- ==== Sys2Proof/Machine/Control.lean ====
section
/-! DEFINITION. Which move is the next one, and the controller's own move: to run one pending command (R20, R71, R73). -/

namespace Sys2Proof.Machine

/-- The command a port has pending. -/
def State.pendingAt (s : State) (p : Nat) : Option Latch := s.ports[p]?.bind Port.pending

/-- The ports with a pending command. -/
def State.waiting (s : State) : List Nat := (List.range s.ports.length).filter fun p => (s.pendingAt p).isSome

/-- The waiting port the controller serves next where no agenda says so: any one of them (R73). -/
def pick (cfg : Config) (s : State) : Option Nat := s.waiting[cfg.schedule s.picks % s.waiting.length]?

/-- The controller's step for port `p`: the pending word is decoded and the command is run as the port's own; an illegal
word ends the command with E_ILLEGAL and nothing else (R91, R96). Without a pending command there is no step to take, and
nothing changes. -/
def serve (run : Instr → State → Result) (p : Nat) (s : State) : Result :=
  match s.pendingAt p with
  | none => .next s
  | some l =>
    match decode s.slots.length l.word with
    | .error _ => .next (raise { s with cur := p } .illegal 0)
    | .ok i => run i { s with cur := p }

/-- One move of one agent (R20). -/
def makeMove (cfg : Config) (run : Instr → State → Result) (m : Move) (s : State) : Result :=
  match m with
  | .serve p => serve run p s
  | .regRead r addr size => regRead cfg r addr size s
  | .regWrite r addr size v => regWrite cfg r addr size v s
  | .memRead _ base n => memRead cfg base n s
  | .memWrite _ base v => memWrite cfg base v s
  | .handleUse r n epoch => handleUse cfg r n epoch s
  | .handleSeed _ _ => .refused .handleMisuse
  | .hardReset => .next (hardReset cfg s)

/-- The step on a configuration: the first move of the agenda, or, where the agenda is empty, a waiting command; with
nothing to do the block is idle and nothing changes (R282). A state with two pending commands for one slot has no next
state (R72 (b)). -/
def stepWith (cfg : Config) (run : Instr → State → Result) (s : State) : Result :=
  if s.slotClash then .refused .slotClash
  else
    match s.agenda with
    | m :: rest => makeMove cfg run m { s with agenda := rest }
    | [] =>
      match pick cfg s with
      | none => .next s
      | some p => serve run p { s with picks := s.picks + 1 }

/-- A command word issued at port 0 with the operands its `ARG` registers hold (R22), to be served by the very next
move. -/
def State.issueNext (s : State) (w : Word) : State :=
  { s with ports := s.ports.modify 0 fun p => p.issue w, agenda := .serve 0 :: s.agenda }

end Sys2Proof.Machine
end

