-- ==== Sys2Proof/Machine/Dispatch.lean ====
section
/-! DEFINITION. One arm per command, each one direct call of that command's meaning. -/

namespace Sys2Proof.Machine

def exec (i : Instr) (s : State) : Host.Outcome State Fault Refusal :=
  match i with
  | .aeadConstruct c m => Sys2Proof.Machine.execAeadConstruct c m s
  | .aeadReset c => Sys2Proof.Machine.execAeadReset c s
  | .aeadAad c => Sys2Proof.Machine.execAeadAad c s
  | .aeadEncrypt c => Sys2Proof.Machine.execAeadEncrypt c s
  | .aeadDecrypt c => Sys2Proof.Machine.execAeadDecrypt c s
  | .aeadAuthTag c => Sys2Proof.Machine.execAeadAuthTag c s
  | .aeadDestroy c => Sys2Proof.Machine.execAeadDestroy c s
  | .rngSeed => Sys2Proof.Machine.execRngSeed s
  | .rngRandomSeed => Sys2Proof.Machine.execRngRandomSeed s
  | .rngRandBytes => Sys2Proof.Machine.execRngRandBytes s
  | .rngRandU32 => Sys2Proof.Machine.execRngRandU32 s
  | .rngRandU64 => Sys2Proof.Machine.execRngRandU64 s
  | .rngLock => Sys2Proof.Machine.execRngLock s
  | .rngUnlock => Sys2Proof.Machine.execRngUnlock s
  | .rngCtx => Sys2Proof.Machine.execRngCtx s
  | .rngShutdown => Sys2Proof.Machine.execRngShutdown s

end Sys2Proof.Machine
end

