-- ==== Sys2Proof/Machine/Step.lean ====
section
/-! DEFINITION. One step of the machine, and how a command word comes to be the next one served. -/

namespace Sys2Proof.Machine

/-- One step of the hardware: the next move of the total order of steps (R70, R71). -/
def step (s : State) : Host.Outcome State Fault Refusal := stepWith Config.hw exec s

/-- `s` with the command whose word is `w` (`nbits` bits, the rest 0) issued at port 0 and served by the very next step:
it stands for the requester's write of `w` to its `CMD` register (R22, R98; assumption 2). -/
def State.withFetchWord (s : State) (nbits w : Nat) : State := s.issueNext (BitVec.ofNat 32 (w % 2 ^ nbits))

end Sys2Proof.Machine
end

