-- ==== Sys2Proof/Safety.lean ====
section
/-! DEFINITION. The terms the claims use: the operands of the command in flight, how a command ended, what a step left
alone (the parts of a frame), the invariants of R42, and the tables of R92 and R148 as the spec prints them. -/

namespace Sys2Proof.Machine

/-! ### The command in flight and its end -/

/-- The operands latched for the command of the current port; `none` where it has none pending (R22, R36). -/
def State.operands (s : State) : Option Args := (s.pendingAt s.cur).map Latch.args

/-- What the current port's host can read of the end of a command: `STATUS` is the code with BUSY 0, `ERRINFO` the
detail, and nothing is pending (R13, R23, R36). -/
abbrev Ended (s t : State) (code : BitVec 8) (info : Word) : Prop :=
  (t.ports[s.cur]?).map (fun p => (p.status, p.errinfo, p.pending)) = some (code.setWidth 32, info, none)

/-- One byte of data memory, as the hardware reads it. -/
def byteAt (s : State) (a : Nat) : Byte := Memory.read Config.hw s.mem a

/-- `n` bytes of data memory from `base` on. -/
def bytesAt (s : State) (base n : Nat) : Bytes := (List.range n).map fun i => byteAt s (base + i)

/-- The range of `n` bytes at `base` can be accessed: it does not wrap and every byte is provided as ordinary memory
(R66, R67, R68). -/
abbrev Accessible (s : State) (base n : Nat) : Prop := rangeFault s.regions base n = none

/-- The command's access to the range of `n` bytes at `base` stops with `f`: some byte passes the top of the address space
(R66); or none does and some byte lies in a device region (R68); or neither and some byte is not provided as ordinary
memory (R67). -/
def RangeStop (s : State) (base n : Nat) (f : Fault) : Prop :=
  let someByte (p : Nat → Prop) := ∃ x, base ≤ x ∧ x < base + n ∧ p x
  let device := someByte fun x => inRegion s.regions .device x = true
  (f = .addressWrap ∧ 2 ^ 32 < base + n) ∨
    (f = .bufferOverDevice ∧ base + n ≤ 2 ^ 32 ∧ device) ∨
    (f = .bufferNotProvided ∧ base + n ≤ 2 ^ 32 ∧ ¬ device ∧ someByte fun x => inRegion s.regions .ram x = false)

/-! ### The ranges of a pending command (R62, R72 (a)) -/

/-- The byte at `x` lies in a range that R62's column of reads gives a command with operands `a`. -/
def readsByte (a : Args) (x : Nat) : Instr → Prop
  | .aeadConstruct _ _ | .aeadAad _ | .aeadEncrypt _ | .aeadDecrypt _ | .rngSeed =>
    u32 a.a0 ≤ x ∧ x < u32 a.a0 + byteCount a.a1
  | .aeadReset _ =>
    (u32 a.a0 ≤ x ∧ x < u32 a.a0 + byteCount a.a1) ∨
      (0 < s32 a.a3 ∧ u32 a.a2 ≤ x ∧ x < u32 a.a2 + byteCount a.a3)
  | .aeadAuthTag _ | .aeadDestroy _ | .rngRandomSeed | .rngRandBytes | .rngRandU32 | .rngRandU64 | .rngLock
  | .rngUnlock | .rngCtx | .rngShutdown => False

/-- The byte at `x` lies in the range that R62's column of writes gives a command with operands `a`. -/
def writesByte (a : Args) (x : Nat) : Instr → Prop
  | .aeadEncrypt _ | .aeadDecrypt _ => u32 a.a2 ≤ x ∧ x < u32 a.a2 + byteCount a.a1
  | .aeadAuthTag _ | .rngRandBytes => u32 a.a0 ≤ x ∧ x < u32 a.a0 + byteCount a.a1
  | .aeadConstruct _ _ | .aeadReset _ | .aeadAad _ | .aeadDestroy _ | .rngSeed | .rngRandomSeed | .rngRandU32
  | .rngRandU64 | .rngLock | .rngUnlock | .rngCtx | .rngShutdown => False

/-- The command's checks let it reach its accesses (R62), an AEAD_AUTH_TAG with the early zero-fill included (R143). -/
def checksPass (cfg : Config) (s : State) (a : Args) : Instr → Prop
  | .aeadConstruct c m => c < s.slots.length ∧ 0 < s32 a.a1 ∧ 0 < s32 (backendOf cfg m).stateSize
  | .aeadReset c => ∃ sl, s.slots[c]? = some sl ∧ resetError sl a = none
  | .aeadAad c => ∃ sl, s.slots[c]? = some sl ∧ aadError sl a = none
  | .aeadEncrypt c | .aeadDecrypt c => ∃ sl, s.slots[c]? = some sl ∧ transformError sl a = none
  | .aeadAuthTag c =>
    ∃ sl, s.slots[c]? = some sl ∧ sl.phase.open = true ∧ 1 ≤ s32 a.a1 ∧
      (tagLenValid sl a.a1 = true ∨ cfg.tagZeroBeforeValidate = true)
  | .rngSeed | .rngRandBytes => 0 < s32 a.a1
  | .aeadDestroy _ | .rngRandomSeed | .rngRandU32 | .rngRandU64 | .rngLock | .rngUnlock | .rngCtx | .rngShutdown =>
    True

/-- Some pending command whose checks pass has, by `touches`, the byte at `x` (R72 (a)). -/
def State.PendingTouches (cfg : Config) (s : State) (touches : Args → Nat → Instr → Prop) (x : Nat) : Prop :=
  ∃ p l i, s.pendingAt p = some l ∧ decode s.slots.length l.word = .ok i ∧ checksPass cfg s l.args i ∧
    touches l.args x i

/-! ### Frames -/

/-- Every port but the current one is unchanged, registers, pending command and staging buffers alike (R247). -/
def OtherPortsKept (s t : State) : Prop :=
  t.ports.length = s.ports.length ∧ ∀ q, q ≠ s.cur → t.ports[q]? = s.ports[q]?

/-- The current port's `ARG` registers are unchanged (R25). -/
abbrev ArgsKept (s t : State) : Prop := (t.ports[s.cur]?).map Port.args = (s.ports[s.cur]?).map Port.args

/-- The current port's `RET[0]` is unchanged. -/
abbrev Ret0Kept (s t : State) : Prop := (t.ports[s.cur]?).map Port.ret0 = (s.ports[s.cur]?).map Port.ret0

/-- The current port's `RET[1]` is unchanged. -/
abbrev Ret1Kept (s t : State) : Prop := (t.ports[s.cur]?).map Port.ret1 = (s.ports[s.cur]?).map Port.ret1

/-- The current port's staging buffers are as they were, or empty (R37). -/
def StagesKeptOrEmpty (s t : State) : Prop :=
  ∀ p q, s.ports[s.cur]? = some p → t.ports[s.cur]? = some q →
    (q.keyStage = p.keyStage ∨ q.keyStage = .new) ∧ (q.tagStage = p.tagStage ∨ q.tagStage = .new) ∧
      (q.seedStage = p.seedStage ∨ q.seedStage = .new)

/-- The current port's staging buffers are unchanged. -/
abbrev StagesKept (s t : State) : Prop :=
  (t.ports[s.cur]?).map (fun p => (p.keyStage, p.tagStage, p.seedStage)) =
    (s.ports[s.cur]?).map (fun p => (p.keyStage, p.tagStage, p.seedStage))

/-- Every slot but slot `c` is unchanged. -/
def OtherSlotsKept (s t : State) (c : Nat) : Prop :=
  t.slots.length = s.slots.length ∧ ∀ d, d ≠ c → t.slots[d]? = s.slots[d]?

/-- The RNG unit and the entropy ports are unchanged (R33). -/
def RngKept (s t : State) : Prop :=
  t.created = s.created ∧ t.gen = s.gen ∧ t.lockOwner = s.lockOwner ∧ t.engineEpoch = s.engineEpoch ∧ t.env = s.env

/-- Every byte of data memory reads as before. -/
def MemoryKept (s t : State) : Prop := ∀ a, byteAt t a = byteAt s a

/-- Every byte of data memory outside the `n` bytes at `base` reads as before. -/
def MemoryKeptOutside (s t : State) (base n : Nat) : Prop :=
  ∀ a, a < base ∨ base + n ≤ a → byteAt t a = byteAt s a

/-- What no command of the block touches: the host's provision of memory and the model's own record of who moves next
and what was handed out. -/
def HostSideKept (s t : State) : Prop :=
  t.regions = s.regions ∧ t.cur = s.cur ∧ t.agenda = s.agenda ∧ t.picks = s.picks ∧ t.delivered = s.delivered

/-- A command that ended with an error and did nothing else (R248): only the current port's `STATUS`, `ERRINFO` and
pending record differ. -/
def OnlyRefusedWith (s t : State) (code : BitVec 8) : Prop :=
  Ended s t code 0 ∧ OtherPortsKept s t ∧ ArgsKept s t ∧ Ret0Kept s t ∧ Ret1Kept s t ∧ StagesKept s t ∧
    t.slots = s.slots ∧ RngKept s t ∧ MemoryKept s t ∧ HostSideKept s t ∧ t.draws = s.draws

/-! ### Invariants (R42, R230) -/

/-- R42 (a) to (d) of one slot, R31 for StreamMode, and R230 for its backend state. -/
def Slot.ok (cfg : Config) (sl : Slot) : Prop :=
  sl.bstate.wf = true ∧
  (sl.phase = .unconstructed → sl = .empty) ∧
  (sl.phase ≠ .unconstructed →
    0 < s32 (backendOf cfg sl.mode).stateSize ∧ (sl.bstate.len : Int) = s32 (backendOf cfg sl.mode).stateSize) ∧
  (sl.mode = .counter → sl.phase ≠ .assocData) ∧
  (sl.phase = .constructed → sl.aadf = false) ∧
  (sl.phase = .assocData → sl.aadf = true) ∧
  (sl.mode = .stream → sl.taglen = 0)

/-- R42 (e) and (g) of one port, R23 for the bits of `STATUS` that read 0 and its codes, and R24 for `ERRINFO`. -/
def Port.ok (p : Port) : Prop :=
  (p.busy = true ↔ p.pending ≠ none) ∧
  p.keyStage = .new ∧ p.tagStage = .new ∧ p.seedStage = .new ∧
  p.status.extractLsb' 8 23 = 0 ∧ p.code.toNat ≤ 7 ∧
  (p.pending = none → p.errinfo ≠ 0 → p.code = 4 ∨ p.code = 5)

/-- R42 (f), R230 for `GEN`, and an owner of the mutex is a requester (R34). -/
def State.RngOk (s : State) : Prop :=
  s.gen.wf = true ∧ (s.created = false → s.gen = .new) ∧ ∀ r, s.lockOwner = some r → r < s.ports.length

/-- Data memory is in its canonical form. -/
def State.MemOk (s : State) : Prop := Memory.wf Config.hw s.mem = true

/-- Every slot meets R42. -/
def State.SlotsOk (s : State) : Prop := ∀ sl ∈ s.slots, sl.ok Config.hw

/-- Every port meets R42. -/
def State.PortsOk (s : State) : Prop := ∀ p ∈ s.ports, p.ok

/-! ### Tables of the spec -/

/-- The `match` column of R92's table, with the `ctx` and `mode` fields 0. -/
def rowMatch : Instr → Word
  | .aeadConstruct _ _ => 0x00000010
  | .aeadReset _ => 0x00000011
  | .aeadAad _ => 0x00000012
  | .aeadEncrypt _ => 0x00000013
  | .aeadDecrypt _ => 0x00000014
  | .aeadAuthTag _ => 0x00000015
  | .aeadDestroy _ => 0x00000016
  | .rngSeed => 0x00000020
  | .rngRandomSeed => 0x00000021
  | .rngRandBytes => 0x00000022
  | .rngRandU32 => 0x00000023
  | .rngRandU64 => 0x00000024
  | .rngLock => 0x00000025
  | .rngUnlock => 0x00000026
  | .rngCtx => 0x00000027
  | .rngShutdown => 0x00000028

/-- The `mask` column of R92's table. -/
def rowMask : Instr → Word
  | .aeadConstruct _ _ => 0xFFFE00FF
  | .aeadReset _ | .aeadAad _ | .aeadEncrypt _ | .aeadDecrypt _ | .aeadAuthTag _ | .aeadDestroy _ => 0xFFFF00FF
  | .rngSeed | .rngRandomSeed | .rngRandBytes | .rngRandU32 | .rngRandU64 | .rngLock | .rngUnlock | .rngCtx
  | .rngShutdown => 0xFFFFFFFF

/-- The operand fields of a word are those of the command: `ctx` in bits 15:8, and AEAD_CONSTRUCT's `mode` in bit 16
(R90, R93). -/
def rowFields (w : Word) : Instr → Prop
  | .aeadConstruct c m => (w >>> 8).toNat % 256 = c ∧ ((w >>> 16).toNat % 2 = 1 ↔ m = .counter)
  | .aeadReset c | .aeadAad c | .aeadEncrypt c | .aeadDecrypt c | .aeadAuthTag c | .aeadDestroy c =>
    (w >>> 8).toNat % 256 = c
  | .rngSeed | .rngRandomSeed | .rngRandBytes | .rngRandU32 | .rngRandU64 | .rngLock | .rngUnlock | .rngCtx
  | .rngShutdown => True

/-- R148's table: the phase after a successful AEAD command on a slot of phase `ph` and mode `m`, or the error it is
rejected with; `none` for an RNG command, which is not in the table. -/
def phaseTable (ph : Phase) (m : Mode) : Instr → Option (Except Err Phase)
  | .aeadConstruct _ _ => some (.ok .constructed)
  | .aeadDestroy _ => some (.ok .unconstructed)
  | .aeadReset _ => some (if ph = .unconstructed then .error .seq else .ok .reset)
  | .aeadAad _ =>
    some (match ph, m with
      | .unconstructed, _ => .error .seq
      | .constructed, .stream => .error .seq
      | .reset, .stream => .ok .assocData
      | .assocData, .stream => .ok .assocData
      | .transforming, .stream => .error .seq
      | .tagExtracted, .stream => .error .seq
      | .failed, .stream => .error .seq
      | .constructed, .counter => .error .unsupported
      | .reset, .counter => .error .unsupported
      | .assocData, .counter => .error .unsupported
      | .transforming, .counter => .error .unsupported
      | .tagExtracted, .counter => .error .unsupported
      | .failed, .counter => .error .unsupported)
  | .aeadEncrypt _ | .aeadDecrypt _ =>
    some (match ph with
      | .reset | .assocData | .transforming => .ok .transforming
      | .unconstructed | .constructed | .tagExtracted | .failed => .error .seq)
  | .aeadAuthTag _ =>
    some (match ph with
      | .reset | .assocData | .transforming => .ok .tagExtracted
      | .unconstructed | .constructed | .tagExtracted | .failed => .error .seq)
  | .rngSeed | .rngRandomSeed | .rngRandBytes | .rngRandU32 | .rngRandU64 | .rngLock | .rngUnlock | .rngCtx
  | .rngShutdown => none

/-- The commands of the RNG command frame (R164): all RNG commands but RNG_UNLOCK, RNG_CTX only where the engine does
not exist; the argument checks of RNG_SEED and RNG_RAND_BYTES come before the frame. -/
def takesMutex (s : State) (a : Args) : Instr → Prop
  | .rngSeed | .rngRandBytes => 0 < s32 a.a1
  | .rngRandomSeed | .rngRandU32 | .rngRandU64 | .rngLock | .rngShutdown => True
  | .rngCtx => s.created = false
  | .rngUnlock | .aeadConstruct _ _ | .aeadReset _ | .aeadAad _ | .aeadEncrypt _ | .aeadDecrypt _ | .aeadAuthTag _
  | .aeadDestroy _ => False

/-! ### What the RNG unit computes, as values -/

/-- `ensure_created()` as values (R165): the generator state the body of a framed command starts from and the entropy
ports then, or the `ERRINFO` of a failed creation and the entropy ports then. -/
def creationOf (cfg : Config) (s : State) : Except (Word × EnvPorts) (Bytes × EnvPorts) :=
  if s.created then .ok (s.gen.content, s.env)
  else
    match cfg.gen.create cfg.seedBitsMax with
    | none => .error (16, s.env)
    | some g =>
      match cfg.gen.augment (chainDraw cfg s.env).1 g with
      | none => .error (18, (chainDraw cfg s.env).2)
      | some g' => .ok (g', (chainDraw cfg s.env).2)

/-- The bytes of `q` whole generated words and the generator state after them (R170 lines 4 to 8); no call for none. -/
def wholePart (g : Gen) (q : Nat) (st : Bytes) : Option (Bytes × Bytes) :=
  if q = 0 then some ([], st) else (genWords g q st).map fun r => (wordBytes r.1, r.2)

/-- The tail bytes taken from one extra word and the generator state after it (R170 lines 9 to 13); no call for none. -/
def tailPart (g : Gen) (t : Nat) (st : Bytes) : Option (Bytes × Bytes) :=
  if t = 0 then some ([], st) else (genWords g 1 st).map fun r => ((wordBytes r.1).take t, r.2)

/-- The `len` bytes RNG_RAND_BYTES makes from a generator state, and the state after them; `none` where `Gen.words`
fails (R170, R171). -/
def randomFill (g : Gen) (len : Nat) (st : Bytes) : Option (Bytes × Bytes) :=
  match wholePart g (len / 4) st with
  | none => none
  | some (b1, st1) =>
    match tailPart g (len % 4) st1 with
    | none => none
    | some (b2, st2) => some (b1 ++ b2, st2)

/-- The length of `GEN` while a framed command runs on an engine whose state is `g`: as it was, or that of the state the
command's own creation has just assigned (R231). A failure keeps it (R189). -/
def State.genLength (s : State) (g : Bytes) : Nat := if s.created then s.gen.len else g.length

/-- The length of `GEN` when RNG_RAND_BYTES fails: that of the state the failing `words` call was made on, which is the
one the whole words left if the call was for the tail (R170, R231). -/
def State.failedFillLength (s : State) (gen : Gen) (len : Nat) (g : Bytes) : Nat :=
  match wholePart gen (len / 4) g with
  | none => s.genLength g
  | some (_, g1) => if len / 4 = 0 then s.genLength g else g1.length

/-- A failed creation leaves the engine absent, `GEN` as it was and the mutex free, and ends the command with E_BACKEND
(R165). -/
def CreationFailed (s t : State) (info : Word) (env : EnvPorts) : Prop :=
  Ended s t 5 info ∧ t.created = false ∧ t.gen = s.gen ∧ t.lockOwner = none ∧ t.env = env

/-- A framed command whose body ran on an engine that exists: the mutex is free again and the entropy ports stand at
`env` (R164). -/
def RanOnEngine (t : State) (env : EnvPorts) : Prop := t.created = true ∧ t.lockOwner = none ∧ t.env = env

/-- The slot after `fail_slot(c)`: phase `Failed`, the backend state of the same length, the rest as given (R129,
R150). -/
def FailedFrom (sl sl' : Slot) (aadf : Bool) : Prop :=
  sl'.phase = .failed ∧ sl'.mode = sl.mode ∧ sl'.taglen = sl.taglen ∧ sl'.aadf = aadf ∧
    sl'.bstate.len = sl.bstate.len

/-- Bytes 0 to 63 of the source that answers a draw first: `TRNG`, else `HPRNG`, else `KDEV`, else the constant (R202,
R205). -/
def firstAnswer (cfg : Config) (e : EnvPorts) : Bytes :=
  match cfg.trng e.trngReqs, cfg.hprng e.hprngReqs, (kdevRead (cfg.kdev e.kdevReqs)).1 with
  | some b, _, _ => b.toList
  | none, some b, _ => b.toList
  | none, none, some b => b
  | none, none, none => cfg.fallbackConst.toList

end Sys2Proof.Machine
end

