-- ==== Sys2Proof/Certificates/Slice0/Obligations.lean ====
section
/-! DEFINITION. The statements for the provers. They are about the machine of `Config.hw`, whose configuration has no
body, so each holds for every backend, every generator, every answer of the entropy ports and every value of the OPEN
parameters; N_CTX and N_REQ are the lengths of the state's lists. Whether an opaque member answers `ok` or `fail` cannot
be a hypothesis, so a statement of a result says what holds in each case. -/

open Sys2Proof Sys2Proof.Machine

/-! ### Encoding (R90 to R97) -/

/-- Decoding the word of a well-formed command gives the command back, whatever the number of slots (R90 to R92). -/
def Obligations.DecodeOfEncodedCommand : Prop :=
  ∀ (nCtx : Nat) (i : Instr), i.wf nCtx = true → decode nCtx (encode i) = .ok i

/-- A word that decodes is the word of the command it decodes to, so no bit of a legal word is dropped and no two words
mean one command; and the command is well-formed (R90, R91). -/
def Obligations.EncodeOfDecodedWord : Prop :=
  ∀ (nCtx : Nat) (w : Word) (i : Instr), decode nCtx w = .ok i → encode i = w ∧ i.wf nCtx = true

/-- R92's columns: a word is a command exactly when it selects the command's row, its fields name the command's operands
and the slot exists. -/
def Obligations.OpcodeTableSelectsCommands : Prop :=
  ∀ (nCtx : Nat) (w : Word) (i : Instr),
    decode nCtx w = .ok i ↔ (w &&& rowMask i = rowMatch i ∧ rowFields w i ∧ i.wf nCtx = true)

/-- R91: every word is one command, with its opcode, `ctx` and `mode`, or is illegal for the first cause, in the rule's
order, that holds of it. -/
def Obligations.IllegalWordsByCause : Prop :=
  ∀ (nCtx : Nat) (w : Word),
    let op := w.toNat % 256
    let ctx := w.toNat / 256 % 256
    let mode := w.toNat / 65536 % 2
    let rsv := w.toNat / 131072
    let isAead := 0x10 ≤ op ∧ op ≤ 0x16
    let isRng := 0x20 ≤ op ∧ op ≤ 0x28
    (decode nCtx w = .error .reservedBits ↔ rsv ≠ 0) ∧
    (decode nCtx w = .error .unknownOpcode ↔ rsv = 0 ∧ ¬ isAead ∧ ¬ isRng) ∧
    (decode nCtx w = .error .misplacedRngField ↔ rsv = 0 ∧ isRng ∧ (ctx ≠ 0 ∨ mode ≠ 0)) ∧
    (decode nCtx w = .error .misplacedMode ↔ rsv = 0 ∧ isAead ∧ op ≠ 0x10 ∧ mode ≠ 0) ∧
    (decode nCtx w = .error .noSuchSlot ↔ rsv = 0 ∧ isAead ∧ (op ≠ 0x10 → mode = 0) ∧ nCtx ≤ ctx) ∧
    ((∃ i, decode nCtx w = .ok i) ↔
      rsv = 0 ∧ (isAead ∧ (op ≠ 0x10 → mode = 0) ∧ ctx < nCtx ∨ isRng ∧ ctx = 0 ∧ mode = 0)) ∧
    (∀ i, decode nCtx w = .ok i →
      i.opcode.toNat = op ∧ i.slot?.getD 0 = ctx ∧ (i.modeBit = true ↔ mode = 1))

/-- Words written out from the encoding, one of each kind, decode to the commands they stand for (R90, R92). -/
def Obligations.WrittenWordsDecode : Prop :=
  decode 2 0x00010110 = .ok (.aeadConstruct 1 .counter) ∧ decode 2 0x00000010 = .ok (.aeadConstruct 0 .stream) ∧
  decode 2 0x00000111 = .ok (.aeadReset 1) ∧ decode 256 0x0000FF16 = .ok (.aeadDestroy 255) ∧
  decode 2 0x00000028 = .ok .rngShutdown ∧ decode 2 0x00000000 = .error .unknownOpcode ∧
  decode 2 0x00000017 = .error .unknownOpcode ∧ decode 2 0x0000FF16 = .error .noSuchSlot ∧
  decode 2 0x00020011 = .error .reservedBits ∧ decode 2 0x00010011 = .error .misplacedMode ∧
  decode 2 0x00000211 = .error .noSuchSlot ∧ decode 2 0x00000123 = .error .misplacedRngField

/-! ### The step (R20, R22, R70 to R73, R96, R282) -/

/-- The controller's step for a port runs the command its pending word decodes to, as that port's own (R20, R22, R70). -/
def Obligations.StepRunsTheServedCommand : Prop :=
  ∀ (s : State) (p : Nat) (rest : List Move) (l : Latch) (i : Instr),
    s.agenda = .serve p :: rest → s.slotClash = false → s.pendingAt p = some l →
    decode s.slots.length l.word = .ok i → step s = exec i { s with agenda := rest, cur := p }

/-- Where the agenda says nothing, the controller serves one of the ports that wait, some one of them: which one is not
fixed (R73), and the model's free choice of assumption 8 makes it. Its command runs, or, the word illegal, ends with
E_ILLEGAL (R96). Where none waits the block is idle (R282). That the controller moves where the agenda is empty is the
model's convention (assumption 4). -/
def Obligations.ControllerServesSomeWaitingPort : Prop :=
  ∀ s : State, s.agenda = [] → s.slotClash = false →
    (s.waiting = [] → step s = .next s) ∧
    (s.waiting ≠ [] →
      ∃ p l, p ∈ s.waiting ∧ s.pendingAt p = some l ∧
        match decode s.slots.length l.word with
        | .ok i => step s = exec i { s with picks := s.picks + 1, cur := p }
        | .error _ => ∃ t, step s = .next t ∧ OnlyRefusedWith { s with picks := s.picks + 1, cur := p } t 7)

/-- A word placed by `withFetchWord` is issued at port 0 with the operands its `ARG` registers hold, and runs in the very
next step (R22, R98; the placing is the model's convention, assumption 2). -/
def Obligations.FetchedWordRunsNext : Prop :=
  ∀ (s : State) (w : Nat) (i : Instr), w < 2 ^ 32 → 0 < s.ports.length →
    (s.withFetchWord 32 w).slotClash = false → decode s.slots.length (BitVec.ofNat 32 w) = .ok i →
    step (s.withFetchWord 32 w) =
      exec i { s with ports := s.ports.modify 0 fun p => p.issue (BitVec.ofNat 32 w), cur := 0 }

/-- R96: an illegal word ends at once with E_ILLEGAL, whoever owns the mutex, and nothing else changes. -/
def Obligations.IllegalWordEndsWithEIllegal : Prop :=
  ∀ (s : State) (p : Nat) (rest : List Move) (l : Latch) (e : DecodeError),
    s.agenda = .serve p :: rest → s.slotClash = false → s.pendingAt p = some l →
    decode s.slots.length l.word = .error e →
    ∃ t, step s = .next t ∧ OnlyRefusedWith { s with agenda := rest, cur := p } t 7

/-- A state in which two ports have pending commands for one slot has no next state (R72 (b)). -/
def Obligations.SlotClashHasNoNextState : Prop :=
  ∀ (s : State) (p q c : Nat) (k l : Latch) (i j : Instr), p < q →
    s.pendingAt p = some k → s.pendingAt q = some l →
    decode s.slots.length k.word = .ok i → decode s.slots.length l.word = .ok j →
    i.slot? = some c → j.slot? = some c → step s = .refused .slotClash

/-! ### Reset and invariants (R42, R43, R230) -/

/-- R43 of a block with any numbers of slots and ports: what the reset state holds. The fields that are the model's own,
the provided regions and the default numbers of slots and ports are assumptions 1, 3, 4 and 5. -/
def Obligations.ResetStateValues : Prop :=
  ∀ nCtx nReq : Nat,
    let s := State.resetOf nCtx nReq
    s.ports.length = nReq ∧ s.slots.length = nCtx ∧
    (∀ p ∈ s.ports, p.status = 0 ∧ p.errinfo = 0 ∧ p.ret0 = 0 ∧ p.ret1 = 0 ∧ p.args = ⟨0, 0, 0, 0⟩ ∧
      p.pending = none ∧ p.keyStage = .new ∧ p.tagStage = .new ∧ p.seedStage = .new) ∧
    (∀ sl ∈ s.slots, sl.phase = .unconstructed ∧ sl.mode = .stream ∧ sl.aadf = false ∧ sl.taglen = 0 ∧
      sl.bstate = .new) ∧
    s.created = false ∧ s.gen = .new ∧ s.lockOwner = none ∧ State.reset = State.resetOf 2 2

/-- Every invariant holds after reset (R42: "After hardware reset"). -/
def Obligations.InvariantsHoldAtReset : Prop :=
  ∀ nCtx nReq : Nat, (State.resetOf nCtx nReq).MemOk ∧ (State.resetOf nCtx nReq).SlotsOk ∧
    (State.resetOf nCtx nReq).PortsOk ∧ (State.resetOf nCtx nReq).RngOk

/-- Every step keeps data memory in its canonical form. -/
def Obligations.MemoryStaysCanonical : Prop :=
  ∀ s t : State, s.MemOk → step s = .next t → t.MemOk

/-- Every step keeps R42 (a) to (d) and R230 of every slot. -/
def Obligations.SlotsKeepTheirInvariant : Prop :=
  ∀ s t : State, s.SlotsOk → step s = .next t → t.SlotsOk

/-- Every step keeps R42 (e) and (g), the fields of R23 and the rule of R24 at every port. -/
def Obligations.PortsKeepTheirInvariant : Prop :=
  ∀ s t : State, s.PortsOk → step s = .next t → t.PortsOk

/-- Every step keeps R42 (f), the zero tail of `GEN`, and that the mutex's owner is a requester. -/
def Obligations.RngUnitKeepsItsInvariant : Prop :=
  ∀ s t : State, s.RngOk → step s = .next t → t.RngOk

/-! ### AEAD_CONSTRUCT (R125, R126) -/

/-- A key length that is not positive is E_ARG and changes nothing, in every phase and mode (R125 line 1, R126 (a)). -/
def Obligations.ConstructRejectsNonPositiveKeyLength : Prop :=
  ∀ (s : State) (c : Nat) (m : Mode) (a : Args) (sl : Slot), s.operands = some a → s.slots[c]? = some sl →
    s32 a.a1 ≤ 0 → ∃ t, exec (.aeadConstruct c m) s = .next t ∧ OnlyRefusedWith s t 1

/-- With a positive key length and a key range that can be read, AEAD_CONSTRUCT completes: by the backend's verdicts, in
their order, with a new session in the slot, or with E_INIT and an empty slot (R125 lines 2 to 17). The premise on the
slot is R42 (a). That it runs where another port's held command writes the same bytes is the model's choice (assumption
25). -/
def Obligations.ConstructInstallsKey : Prop :=
  ∀ (s : State) (c : Nat) (m : Mode) (a : Args) (sl : Slot), s.operands = some a → s.slots[c]? = some sl →
    (sl.phase = .unconstructed → sl = .empty) → 0 < s32 a.a1 → Accessible s (u32 a.a0) (byteCount a.a1) →
    let be := backendOf Config.hw m
    ∃ t sl', exec (.aeadConstruct c m) s = .next t ∧ t.slots[c]? = some sl' ∧
      if s32 be.stateSize ≤ 0 then Ended s t 4 1 ∧ sl' = .empty
      else
        match initBytes be (bytesAt s (u32 a.a0) (byteCount a.a1)) (byteCount be.stateSize) with
        | none => Ended s t 4 2 ∧ sl' = .empty
        | some bs =>
          match setTagLenIfCounter Config.hw m a.a2 bs with
          | none => Ended s t 4 3 ∧ sl' = .empty
          | some bs' =>
            Ended s t 0 0 ∧ sl'.phase = .constructed ∧ sl'.mode = m ∧ sl'.aadf = false ∧
              sl'.taglen = (if m = .counter then a.a2 else 0) ∧ sl'.bstate.content = bs'

/-! ### AEAD_RESET (R129 to R132) -/

/-- AEAD_RESET's errors in their order: no session, then the nonce bounds of the mode, then a negative associated-data
length; each changes nothing (R129 lines 1 to 4, R130). -/
def Obligations.ResetRejectsInOrder : Prop :=
  ∀ (s : State) (c : Nat) (a : Args) (sl : Slot), s.operands = some a → s.slots[c]? = some sl →
    (sl.phase = .unconstructed → ∃ t, exec (.aeadReset c) s = .next t ∧ OnlyRefusedWith s t 6) ∧
    (sl.phase ≠ .unconstructed →
      (sl.mode = .stream ∧ s32 a.a1 < 1) ∨ (sl.mode = .counter ∧ (s32 a.a1 < 8 ∨ 12 < s32 a.a1)) ∨ s32 a.a3 < 0 →
      ∃ t, exec (.aeadReset c) s = .next t ∧ OnlyRefusedWith s t 1)

/-- With a session, a nonce length in the mode's bounds, a non-negative associated-data length and ranges that can be
read, AEAD_RESET completes: it starts a message, or, by the first backend member that fails, leaves the slot `Failed`
(R129 lines 5 to 18, R131, R132). That it completes where the two ranges overlap is the model's choice: R69 says that
overlap of ranges that are only read has no effect, where D15 and the table of 93_implementation_defined.md say `refuse`
(assumption 22); and so is that it runs where another port's held command writes the same bytes (assumption 25). -/
def Obligations.ResetStartsMessage : Prop :=
  ∀ (s : State) (c : Nat) (a : Args) (sl : Slot), s.operands = some a → s.slots[c]? = some sl →
    sl.phase ≠ .unconstructed →
    (sl.mode = .stream → 1 ≤ s32 a.a1) → (sl.mode = .counter → 8 ≤ s32 a.a1 ∧ s32 a.a1 ≤ 12) → 0 ≤ s32 a.a3 →
    Accessible s (u32 a.a0) (byteCount a.a1) → Accessible s (u32 a.a2) (byteCount a.a3) →
    let be := backendOf Config.hw sl.mode
    ∃ t sl', exec (.aeadReset c) s = .next t ∧ t.slots[c]? = some sl' ∧
      match resetIvBytes be (bytesAt s (u32 a.a0) (byteCount a.a1)) sl.bstate.content with
      | none => Ended s t 4 4 ∧ FailedFrom sl sl' false
      | some b1 =>
        match setMsgLenIfCounter Config.hw sl.mode b1 with
        | none => Ended s t 4 5 ∧ FailedFrom sl sl' false
        | some b2 =>
          match processAadIfAny be a.a3 (bytesAt s (u32 a.a2) (byteCount a.a3)) b2 with
          | none => Ended s t 5 6 ∧ FailedFrom sl sl' false
          | some b3 =>
            Ended s t 0 0 ∧ sl'.phase = .reset ∧ sl'.mode = sl.mode ∧ sl'.taglen = sl.taglen ∧
              (sl'.aadf = true ↔ 0 < s32 a.a3) ∧ sl'.bstate.content = b3

/-! ### AEAD_AAD (R133 to R135) -/

/-- R134: on a CounterMode session AEAD_AAD ends with E_UNSUPPORTED in every phase, whatever its operands; on an
`Unconstructed` slot, which has no mode, it ends with E_SEQ. Nothing else changes. -/
def Obligations.CounterModeAadUnsupported : Prop :=
  ∀ (s : State) (c : Nat) (a : Args) (sl : Slot), s.operands = some a → s.slots[c]? = some sl →
    (sl.phase ≠ .unconstructed → sl.mode = .counter →
      ∃ t, exec (.aeadAad c) s = .next t ∧ OnlyRefusedWith s t 3) ∧
    (sl.phase = .unconstructed → ∃ t, exec (.aeadAad c) s = .next t ∧ OnlyRefusedWith s t 6)

/-- On a StreamMode session AEAD_AAD outside `Reset` and `AssocData` is E_SEQ, and inside them a length that is not
positive is E_ARG; nothing else changes (R133 lines 3 and 4, R135). -/
def Obligations.StreamAadRejectsInOrder : Prop :=
  ∀ (s : State) (c : Nat) (a : Args) (sl : Slot), s.operands = some a → s.slots[c]? = some sl → sl.mode = .stream →
    (sl.phase ≠ .reset → sl.phase ≠ .assocData → ∃ t, exec (.aeadAad c) s = .next t ∧ OnlyRefusedWith s t 6) ∧
    (sl.phase = .reset ∨ sl.phase = .assocData → s32 a.a1 ≤ 0 →
      ∃ t, exec (.aeadAad c) s = .next t ∧ OnlyRefusedWith s t 1)

/-- On a StreamMode session in `Reset` or `AssocData`, with a positive length and a range that can be read, AEAD_AAD
completes: the bytes go to the backend, or the slot is `Failed` (R133 lines 5 to 10). That it runs where another port's
held command writes the same bytes is the model's choice (assumption 25). -/
def Obligations.AadAppends : Prop :=
  ∀ (s : State) (c : Nat) (a : Args) (sl : Slot), s.operands = some a → s.slots[c]? = some sl → sl.mode = .stream →
    sl.phase = .reset ∨ sl.phase = .assocData → 0 < s32 a.a1 → Accessible s (u32 a.a0) (byteCount a.a1) →
    ∃ t sl', exec (.aeadAad c) s = .next t ∧ t.slots[c]? = some sl' ∧
      match processAadBytes (backendOf Config.hw sl.mode) (bytesAt s (u32 a.a0) (byteCount a.a1)) sl.bstate.content with
      | none => Ended s t 5 6 ∧ FailedFrom sl sl' sl.aadf
      | some bs =>
        Ended s t 0 0 ∧ sl'.phase = .assocData ∧ sl'.mode = sl.mode ∧ sl'.taglen = sl.taglen ∧ sl'.aadf = true ∧
          sl'.bstate.content = bs

/-! ### AEAD_ENCRYPT and AEAD_DECRYPT (R136 to R141, R69) -/

/-- The transforms' errors in their order: the phase, then a length that is not positive, then a capacity below the
length, all three on signed numbers; each changes nothing (R136 and R139 lines 1 to 3, R137, R149). -/
def Obligations.TransformRejectsInOrder : Prop :=
  ∀ (s : State) (c : Nat) (a : Args) (sl : Slot) (i : Instr), i = .aeadEncrypt c ∨ i = .aeadDecrypt c →
    s.operands = some a → s.slots[c]? = some sl →
    (sl.phase.open = false → ∃ t, exec i s = .next t ∧ OnlyRefusedWith s t 6) ∧
    (sl.phase.open = true → s32 a.a1 ≤ 0 ∨ s32 a.a3 < s32 a.a1 →
      ∃ t, exec i s = .next t ∧ OnlyRefusedWith s t 2)

/-- In an admitted phase, with a positive length, enough capacity, ranges that can be accessed and that are disjoint or
start at the same address, a transform completes: exactly `len` output bytes are those of one backend call on the whole
input, or, if the backend fails, the slot is `Failed`; no byte outside the `len` output bytes changes (R136, R139). That it
runs where another port's held command has the same bytes is the model's choice (assumption 25). -/
def Obligations.TransformMovesBytes : Prop :=
  ∀ (s : State) (c : Nat) (a : Args) (sl : Slot) (i : Instr) (info : Word)
    (member : Backend → Bytes → Bytes → Option (Bytes × Bytes)),
    i = .aeadEncrypt c ∧ member = encryptBytes ∧ info = 7 ∨ i = .aeadDecrypt c ∧ member = decryptBytes ∧ info = 8 →
    s.operands = some a → s.slots[c]? = some sl → sl.phase.open = true → 0 < s32 a.a1 → s32 a.a1 ≤ s32 a.a3 →
    Accessible s (u32 a.a0) (byteCount a.a1) → Accessible s (u32 a.a2) (byteCount a.a1) →
    u32 a.a0 = u32 a.a2 ∨ u32 a.a0 + byteCount a.a1 ≤ u32 a.a2 ∨ u32 a.a2 + byteCount a.a1 ≤ u32 a.a0 →
    ∃ t sl', exec i s = .next t ∧ t.slots[c]? = some sl' ∧ MemoryKeptOutside s t (u32 a.a2) (byteCount a.a1) ∧
      match member (backendOf Config.hw sl.mode) (bytesAt s (u32 a.a0) (byteCount a.a1)) sl.bstate.content with
      | none => Ended s t 5 info ∧ FailedFrom sl sl' sl.aadf
      | some (out, bs) =>
        Ended s t 0 0 ∧ bytesAt t (u32 a.a2) (byteCount a.a1) = out ∧ sl'.phase = .transforming ∧
          sl'.mode = sl.mode ∧ sl'.taglen = sl.taglen ∧ sl'.aadf = sl.aadf ∧ sl'.bstate.content = bs

/-- Every command that reaches an access to a range of data memory the spec gives no meaning stops: a range that wraps
past the top of the address space (R66), that meets a device region (R68), or that is not provided (R67), be it what
AEAD_CONSTRUCT, AEAD_RESET, AEAD_AAD, a transform or RNG_SEED reads or what a transform, AEAD_AUTH_TAG or RNG_RAND_BYTES
writes; and a transform whose ranges overlap without starting at the same address (R69). Where a command's checks fail, or
its engine cannot be created, it ends before the access. That the ranges of one command are tested in the order of its
pseudocode, before the backend is called, is assumption 21, and that these stops are faults is assumption 13. -/
def Obligations.TransformStopsOnBadRanges : Prop :=
  ∀ (s : State) (a : Args) (f : Fault), s.operands = some a →
    (∀ c m sl, s.slots[c]? = some sl → 0 < s32 a.a1 → RangeStop s (u32 a.a0) (byteCount a.a1) f →
      if 0 < s32 (backendOf Config.hw m).stateSize then exec (.aeadConstruct c m) s = .fault f
      else ∃ t, exec (.aeadConstruct c m) s = .next t ∧ Ended s t 4 1) ∧
    (∀ c sl, s.slots[c]? = some sl → sl.phase ≠ .unconstructed → (sl.mode = .stream → 1 ≤ s32 a.a1) →
      (sl.mode = .counter → 8 ≤ s32 a.a1 ∧ s32 a.a1 ≤ 12) → 0 ≤ s32 a.a3 →
      RangeStop s (u32 a.a0) (byteCount a.a1) f ∨
        Accessible s (u32 a.a0) (byteCount a.a1) ∧ RangeStop s (u32 a.a2) (byteCount a.a3) f →
      exec (.aeadReset c) s = .fault f) ∧
    (∀ c sl, s.slots[c]? = some sl → sl.mode = .stream → sl.phase = .reset ∨ sl.phase = .assocData → 0 < s32 a.a1 →
      RangeStop s (u32 a.a0) (byteCount a.a1) f → exec (.aeadAad c) s = .fault f) ∧
    (∀ c sl i, i = .aeadEncrypt c ∨ i = .aeadDecrypt c → s.slots[c]? = some sl → sl.phase.open = true →
      0 < s32 a.a1 → s32 a.a1 ≤ s32 a.a3 →
      (RangeStop s (u32 a.a0) (byteCount a.a1) f ∨
          Accessible s (u32 a.a0) (byteCount a.a1) ∧ RangeStop s (u32 a.a2) (byteCount a.a1) f →
        exec i s = .fault f) ∧
      (Accessible s (u32 a.a0) (byteCount a.a1) → Accessible s (u32 a.a2) (byteCount a.a1) →
        u32 a.a0 ≠ u32 a.a2 → u32 a.a0 < u32 a.a2 + byteCount a.a1 → u32 a.a2 < u32 a.a0 + byteCount a.a1 →
        exec i s = .refused .partialOverlap)) ∧
    (∀ c sl, s.slots[c]? = some sl → sl.phase.open = true → 1 ≤ s32 a.a1 →
      RangeStop s (u32 a.a0) (byteCount a.a1) f →
      if (sl.mode = .stream ∧ s32 a.a1 ≤ 16) ∨ (sl.mode = .counter ∧ a.a1 = sl.taglen) ∨
          Config.hw.tagZeroBeforeValidate = true then
        exec (.aeadAuthTag c) s = .fault f
      else ∃ t, exec (.aeadAuthTag c) s = .next t ∧ OnlyRefusedWith s t 1) ∧
    (∀ i, i = .rngSeed ∨ i = .rngRandBytes → 0 < s32 a.a1 → s.lockOwner = none →
      RangeStop s (u32 a.a0) (byteCount a.a1) f →
      match creationOf Config.hw s with
      | .error (info, env) => ∃ t, exec i s = .next t ∧ CreationFailed s t info env
      | .ok _ => exec i s = .fault f)

/-- P-INPLACE (R154): a transform whose output range is its input range gives the output bytes, the end and the slot that
the same transform gives with a separate output range. The two runs agree on the slot and on the input bytes; nothing
else of the two states is compared. That a transform runs where another port's held command has the same bytes is the
model's choice (assumption 25). -/
def Obligations.InPlaceTransformEqualsTwoBuffer : Prop :=
  ∀ (s s' : State) (c : Nat) (a a' : Args) (sl : Slot) (i : Instr), i = .aeadEncrypt c ∨ i = .aeadDecrypt c →
    s.operands = some a → s'.operands = some a' → s.slots[c]? = some sl → s'.slots[c]? = some sl →
    sl.phase.open = true → 0 < s32 a.a1 → s32 a.a1 ≤ s32 a.a3 → s32 a.a1 ≤ s32 a'.a3 →
    a'.a0 = a.a0 → a'.a1 = a.a1 → a.a2 = a.a0 →
    Accessible s (u32 a.a0) (byteCount a.a1) → Accessible s' (u32 a.a0) (byteCount a.a1) →
    Accessible s' (u32 a'.a2) (byteCount a.a1) →
    u32 a.a0 + byteCount a.a1 ≤ u32 a'.a2 ∨ u32 a'.a2 + byteCount a.a1 ≤ u32 a.a0 →
    (∀ k, k < byteCount a.a1 → byteAt s' (u32 a.a0 + k) = byteAt s (u32 a.a0 + k)) →
    ∃ t t', exec i s = .next t ∧ exec i s' = .next t' ∧ (Ended s t 0 0 ↔ Ended s' t' 0 0) ∧
      (Ended s t 0 0 → bytesAt t (u32 a.a2) (byteCount a.a1) = bytesAt t' (u32 a'.a2) (byteCount a.a1) ∧
        t.slots[c]? = t'.slots[c]?)

/-! ### AEAD_AUTH_TAG (R142 to R145) -/

/-- Outside the admitted phases AEAD_AUTH_TAG is E_SEQ and changes nothing. In them a tag length the mode does not allow
is E_ARG: nothing changes, but where the implementation zero-fills early (R143) and the length is positive, the range is
zero afterwards and no slot changes; that it is so where another port's held command has the same bytes is the model's
choice (assumption 25). -/
def Obligations.AuthTagRejectsInOrder : Prop :=
  ∀ (s : State) (c : Nat) (a : Args) (sl : Slot), s.operands = some a → s.slots[c]? = some sl →
    (sl.phase.open = false → ∃ t, exec (.aeadAuthTag c) s = .next t ∧ OnlyRefusedWith s t 6) ∧
    (sl.phase.open = true → s32 a.a1 < 1 → ∃ t, exec (.aeadAuthTag c) s = .next t ∧ OnlyRefusedWith s t 1) ∧
    (sl.phase.open = true → 1 ≤ s32 a.a1 →
      (sl.mode = .stream ∧ 16 < s32 a.a1) ∨ (sl.mode = .counter ∧ a.a1 ≠ sl.taglen) →
      (Config.hw.tagZeroBeforeValidate = true → Accessible s (u32 a.a0) (byteCount a.a1)) →
      ∃ t, exec (.aeadAuthTag c) s = .next t ∧
        if Config.hw.tagZeroBeforeValidate then
          Ended s t 1 0 ∧ t.slots = s.slots ∧ RngKept s t ∧
            bytesAt t (u32 a.a0) (byteCount a.a1) = zeros (byteCount a.a1) ∧
            MemoryKeptOutside s t (u32 a.a0) (byteCount a.a1)
        else OnlyRefusedWith s t 1)

/-- In an admitted phase, with a tag length the mode allows and an output range that can be written, AEAD_AUTH_TAG
completes: the range holds the tag, or, if `get_tag` fails, zeros, and the slot is `Failed`; no other byte changes
(R142, R144, R145). That it runs where another port's held command has the same bytes is the model's choice (assumption
25). -/
def Obligations.AuthTagDelivers : Prop :=
  ∀ (s : State) (c : Nat) (a : Args) (sl : Slot), s.operands = some a → s.slots[c]? = some sl →
    sl.phase.open = true → 1 ≤ s32 a.a1 → (sl.mode = .stream → s32 a.a1 ≤ 16) →
    (sl.mode = .counter → a.a1 = sl.taglen) → Accessible s (u32 a.a0) (byteCount a.a1) →
    ∃ t sl', exec (.aeadAuthTag c) s = .next t ∧ t.slots[c]? = some sl' ∧
      MemoryKeptOutside s t (u32 a.a0) (byteCount a.a1) ∧
      match getTagBytes (backendOf Config.hw sl.mode) (byteCount a.a1) sl.bstate.content with
      | none =>
        Ended s t 5 9 ∧ FailedFrom sl sl' sl.aadf ∧
          bytesAt t (u32 a.a0) (byteCount a.a1) = zeros (byteCount a.a1)
      | some (tag, bs) =>
        Ended s t 0 0 ∧ bytesAt t (u32 a.a0) (byteCount a.a1) = tag ∧ sl'.phase = .tagExtracted ∧
          sl'.mode = sl.mode ∧ sl'.taglen = sl.taglen ∧ sl'.aadf = sl.aadf ∧ sl'.bstate.content = bs

/-! ### AEAD_DESTROY and the whole AEAD unit (R123, R146, R148, R62) -/

/-- AEAD_DESTROY completes in every phase, and the slot is then at its reset values, with no backing store left
(R146). -/
def Obligations.DestroyEmptiesSlot : Prop :=
  ∀ (s : State) (c : Nat) (a : Args) (sl : Slot), s.operands = some a → s.slots[c]? = some sl →
    ∃ t, exec (.aeadDestroy c) s = .next t ∧ Ended s t 0 0 ∧ t.slots[c]? = some .empty ∧ MemoryKept s t ∧ RngKept s t

/-- R148: where the table gives an error, the command ends with it and changes nothing; where it gives a phase, a command
that ends with success leaves the slot in it, one that a backend member fails leaves it `Failed` (`Unconstructed` for
AEAD_CONSTRUCT), and one that ends otherwise leaves every slot unchanged. -/
def Obligations.PhaseTable : Prop :=
  ∀ (s : State) (c : Nat) (a : Args) (sl : Slot) (i : Instr) (e : Except Err Phase), s.operands = some a →
    s.slots[c]? = some sl → i.slot? = some c → phaseTable sl.phase sl.mode i = some e →
    match e with
    | .error err => ∃ t, exec i s = .next t ∧ OnlyRefusedWith s t err.code
    | .ok q => ∀ t, exec i s = .next t →
      ∃ code info sl', Ended s t code info ∧ t.slots[c]? = some sl' ∧
        (code = 0 ∧ sl'.phase = q ∨
         (code = 4 ∨ code = 5) ∧ sl'.phase = (if q = .constructed then .unconstructed else .failed) ∨
         (code = 1 ∨ code = 2) ∧ t.slots = s.slots)

/-- The frame of every AEAD command: other ports, the port's `ARG` and `RET` registers, other slots, the RNG unit (R123)
and the host's side are unchanged; a staging buffer is unchanged or empty. -/
def Obligations.AeadFrame : Prop :=
  ∀ (s t : State) (c : Nat) (i : Instr), i.slot? = some c → exec i s = .next t →
    OtherPortsKept s t ∧ ArgsKept s t ∧ Ret0Kept s t ∧ Ret1Kept s t ∧ StagesKeptOrEmpty s t ∧
      OtherSlotsKept s t c ∧ RngKept s t ∧ HostSideKept s t

/-- R123, R27: an AEAD command does not depend on the RNG unit: with any other generator, mutex owner and entropy ports
it ends, stops and changes everything else alike, and it leaves those alone. -/
def Obligations.AeadIgnoresRngUnit : Prop :=
  ∀ (s : State) (c : Nat) (i : Instr) (created : Bool) (gen : SecBuf) (owner : Option Nat) (env : EnvPorts),
    i.slot? = some c →
    let other (u : State) : State := { u with created := created, gen := gen, lockOwner := owner, env := env }
    (∀ t, exec i s = .next t → exec i (other s) = .next (other t)) ∧
    (∀ f, exec i s = .fault f → exec i (other s) = .fault f) ∧
    (∀ r, exec i s = .refused r → exec i (other s) = .refused r)

/-- The memory frame (R62, R65): a transform stores nowhere but in the `len` bytes at `ARG[2]`, AEAD_AUTH_TAG nowhere but
in the `tag_len` bytes at `ARG[0]`, RNG_RAND_BYTES nowhere but in the `len` bytes at `ARG[0]`; every other command stores
nothing. -/
def Obligations.CommandMemoryFrame : Prop :=
  ∀ (s t : State) (i : Instr) (a : Args), s.operands = some a → exec i s = .next t →
    (∀ c, i = .aeadEncrypt c ∨ i = .aeadDecrypt c → MemoryKeptOutside s t (u32 a.a2) (byteCount a.a1)) ∧
    (∀ c, i = .aeadAuthTag c → MemoryKeptOutside s t (u32 a.a0) (byteCount a.a1)) ∧
    (i = .rngRandBytes → MemoryKeptOutside s t (u32 a.a0) (byteCount a.a1)) ∧
    ((∀ c, i ≠ .aeadEncrypt c ∧ i ≠ .aeadDecrypt c ∧ i ≠ .aeadAuthTag c) → i ≠ .rngRandBytes → MemoryKept s t)

/-- Only AEAD_CONSTRUCT and AEAD_DESTROY of a slot write its mode and its tag length (R29, R31). -/
def Obligations.ModeAndTagLengthWriters : Prop :=
  ∀ (s t : State) (c : Nat) (i : Instr) (sl : Slot), exec i s = .next t → s.slots[c]? = some sl →
    (∀ m, i ≠ .aeadConstruct c m) → i ≠ .aeadDestroy c →
    ∃ sl', t.slots[c]? = some sl' ∧ sl'.mode = sl.mode ∧ sl'.taglen = sl.taglen

/-! ### The RNG unit (R160 to R189) -/

/-- Every framed RNG command whose arguments pass is held while the mutex has an owner, the issuing requester itself
included: no state changes (R163, R177). -/
def Obligations.HeldWhileMutexTaken : Prop :=
  ∀ (s : State) (i : Instr) (a : Args) (r : Nat), s.operands = some a → takesMutex s a i → s.lockOwner = some r →
    exec i s = .next s

/-- RNG_SEED and RNG_RAND_BYTES with a length that is not positive are E_ARG: no hold, no creation, no effect, whoever
owns the mutex (R164 (2), R166 and R170 line 1). -/
def Obligations.RngArgumentErrorsComeFirst : Prop :=
  ∀ (s : State) (i : Instr) (a : Args), i = .rngSeed ∨ i = .rngRandBytes → s.operands = some a → s32 a.a1 ≤ 0 →
    ∃ t, exec i s = .next t ∧ OnlyRefusedWith s t 1

/-- RNG_SEED, the mutex free, with a positive length and a range that can be read, completes: the engine is made to
exist, then `GEN` is the old state with the seed bytes mixed in, or unspecified of the same length if `Gen.seed` fails
(R165, R166, R189). That the draw of a creation ends rests on assumption 6: `KDEV` retries finitely often (R204). That it
runs where another port's held command writes the same bytes is the model's choice (assumption 25). -/
def Obligations.SeedMixesBytes : Prop :=
  ∀ (s : State) (a : Args), s.operands = some a → 0 < s32 a.a1 → s.lockOwner = none →
    Accessible s (u32 a.a0) (byteCount a.a1) →
    ∃ t, exec .rngSeed s = .next t ∧
      match creationOf Config.hw s with
      | .error (info, env) => CreationFailed s t info env
      | .ok (g, env) => RanOnEngine t env ∧
        match Config.hw.gen.seed (bytesAt s (u32 a.a0) (byteCount a.a1)) g with
        | none => Ended s t 5 17 ∧ t.gen.len = s.genLength g
        | some g' => Ended s t 0 0 ∧ t.gen.content = g'

/-- RNG_RANDOM_SEED, the mutex free, completes: one draw of the chain, after the creation's own if there was one, is
mixed in by `Gen.seed`; if that fails, `GEN` keeps its length (R168, R189). That a draw ends rests on assumption 6: `KDEV`
retries finitely often (R204). -/
def Obligations.RandomSeedDraws : Prop :=
  ∀ (s : State) (a : Args), s.operands = some a → s.lockOwner = none →
    ∃ t, exec .rngRandomSeed s = .next t ∧
      match creationOf Config.hw s with
      | .error (info, env) => CreationFailed s t info env
      | .ok (g, env) => RanOnEngine t (chainDraw Config.hw env).2 ∧
        match Config.hw.gen.seed (chainDraw Config.hw env).1 g with
        | none => Ended s t 5 17 ∧ t.gen.len = s.genLength g
        | some g' => Ended s t 0 0 ∧ t.gen.content = g'

/-- RNG_RAND_BYTES, the mutex free, with a positive length and a range that can be written, completes: the range holds
the generated words, least significant byte first, and the tail of one extra word; no byte outside it changes; if
`Gen.words` fails, `GEN` keeps the length it has at that call (R170, R171, R189). That the draw of a creation ends rests on
assumption 6: `KDEV` retries finitely often (R204). That it runs where another port's held command has the same bytes is
the model's choice (assumption 25). -/
def Obligations.RandBytesFills : Prop :=
  ∀ (s : State) (a : Args), s.operands = some a → 0 < s32 a.a1 → s.lockOwner = none →
    Accessible s (u32 a.a0) (byteCount a.a1) →
    ∃ t, exec .rngRandBytes s = .next t ∧ MemoryKeptOutside s t (u32 a.a0) (byteCount a.a1) ∧
      match creationOf Config.hw s with
      | .error (info, env) => CreationFailed s t info env ∧ MemoryKept s t
      | .ok (g, env) => RanOnEngine t env ∧
        match randomFill Config.hw.gen (byteCount a.a1) g with
        | none => Ended s t 5 19 ∧ t.gen.len = s.failedFillLength Config.hw.gen (byteCount a.a1) g
        | some (out, g') =>
          Ended s t 0 0 ∧ bytesAt t (u32 a.a0) (byteCount a.a1) = out ∧ t.gen.content = g'

/-- RNG_RAND_U32, the mutex free, completes: one generated word in `RET[0]`; a failure leaves `RET[0]` unchanged and `GEN`
of the same length (R173, R26, R189). That the draw of a creation ends rests on assumption 6: `KDEV` retries finitely often
(R204). -/
def Obligations.RandU32ReturnsAWord : Prop :=
  ∀ (s : State) (a : Args), s.operands = some a → s.lockOwner = none →
    ∃ t, exec .rngRandU32 s = .next t ∧ Ret1Kept s t ∧
      match creationOf Config.hw s with
      | .error (info, env) => CreationFailed s t info env ∧ Ret0Kept s t
      | .ok (g, env) => RanOnEngine t env ∧
        match genWords Config.hw.gen 1 g with
        | none => Ended s t 5 19 ∧ Ret0Kept s t ∧ t.gen.len = s.genLength g
        | some (ws, g') =>
          Ended s t 0 0 ∧ (t.ports[s.cur]?).map Port.ret0 = ws[0]? ∧ t.gen.content = g'

/-- RNG_RAND_U64, the mutex free, completes: two words of one `words` call, the first in `RET[0]`, the low half; a
failure leaves both unchanged and `GEN` of the same length (R175, R26, R189). That the draw of a creation ends rests on
assumption 6: `KDEV` retries finitely often (R204). -/
def Obligations.RandU64ReturnsTwoWords : Prop :=
  ∀ (s : State) (a : Args), s.operands = some a → s.lockOwner = none →
    ∃ t, exec .rngRandU64 s = .next t ∧
      match creationOf Config.hw s with
      | .error (info, env) => CreationFailed s t info env ∧ Ret0Kept s t ∧ Ret1Kept s t
      | .ok (g, env) => RanOnEngine t env ∧
        match genWords Config.hw.gen 2 g with
        | none => Ended s t 5 19 ∧ Ret0Kept s t ∧ Ret1Kept s t ∧ t.gen.len = s.genLength g
        | some (ws, g') =>
          Ended s t 0 0 ∧ (t.ports[s.cur]?).map Port.ret0 = ws[0]? ∧ (t.ports[s.cur]?).map Port.ret1 = ws[1]? ∧
            t.gen.content = g'

/-- RNG_LOCK, the mutex free, completes: the engine is made to exist, nothing is generated, and the requester keeps the
mutex (R176). That the draw of a creation ends rests on assumption 6: `KDEV` retries finitely often (R204). -/
def Obligations.LockKeepsMutex : Prop :=
  ∀ (s : State) (a : Args), s.operands = some a → s.lockOwner = none →
    ∃ t, exec .rngLock s = .next t ∧
      match creationOf Config.hw s with
      | .error (info, env) => CreationFailed s t info env
      | .ok (g, env) => Ended s t 0 0 ∧ t.lockOwner = some s.cur ∧ t.created = true ∧ t.gen.content = g ∧ t.env = env

/-- RNG_UNLOCK (R178): the owner frees the mutex; anyone else gets E_SEQ and nothing changes. It never holds and never
creates. -/
def Obligations.UnlockFreesMutex : Prop :=
  ∀ (s : State) (a : Args), s.operands = some a →
    (s.lockOwner = some s.cur →
      ∃ t, exec .rngUnlock s = .next t ∧ Ended s t 0 0 ∧ t.lockOwner = none ∧ t.created = s.created ∧
        t.gen = s.gen ∧ t.env = s.env) ∧
    (s.lockOwner ≠ some s.cur → ∃ t, exec .rngUnlock s = .next t ∧ OnlyRefusedWith s t 6)

/-- RNG_CTX (R180): on an engine that exists it returns the handle, whoever owns the mutex, and changes nothing but
`RET[0]` and what the end of a command writes; else it is held while the mutex is owned, and, the mutex free, creates the
engine first. The handle is 0 where the generator is contextless and a non-zero value otherwise. That the draw of a
creation ends rests on assumption 6: `KDEV` retries finitely often (R204). -/
def Obligations.CtxReturnsHandle : Prop :=
  ∀ (s : State) (a : Args), s.operands = some a →
    let handle := if Config.hw.genContextless then (0 : Word) else Config.hw.genHandle
    Config.hw.genHandle ≠ 0 ∧
    (s.created = true →
      ∃ t, exec .rngCtx s = .next t ∧ Ended s t 0 0 ∧ (t.ports[s.cur]?).map Port.ret0 = some handle ∧
        Ret1Kept s t ∧ RngKept s t ∧ OtherPortsKept s t ∧ ArgsKept s t ∧ StagesKept s t ∧ t.slots = s.slots ∧
        MemoryKept s t ∧ HostSideKept s t ∧ t.draws = s.draws) ∧
    (s.created = false → ∀ r, s.lockOwner = some r → exec .rngCtx s = .next s) ∧
    (s.created = false → s.lockOwner = none →
      ∃ t, exec .rngCtx s = .next t ∧ Ret1Kept s t ∧
        match creationOf Config.hw s with
        | .error (info, env) => CreationFailed s t info env ∧ Ret0Kept s t
        | .ok (g, env) => RanOnEngine t env ∧ Ended s t 0 0 ∧ t.gen.content = g ∧
          (t.ports[s.cur]?).map Port.ret0 = some handle)

/-- RNG_SHUTDOWN (R184): while the mutex is owned it is held; the mutex free, it completes without creating, and the
engine is gone, its storage too, and the mutex is free. On an engine that does not exist `GEN` is as it was, which R42 (f)
says is empty. -/
def Obligations.ShutdownDestroysEngine : Prop :=
  ∀ (s : State) (a : Args), s.operands = some a →
    (∀ r, s.lockOwner = some r → exec .rngShutdown s = .next s) ∧
    (s.lockOwner = none →
      ∃ t, exec .rngShutdown s = .next t ∧ Ended s t 0 0 ∧ t.created = false ∧ t.lockOwner = none ∧ t.env = s.env ∧
        t.gen = if s.created then .new else s.gen)

/-- The frame of every RNG command: other ports, the port's `ARG` registers, every slot and the host's side are
unchanged; a staging buffer is unchanged or empty; only RNG_SHUTDOWN makes old handles stale (R181, R183). -/
def Obligations.RngFrame : Prop :=
  ∀ (s t : State) (i : Instr), i.slot? = none → exec i s = .next t →
    OtherPortsKept s t ∧ ArgsKept s t ∧ StagesKeptOrEmpty s t ∧ t.slots = s.slots ∧ HostSideKept s t ∧
      (i ≠ .rngShutdown → t.engineEpoch = s.engineEpoch)

/-- `RET[0]` is changed only by a successful RNG_RAND_U32, RNG_RAND_U64 or RNG_CTX, `RET[1]` only by a successful
RNG_RAND_U64 (R26). -/
def Obligations.RetWriters : Prop :=
  ∀ (s t : State) (i : Instr), exec i s = .next t →
    (Ret0Kept s t ∨ (i = .rngRandU32 ∨ i = .rngRandU64 ∨ i = .rngCtx) ∧ Ended s t 0 0) ∧
    (Ret1Kept s t ∨ i = .rngRandU64 ∧ Ended s t 0 0)

/-- Over one step the mutex passes from free to an owner only by that requester's RNG_LOCK, and from an owner only by its
own RNG_UNLOCK or a hardware reset (R34, R178, R179). -/
def Obligations.MutexChangesHands : Prop :=
  ∀ s t : State, step s = .next t →
    (∀ r, s.lockOwner = none → t.lockOwner = some r →
      ∃ l, s.pendingAt r = some l ∧ decode s.slots.length l.word = .ok .rngLock ∧ t.pendingAt r = none) ∧
    (∀ r, s.lockOwner = some r → t.lockOwner ≠ some r → t.lockOwner = none ∧
      ((∃ rest, s.agenda = .hardReset :: rest) ∨
        ∃ l, s.pendingAt r = some l ∧ decode s.slots.length l.word = .ok .rngUnlock ∧ t.pendingAt r = none))

/-- While a requester owns the mutex, no step but a hardware reset or its own use of the handle changes the generator's
state or whether it exists: no other requester's command comes between (R74, R176). -/
def Obligations.LockedGeneratorIsTheOwners : Prop :=
  ∀ (s t : State) (r : Nat), s.lockOwner = some r → step s = .next t →
    (t.gen = s.gen ∧ t.created = s.created) ∨ (∃ rest, s.agenda = .hardReset :: rest) ∨
      ∃ n epoch rest, s.agenda = .handleUse r n epoch :: rest

/-! ### The Entropy Source Chain (R200 to R214) -/

/-- R202, R203, R206, R208: in one draw `TRNG` is asked once, `HPRNG` once if `TRNG` failed and never otherwise, `KDEV`
at least once if both failed and never otherwise, and the clock once; the draw is 64 bytes whatever they answer; byte `j`
is the byte of the first source that answers, XORed with byte `j` of the clock sample while `j < CLK_MIX_BYTES`; the
sample is the one the ports remember afterwards. -/
def Obligations.ChainDraw : Prop :=
  ∀ (cfg : Config) (e : EnvPorts),
    let e' := (chainDraw cfg e).2
    e'.trngReqs = e.trngReqs + 1 ∧
    e'.hprngReqs = e.hprngReqs + (if cfg.trng e.trngReqs = none then 1 else 0) ∧
    (cfg.trng e.trngReqs = none ∧ cfg.hprng e.hprngReqs = none → e.kdevReqs < e'.kdevReqs) ∧
    (¬ (cfg.trng e.trngReqs = none ∧ cfg.hprng e.hprngReqs = none) → e'.kdevReqs = e.kdevReqs) ∧
    e'.clockReqs = e.clockReqs + 1 ∧
    (chainDraw cfg e).1.length = 64 ∧
    ∀ j, j < 64 →
      (chainDraw cfg e).1[j]? =
        (firstAnswer cfg e)[j]?.map fun b =>
          if j < cfg.clkMixBytes then b ^^^ e'.lastClock.extractLsb' (8 * j) 8 else b

/-- R210: over every step of the machine, hardware reset included, the last clock sample does not go back. -/
def Obligations.ClockNeverGoesBack : Prop :=
  ∀ s t : State, step s = .next t → s.env.lastClock.toNat ≤ t.env.lastClock.toNat

/-! ### The Secure Buffer (R220 to R232) -/

/-- R230: every operation keeps every byte past the logical length zero; `resize` and `clear` set the length, `resize`
keeps the common part and fills what it adds, `append` adds its byte, `get` and `set` answer inside the content and
nowhere else (R225), `destroy` leaves no store. -/
def Obligations.SecureBufferKeepsZeroTail : Prop :=
  ∀ (cfg : Config) (b : SecBuf), b.wf = true →
    SecBuf.new.wf = true ∧
    (∀ x, (b.append cfg x).wf = true ∧ (b.append cfg x).content = b.content ++ [x]) ∧
    (∀ i, b.get i = b.content[i]?) ∧
    (∀ i x, i < b.len → ∃ b', b.set i x = some b' ∧ b'.wf = true ∧ b'.content = b.content.set i x) ∧
    (∀ i x, b.len ≤ i → b.set i x = none) ∧
    (∀ m fill, (b.resizeFill cfg m fill).wf = true ∧
      (b.resizeFill cfg m fill).content = b.content.take m ++ List.replicate (m - b.len) fill) ∧
    ((b.clear cfg).wf = true ∧ (b.clear cfg).len = 0) ∧
    (∀ v, (b.assign cfg v).wf = true ∧ (b.assign cfg v).content = v) ∧
    (∀ k, (b.scramble cfg k).wf = true ∧ (b.scramble cfg k).len = b.len) ∧
    b.destroy.dbgRaw = []

/-! ### The other agents' moves (R21, R22, R72, R182, R183, R280, R281) -/

/-- What a requester reads from each register of its own port; `CMD` and every offset that is no register read 0
(R21). Alignment is that of the offset in the window, which is the model's choice where `PORT_BASE` is no multiple of 4
(assumption 17). -/
def Obligations.RegisterReads : Prop :=
  ∀ (s : State) (r off : Nat) (rest : List Move) (p : Port), s.slotClash = false →
    s.agenda = .regRead r (portAddr Config.hw r off) 4 :: rest → s.ports[r]? = some p → off < 0x40 → off % 4 = 0 →
    ∃ v, step s = .next { s with agenda := rest, delivered := .word v } ∧
      (off = 0x04 → v = p.status) ∧ (off = 0x08 → v = p.errinfo) ∧
      (off = 0x10 → v = p.args.a0) ∧ (off = 0x14 → v = p.args.a1) ∧
      (off = 0x18 → v = p.args.a2) ∧ (off = 0x1C → v = p.args.a3) ∧
      (off = 0x20 → v = p.ret0) ∧ (off = 0x24 → v = p.ret1) ∧
      (off = 0x00 ∨ off = 0x0C ∨ 0x28 ≤ off → v = 0)

/-- A requester's write to its own port: while BUSY nothing changes; else a write to `CMD` latches the word and the
operands and sets BUSY, a write to an `ARG` register sets it, and a write anywhere else changes nothing (R21, R22). That
writes to `STATUS`, `ERRINFO` and `RET`, which R21 calls read only, are ignored, and that alignment is that of the offset,
is assumption 17. -/
def Obligations.RegisterWrites : Prop :=
  ∀ (s : State) (r off : Nat) (v : Word) (rest : List Move) (p : Port), s.slotClash = false →
    s.agenda = .regWrite r (portAddr Config.hw r off) 4 v :: rest → s.ports[r]? = some p → off < 0x40 → off % 4 = 0 →
    ∃ q, step s = .next { s with agenda := rest, ports := s.ports.set r q } ∧
      (p.status.getLsbD 31 = true → q = p) ∧
      (p.status.getLsbD 31 = false →
        (off = 0x00 → q = { p with pending := some ⟨v, p.args⟩, status := 0x80000000 }) ∧
        (off = 0x10 → q = { p with args := { p.args with a0 := v } }) ∧
        (off = 0x14 → q = { p with args := { p.args with a1 := v } }) ∧
        (off = 0x18 → q = { p with args := { p.args with a2 := v } }) ∧
        (off = 0x1C → q = { p with args := { p.args with a3 := v } }) ∧
        (off = 0x04 ∨ off = 0x08 ∨ off = 0x0C ∨ 0x20 ≤ off → q = p))

/-- Accesses the spec gives no meaning have no next state: a register access that is narrower than a word or misaligned
or to another requester's port (R21); an attempt to seed or augment through the handle (R183); a requester's write that
meets a byte some pending command reads or writes, and a read that meets a byte one writes (R72 (a)); and an access that
passes the top of the address space or meets a device region. Every other access of a requester to data memory has its
effect: a write leaves its bytes there and nothing else changes, a read hands out the bytes and changes nothing. When a
pending command's ranges count, that a requester needs no provided memory, and that a device region stops it, is assumption
14; alignment by the offset is assumption 17. -/
def Obligations.ForbiddenAccessesHaveNoNextState : Prop :=
  ∀ (s : State) (rest : List Move), s.slotClash = false →
    (∀ r v, s.agenda = .handleSeed r v :: rest → ∀ t, step s ≠ .next t) ∧
    (∀ r p off size, s.agenda = .regRead r (portAddr Config.hw p off) size :: rest → off < 0x40 →
      size ≠ 4 ∨ off % 4 ≠ 0 ∨ p ≠ r → ∀ t, step s ≠ .next t) ∧
    (∀ r p off size v, s.agenda = .regWrite r (portAddr Config.hw p off) size v :: rest → off < 0x40 →
      size ≠ 4 ∨ off % 4 ≠ 0 ∨ p ≠ r → ∀ t, step s ≠ .next t) ∧
    (∀ r base v, s.agenda = .memWrite r base v :: rest →
      let forbidden (x : Nat) := 2 ^ 32 ≤ x ∨ inRegion s.regions .device x = true ∨
        s.PendingTouches Config.hw readsByte x ∨ s.PendingTouches Config.hw writesByte x
      ((∃ x, base ≤ x ∧ x < base + v.length ∧ forbidden x) → ∀ t, step s ≠ .next t) ∧
      (base + v.length ≤ 2 ^ 32 → (∀ x, base ≤ x → x < base + v.length → ¬ forbidden x) →
        ∃ t, step s = .next t ∧ bytesAt t base v.length = v ∧ MemoryKeptOutside s t base v.length ∧
          t = { s with agenda := rest, mem := t.mem })) ∧
    (∀ r base n, s.agenda = .memRead r base n :: rest →
      let forbidden (x : Nat) := 2 ^ 32 ≤ x ∨ inRegion s.regions .device x = true ∨
        s.PendingTouches Config.hw writesByte x
      ((∃ x, base ≤ x ∧ x < base + n ∧ forbidden x) → ∀ t, step s ≠ .next t) ∧
      (base + n ≤ 2 ^ 32 → (∀ x, base ≤ x → x < base + n → ¬ forbidden x) →
        step s = .next { s with agenda := rest, delivered := .bytes (bytesAt s base n) }))

/-- `EnvGenUse(r, n)` (R182): the mutex owner's use of the handle of the present engine hands out `n` words and changes
`GEN` alone, or leaves it unspecified where `Gen.words` fails; on a contextless generator there is no such use (R181),
and any other use has no next state (R183). That a stale handle is known by a count of the engine's destructions is
assumption 16. -/
def Obligations.HandleUseIsTheOwners : Prop :=
  ∀ (s : State) (r n epoch : Nat) (rest : List Move), s.slotClash = false → s.agenda = .handleUse r n epoch :: rest →
    (s.lockOwner = some r → s.created = true → 1 ≤ n → epoch = s.engineEpoch →
      if Config.hw.genContextless then step s = .refused .handleMisuse
      else
        ∃ t, step s = .next t ∧ t.ports = s.ports ∧ t.slots = s.slots ∧ t.mem = s.mem ∧ t.lockOwner = some r ∧
          t.created = true ∧ t.env = s.env ∧
          match genWords Config.hw.gen n s.gen.content with
          | none => t.gen.len = s.gen.len ∧ t.delivered = .nothing
          | some (ws, g) => t.gen.content = g ∧ t.delivered = .words ws) ∧
    (s.lockOwner ≠ some r ∨ s.created = false ∨ n = 0 ∨ epoch ≠ s.engineEpoch → step s = .refused .handleMisuse)

/-- A hardware reset puts every port, every slot and the RNG unit at their reset values, abandons every pending command,
and leaves data memory alone outside the output ranges of the abandoned commands; the clock is not reset (R43, R280,
R281). That an output range is R62's by the operands alone, whatever the command's checks would have said, is assumption
15. -/
def Obligations.HardwareResetClearsTheBlock : Prop :=
  ∀ (s : State) (rest : List Move), s.slotClash = false → s.agenda = .hardReset :: rest →
    ∃ t, step s = .next t ∧ t.ports.length = s.ports.length ∧ t.slots.length = s.slots.length ∧
      (∀ p ∈ t.ports, p = .idle) ∧ (∀ sl ∈ t.slots, sl = .empty) ∧ t.created = false ∧ t.gen = .new ∧
      t.lockOwner = none ∧ t.env = s.env ∧ t.agenda = rest ∧
      ∀ x, (∀ p l i, s.pendingAt p = some l → decode s.slots.length l.word = .ok i → ¬ writesByte l.args x i) →
        byteAt t x = byteAt s x

/-! ### Errors (R24, R248) -/

/-- R248: a command that ends with E_ARG, E_SIZE, E_UNSUPPORTED, E_SEQ or E_ILLEGAL changes nothing but its port's
`STATUS` and `ERRINFO`; the one exception is an AEAD_AUTH_TAG of an implementation with the early zero-fill. -/
def Obligations.PreciseErrors : Prop :=
  ∀ (s t : State) (i : Instr) (code : BitVec 8) (info : Word), exec i s = .next t → Ended s t code info →
    code = 1 ∨ code = 2 ∨ code = 3 ∨ code = 6 ∨ code = 7 →
    OnlyRefusedWith s t code ∨ Config.hw.tagZeroBeforeValidate = true ∧ code = 1 ∧ ∃ c, i = .aeadAuthTag c

/-- R24, R243: a command's end is success, or one of the codes 1, 2, 3, 6, 7 with `ERRINFO` 0, or E_INIT with 1 to 5, or
E_BACKEND with 6 to 9 or 16 to 19; and a command either ends or, an RNG command alone, is held. -/
def Obligations.EveryEndHasItsDetail : Prop :=
  ∀ (s t : State) (i : Instr), exec i s = .next t →
    (i.slot? = none ∧ t = s ∧ s.lockOwner ≠ none) ∨
    ∃ code info, Ended s t code info ∧
      ((code.toNat ∈ [0, 1, 2, 3, 6, 7] ∧ info = 0) ∨ (code = 4 ∧ info.toNat ∈ [1, 2, 3, 4, 5]) ∨
        (code = 5 ∧ info.toNat ∈ [6, 7, 8, 9, 16, 17, 18, 19]))
end

