-- ==== Sys2Proof/Laws/Memory.lean ====
section
/-! SUPPORT. Data memory: a read after a write, what a write leaves alone, and the canonical form, which every memory
operation keeps. -/

namespace Sys2Proof.Machine

theorem lookup_insert_same (m : Memory) (a : Nat) (b : Byte) : Memory.lookup (Memory.insert m a b) a = some b := by
  induction m with
  | nil => simp [Memory.insert, Memory.lookup]
  | cons c m ih =>
    obtain ⟨x, y⟩ := c
    simp only [Memory.insert]
    split
    · simp [Memory.lookup]
    · split
      · simp [Memory.lookup]
      · rename_i _ h
        simp [Memory.lookup, h, ih]

theorem lookup_insert_other (m : Memory) {a x : Nat} (b : Byte) (h : x ≠ a) :
    Memory.lookup (Memory.insert m a b) x = Memory.lookup m x := by
  induction m with
  | nil => simp [Memory.insert, Memory.lookup, h]
  | cons c m ih =>
    obtain ⟨k, y⟩ := c
    simp only [Memory.insert]
    split
    · simp [Memory.lookup, h]
    · split
      · rename_i _ e
        subst e
        simp [Memory.lookup, h]
      · simp [Memory.lookup, ih]

theorem erase_cons (x : Nat) (y : Byte) (m : Memory) (a : Nat) :
    Memory.erase ((x, y) :: m) a = if x = a then Memory.erase m a else (x, y) :: Memory.erase m a := by
  by_cases h : x = a <;> simp [Memory.erase, h]

theorem lookup_erase_same (m : Memory) (a : Nat) : Memory.lookup (Memory.erase m a) a = none := by
  induction m with
  | nil => rfl
  | cons c m ih =>
    rw [erase_cons]
    split
    · exact ih
    · rename_i h
      rw [Memory.lookup, if_neg (fun e => h e.symm), ih]

theorem lookup_erase_other (m : Memory) {a x : Nat} (h : x ≠ a) :
    Memory.lookup (Memory.erase m a) x = Memory.lookup m x := by
  induction m with
  | nil => rfl
  | cons c m ih =>
    obtain ⟨k, y⟩ := c
    rw [erase_cons, Memory.lookup]
    split
    · rename_i e
      rw [ih, if_neg (e ▸ h)]
    · rw [Memory.lookup, ih]

/-- A read after a write to the same address gives the byte written. -/
@[simp] theorem read_write_same (cfg : Config) (m : Memory) (a : Nat) (b : Byte) :
    Memory.read cfg (Memory.write cfg m a b) a = b := by
  simp only [Memory.read, Memory.write]
  split
  · rename_i h
    simp [lookup_erase_same, h]
  · simp [lookup_insert_same]

/-- A write leaves every other address alone. -/
theorem read_write_other (cfg : Config) (m : Memory) {a x : Nat} (b : Byte) (h : x ≠ a) :
    Memory.read cfg (Memory.write cfg m a b) x = Memory.read cfg m x := by
  simp only [Memory.read, Memory.write]
  split
  · simp [lookup_erase_other m h]
  · simp [lookup_insert_other m b h]

/-- A byte outside the written range reads as before. -/
theorem read_writeBytes_outside (cfg : Config) (m : Memory) (base : Nat) (v : Bytes) {x : Nat}
    (h : x < base ∨ base + v.length ≤ x) :
    Memory.read cfg (Memory.writeBytes cfg m base v) x = Memory.read cfg m x := by
  induction v generalizing m base with
  | nil => rfl
  | cons b v ih =>
    simp only [List.length_cons] at h
    rw [Memory.writeBytes, ih _ _ (by omega), read_write_other _ _ _ (by omega)]

/-- Byte `i` of the written range reads as byte `i` of what was written. -/
theorem read_writeBytes_inside (cfg : Config) (m : Memory) (base : Nat) (v : Bytes) {i : Nat} (h : i < v.length) :
    Memory.read cfg (Memory.writeBytes cfg m base v) (base + i) = v[i] := by
  induction v generalizing m base i with
  | nil => simp at h
  | cons b v ih =>
    cases i with
    | zero => simp [Memory.writeBytes, read_writeBytes_outside]
    | succ i =>
      have e : base + (i + 1) = base + 1 + i := by omega
      simp only [Memory.writeBytes, e, List.getElem_cons_succ]
      exact ih _ _ (by simpa using h)

@[simp] theorem readBytes_length (cfg : Config) (m : Memory) (base n : Nat) :
    (Memory.readBytes cfg m base n).length = n := by simp [Memory.readBytes]

/-- Reading the written range gives back what was written. -/
theorem readBytes_writeBytes_same (cfg : Config) (m : Memory) (base : Nat) (v : Bytes) :
    Memory.readBytes cfg (Memory.writeBytes cfg m base v) base v.length = v := by
  apply List.ext_getElem (by simp)
  intro i h1 h2
  simp [Memory.readBytes, read_writeBytes_inside cfg m base v h2]

/-! ### The canonical form -/

theorem wf_iff (cfg : Config) (m : Memory) : Memory.wf cfg m = true ↔
    (m.Pairwise fun c d => c.1 < d.1) ∧ ∀ c ∈ m, c.1 < 2 ^ 32 ∧ c.2 ≠ cfg.launchByte c.1 := by
  simp [Memory.wf, List.all_eq_true]

theorem wf_erase (cfg : Config) {m : Memory} (a : Nat) (h : Memory.wf cfg m = true) :
    Memory.wf cfg (Memory.erase m a) = true := by
  rw [wf_iff] at h ⊢
  refine ⟨h.1.filter _, fun c hc => h.2 c (List.mem_of_mem_filter hc)⟩

theorem mem_insert_cases (m : Memory) (a : Nat) (b : Byte) (c : Host.Cell) (h : c ∈ Memory.insert m a b) :
    c = (a, b) ∨ c ∈ m := by
  induction m with
  | nil => simpa [Memory.insert] using h
  | cons d m ih =>
    obtain ⟨x, y⟩ := d
    simp only [Memory.insert] at h
    split at h
    · simpa using h
    · split at h
      · rcases List.mem_cons.1 h with h | h
        · exact .inl h
        · exact .inr (List.mem_cons_of_mem _ h)
      · rcases List.mem_cons.1 h with h | h
        · exact .inr (by simp [h])
        · rcases ih h with h | h
          · exact .inl h
          · exact .inr (List.mem_cons_of_mem _ h)

theorem pairwise_insert (m : Memory) (a : Nat) (b : Byte) (h : m.Pairwise fun c d => c.1 < d.1) :
    (Memory.insert m a b).Pairwise fun c d => c.1 < d.1 := by
  induction m with
  | nil => simp [Memory.insert]
  | cons d m ih =>
    obtain ⟨x, y⟩ := d
    obtain ⟨hx, hm⟩ := List.pairwise_cons.1 h
    simp only [Memory.insert]
    split
    · rename_i lt
      refine List.pairwise_cons.2 ⟨fun c hc => ?_, h⟩
      rcases List.mem_cons.1 hc with rfl | hc
      · exact lt
      · exact Nat.lt_trans lt (hx c hc)
    · split
      · rename_i _ e
        subst e
        exact List.pairwise_cons.2 ⟨hx, hm⟩
      · rename_i h1 h2
        refine List.pairwise_cons.2 ⟨fun c hc => ?_, ih hm⟩
        rcases mem_insert_cases m a b c hc with rfl | hc
        · show x < a
          omega
        · exact hx c hc

/-- A write of a byte of the address space keeps the canonical form. -/
theorem wf_write (cfg : Config) {m : Memory} {a : Nat} (b : Byte) (ha : a < 2 ^ 32) (h : Memory.wf cfg m = true) :
    Memory.wf cfg (Memory.write cfg m a b) = true := by
  unfold Memory.write
  split
  · exact wf_erase cfg a h
  · rename_i hb
    rw [wf_iff] at h ⊢
    refine ⟨pairwise_insert m a b h.1, fun c hc => ?_⟩
    rcases mem_insert_cases m a b c hc with rfl | hc
    · exact ⟨ha, hb⟩
    · exact h.2 c hc

/-- A write of a range of the address space keeps the canonical form. -/
theorem wf_writeBytes (cfg : Config) {m : Memory} {base : Nat} (v : Bytes) (hr : base + v.length ≤ 2 ^ 32)
    (h : Memory.wf cfg m = true) : Memory.wf cfg (Memory.writeBytes cfg m base v) = true := by
  induction v generalizing m base with
  | nil => exact h
  | cons b v ih =>
    simp only [List.length_cons] at hr
    exact ih (by omega) (wf_write cfg b (by omega) h)

/-- A range that can be accessed lies in the address space (R66). -/
theorem rangeFault_none_bound {regions : List Region} {base n : Nat} (h : rangeFault regions base n = none) :
    base + n ≤ 2 ^ 32 := by
  unfold rangeFault at h
  split at h
  · cases h
  · omega

/-- A range that can be accessed is provided as ordinary memory, every byte of it (R67, R68). -/
theorem rangeFault_none_provided {regions : List Region} {base n : Nat} (h : rangeFault regions base n = none) {i : Nat}
    (hi : i < n) : inRegion regions .ram (base + i) = true ∧ inRegion regions .device (base + i) = false := by
  unfold rangeFault at h
  split at h
  · cases h
  · split at h
    · cases h
    · split at h
      · rename_i _ hd hr
        simp only [List.any_eq_true, List.mem_range, not_exists, not_and, Bool.not_eq_true] at hd
        simp only [List.all_eq_true, List.mem_range] at hr
        exact ⟨hr i hi, hd i hi⟩
      · cases h

end Sys2Proof.Machine
end

