-- ==== Sys2Proof/Laws/SecureBuffer.lean ====
section
/-! SUPPORT. The Secure Buffer: what its operations leave as content, and that each keeps the zero tail (R230). -/

namespace Sys2Proof.Machine.SecBuf

@[simp] theorem zeros_length (n : Nat) : (zeros n).length = n := by simp [zeros]

@[simp] theorem drawBytes_length (cfg : Config) (k n : Nat) : (drawBytes cfg k n).length = n := by simp [drawBytes]

theorem wf_iff (b : SecBuf) : b.wf = true ↔ b.len ≤ b.raw.length ∧ ∀ x ∈ b.raw.drop b.len, x = 0 := by
  simp [wf, List.all_eq_true]

@[simp] theorem wf_new : SecBuf.new.wf = true := by decide

@[simp] theorem destroy_eq_new (b : SecBuf) : b.destroy = .new := rfl

theorem content_length {b : SecBuf} (h : b.wf = true) : b.content.length = b.len := by
  rw [wf_iff] at h
  simp [content, h.1]

/-- What was assigned is the content (R231). -/
@[simp] theorem content_assign (cfg : Config) (b : SecBuf) (v : Bytes) : (assign cfg b v).content = v := by
  simp [assign, content]

@[simp] theorem len_assign (cfg : Config) (b : SecBuf) (v : Bytes) : (assign cfg b v).len = v.length := rfl

@[simp] theorem len_scramble (cfg : Config) (k : Nat) (b : SecBuf) : (scramble cfg k b).len = b.len := rfl

theorem mem_zeros {n : Nat} {x : Byte} (h : x ∈ zeros n) : x = 0 := List.eq_of_mem_replicate h

theorem makeRoom_wf (cfg : Config) {b : SecBuf} (m : Nat) (h : b.wf = true) :
    (makeRoom cfg b m).wf = true ∧ (makeRoom cfg b m).len = b.len ∧ (makeRoom cfg b m).content = b.content ∧
      (b.len ≤ m → m ≤ (makeRoom cfg b m).raw.length) := by
  unfold makeRoom
  split
  · rename_i hm
    exact ⟨h, rfl, rfl, fun _ => hm⟩
  · have hl := content_length h
    refine ⟨?_, rfl, ?_, fun hm => ?_⟩
    · rw [wf_iff]
      constructor
      · simp [hl]
      · intro x hx
        rw [List.drop_append_of_le_length (by simp [hl])] at hx
        rw [← hl, List.drop_length] at hx
        exact mem_zeros (by simpa using hx)
    · show (b.content ++ _).take b.len = b.content
      rw [← hl]
      simp
    · simp [hl]
      omega

theorem wf_resizeFill (cfg : Config) {b : SecBuf} (m : Nat) (fill : Byte) (h : b.wf = true) :
    (resizeFill cfg b m fill).wf = true := by
  have hw := (wf_iff b).1 h
  unfold resizeFill
  split
  · rename_i hm
    rw [wf_iff]
    refine ⟨by simp; omega, fun x hx => ?_⟩
    have hl : (b.raw.take m).length = m := by simp; omega
    rw [List.append_assoc, List.drop_append_of_le_length (by simp [hl])] at hx
    rcases List.mem_append.1 hx with hx | hx
    · rw [← hl] at hx
      simp at hx
    · rcases List.mem_append.1 hx with hx | hx
      · exact mem_zeros hx
      · exact hw.2 x hx
  · rename_i hm
    obtain ⟨rw', rl, -, rr⟩ := makeRoom_wf cfg m h
    have rr := rr (by omega)
    have rw' := (wf_iff _).1 rw'
    rw [wf_iff]
    have hl : ((makeRoom cfg b m).raw.take b.len ++ List.replicate (m - b.len) fill).length = m := by
      simp
      omega
    refine ⟨by simp only [List.length_append, hl]; omega, fun x hx => ?_⟩
    dsimp only at hx
    rw [List.drop_append_of_le_length (by omega)] at hx
    rcases List.mem_append.1 hx with hx | hx
    · rw [List.drop_eq_nil_of_le (by omega)] at hx
      cases hx
    · refine rw'.2 x ?_
      have e : (makeRoom cfg b m).raw.drop m =
          ((makeRoom cfg b m).raw.drop (makeRoom cfg b m).len).drop (m - (makeRoom cfg b m).len) := by
        rw [List.drop_drop]
        congr 1
        omega
      rw [e] at hx
      exact List.mem_of_mem_drop hx

theorem wf_resize (cfg : Config) {b : SecBuf} (m : Nat) (h : b.wf = true) : (resize cfg b m).wf = true :=
  wf_resizeFill cfg m 0 h

@[simp] theorem len_resize (cfg : Config) (b : SecBuf) (m : Nat) : (resize cfg b m).len = m := by
  unfold resize resizeFill
  split <;> rfl

/-- An assignment keeps the zero tail (R230, R231). -/
theorem wf_assign (cfg : Config) {b : SecBuf} (v : Bytes) (h : b.wf = true) : (assign cfg b v).wf = true := by
  have hr : ∃ r : SecBuf, r.wf = true ∧ r.len = v.length ∧ assign cfg b v = ⟨v ++ r.raw.drop v.length, v.length⟩ := by
    unfold assign
    split
    · rename_i e
      exact ⟨b, h, e.symm, rfl⟩
    · exact ⟨resize cfg b v.length, wf_resize cfg _ h, len_resize cfg _ _, rfl⟩
  obtain ⟨r, rw', rl, e⟩ := hr
  rw [e, wf_iff]
  refine ⟨by simp, fun x hx => ?_⟩
  rw [List.drop_append_of_le_length (by simp), List.drop_length, List.nil_append, ← rl] at hx
  exact ((wf_iff r).1 rw').2 x hx

/-- Making the content unspecified keeps the length and the zero tail (R231). -/
theorem wf_scramble (cfg : Config) (k : Nat) {b : SecBuf} (h : b.wf = true) : (scramble cfg k b).wf = true := by
  have hw := (wf_iff b).1 h
  rw [wf_iff]
  refine ⟨by simp [scramble], fun x hx => hw.2 x ?_⟩
  simp only [scramble] at hx
  rw [List.drop_append_of_le_length (by simp)] at hx
  rcases List.mem_append.1 hx with hx | hx
  · rw [List.drop_eq_nil_of_le (by simp)] at hx
    cases hx
  · exact hx

end Sys2Proof.Machine.SecBuf
end

