-- ==== Sys2Proof/Laws/State.lean ====
section
/-! SUPPORT. What each named update of the state changes: one lemma per update and field it changes, and the fields it
leaves alone, all by `rfl`, so that no proof unfolds a record update. -/

namespace Sys2Proof.Machine

section Port
variable (s : State) (f : Port → Port) (code : BitVec 8) (info : Word) (v : Word) (w : Word)

@[simp] theorem updCur_ports : (s.updCur f).ports = s.ports.modify s.cur f := rfl
@[simp] theorem updCur_slots : (s.updCur f).slots = s.slots := rfl
@[simp] theorem updCur_created : (s.updCur f).created = s.created := rfl
@[simp] theorem updCur_gen : (s.updCur f).gen = s.gen := rfl
@[simp] theorem updCur_lockOwner : (s.updCur f).lockOwner = s.lockOwner := rfl
@[simp] theorem updCur_mem : (s.updCur f).mem = s.mem := rfl
@[simp] theorem updCur_regions : (s.updCur f).regions = s.regions := rfl
@[simp] theorem updCur_env : (s.updCur f).env = s.env := rfl
@[simp] theorem updCur_draws : (s.updCur f).draws = s.draws := rfl
@[simp] theorem updCur_picks : (s.updCur f).picks = s.picks := rfl
@[simp] theorem updCur_engineEpoch : (s.updCur f).engineEpoch = s.engineEpoch := rfl
@[simp] theorem updCur_cur : (s.updCur f).cur = s.cur := rfl
@[simp] theorem updCur_agenda : (s.updCur f).agenda = s.agenda := rfl
@[simp] theorem updCur_delivered : (s.updCur f).delivered = s.delivered := rfl

@[simp] theorem finish_ports : (finish s code info).ports =
    s.ports.modify s.cur fun p => { p with status := statusDone code, errinfo := info, pending := none } := rfl
@[simp] theorem finish_slots : (finish s code info).slots = s.slots := rfl
@[simp] theorem finish_created : (finish s code info).created = s.created := rfl
@[simp] theorem finish_gen : (finish s code info).gen = s.gen := rfl
@[simp] theorem finish_lockOwner : (finish s code info).lockOwner = s.lockOwner := rfl
@[simp] theorem finish_mem : (finish s code info).mem = s.mem := rfl
@[simp] theorem finish_regions : (finish s code info).regions = s.regions := rfl
@[simp] theorem finish_env : (finish s code info).env = s.env := rfl
@[simp] theorem finish_draws : (finish s code info).draws = s.draws := rfl
@[simp] theorem finish_picks : (finish s code info).picks = s.picks := rfl
@[simp] theorem finish_engineEpoch : (finish s code info).engineEpoch = s.engineEpoch := rfl
@[simp] theorem finish_cur : (finish s code info).cur = s.cur := rfl
@[simp] theorem finish_agenda : (finish s code info).agenda = s.agenda := rfl
@[simp] theorem finish_delivered : (finish s code info).delivered = s.delivered := rfl

/-- Completing and raising are `finish`; every lemma is about `finish`. -/
theorem complete_eq_finish : complete s = finish s 0 0 := rfl
theorem raise_eq_finish (e : Err) : raise s e info = finish s e.code info := rfl

theorem setRet0_eq_updCur : s.setRet0 v = s.updCur fun p => { p with ret0 := v } := rfl
theorem setRet1_eq_updCur : s.setRet1 v = s.updCur fun p => { p with ret1 := v } := rfl

@[simp] theorem issue_pending (p : Port) : (p.issue w).pending = some ⟨w, p.args⟩ := rfl
@[simp] theorem issue_status (p : Port) : (p.issue w).status = statusPending := rfl
@[simp] theorem issue_args (p : Port) : (p.issue w).args = p.args := rfl
@[simp] theorem issue_ret0 (p : Port) : (p.issue w).ret0 = p.ret0 := rfl
@[simp] theorem issue_ret1 (p : Port) : (p.issue w).ret1 = p.ret1 := rfl
@[simp] theorem issue_errinfo (p : Port) : (p.issue w).errinfo = p.errinfo := rfl
@[simp] theorem issue_keyStage (p : Port) : (p.issue w).keyStage = p.keyStage := rfl
@[simp] theorem issue_tagStage (p : Port) : (p.issue w).tagStage = p.tagStage := rfl
@[simp] theorem issue_seedStage (p : Port) : (p.issue w).seedStage = p.seedStage := rfl

end Port

section Slots
variable (cfg : Config) (s : State) (c : Nat) (sl : Slot)

@[simp] theorem setSlot_slots : (s.setSlot c sl).slots = s.slots.set c sl := rfl
@[simp] theorem setSlot_ports : (s.setSlot c sl).ports = s.ports := rfl
@[simp] theorem setSlot_created : (s.setSlot c sl).created = s.created := rfl
@[simp] theorem setSlot_gen : (s.setSlot c sl).gen = s.gen := rfl
@[simp] theorem setSlot_lockOwner : (s.setSlot c sl).lockOwner = s.lockOwner := rfl
@[simp] theorem setSlot_mem : (s.setSlot c sl).mem = s.mem := rfl
@[simp] theorem setSlot_regions : (s.setSlot c sl).regions = s.regions := rfl
@[simp] theorem setSlot_env : (s.setSlot c sl).env = s.env := rfl
@[simp] theorem setSlot_draws : (s.setSlot c sl).draws = s.draws := rfl
@[simp] theorem setSlot_picks : (s.setSlot c sl).picks = s.picks := rfl
@[simp] theorem setSlot_engineEpoch : (s.setSlot c sl).engineEpoch = s.engineEpoch := rfl
@[simp] theorem setSlot_cur : (s.setSlot c sl).cur = s.cur := rfl
@[simp] theorem setSlot_agenda : (s.setSlot c sl).agenda = s.agenda := rfl
@[simp] theorem setSlot_delivered : (s.setSlot c sl).delivered = s.delivered := rfl

@[simp] theorem failSlot_slots : (failSlot cfg s c sl).slots =
    s.slots.set c { sl with bstate := sl.bstate.scramble cfg s.draws, phase := .failed } := rfl
@[simp] theorem failSlot_ports : (failSlot cfg s c sl).ports = s.ports := rfl
@[simp] theorem failSlot_created : (failSlot cfg s c sl).created = s.created := rfl
@[simp] theorem failSlot_gen : (failSlot cfg s c sl).gen = s.gen := rfl
@[simp] theorem failSlot_lockOwner : (failSlot cfg s c sl).lockOwner = s.lockOwner := rfl
@[simp] theorem failSlot_mem : (failSlot cfg s c sl).mem = s.mem := rfl
@[simp] theorem failSlot_regions : (failSlot cfg s c sl).regions = s.regions := rfl
@[simp] theorem failSlot_env : (failSlot cfg s c sl).env = s.env := rfl
@[simp] theorem failSlot_draws : (failSlot cfg s c sl).draws = s.draws + 1 := rfl
@[simp] theorem failSlot_picks : (failSlot cfg s c sl).picks = s.picks := rfl
@[simp] theorem failSlot_engineEpoch : (failSlot cfg s c sl).engineEpoch = s.engineEpoch := rfl
@[simp] theorem failSlot_cur : (failSlot cfg s c sl).cur = s.cur := rfl
@[simp] theorem failSlot_agenda : (failSlot cfg s c sl).agenda = s.agenda := rfl
@[simp] theorem failSlot_delivered : (failSlot cfg s c sl).delivered = s.delivered := rfl

@[simp] theorem destroyed_phase : sl.destroyed.phase = .unconstructed := rfl
@[simp] theorem destroyed_mode : sl.destroyed.mode = .stream := rfl
@[simp] theorem destroyed_aadf : sl.destroyed.aadf = false := rfl
@[simp] theorem destroyed_taglen : sl.destroyed.taglen = 0 := rfl
@[simp] theorem destroyed_bstate : sl.destroyed.bstate = .new := rfl

/-- A destroyed slot is a slot at its reset values (R146, R43). -/
theorem destroyed_eq_empty : sl.destroyed = .empty := rfl

end Slots

section Data
variable (cfg : Config) (s : State) (base n : Nat) (v : Bytes)

@[simp] theorem store_mem : (s.store cfg base v).mem = Memory.writeBytes cfg s.mem base v := rfl
@[simp] theorem store_ports : (s.store cfg base v).ports = s.ports := rfl
@[simp] theorem store_slots : (s.store cfg base v).slots = s.slots := rfl
@[simp] theorem store_created : (s.store cfg base v).created = s.created := rfl
@[simp] theorem store_gen : (s.store cfg base v).gen = s.gen := rfl
@[simp] theorem store_lockOwner : (s.store cfg base v).lockOwner = s.lockOwner := rfl
@[simp] theorem store_regions : (s.store cfg base v).regions = s.regions := rfl
@[simp] theorem store_env : (s.store cfg base v).env = s.env := rfl
@[simp] theorem store_draws : (s.store cfg base v).draws = s.draws := rfl
@[simp] theorem store_picks : (s.store cfg base v).picks = s.picks := rfl
@[simp] theorem store_engineEpoch : (s.store cfg base v).engineEpoch = s.engineEpoch := rfl
@[simp] theorem store_cur : (s.store cfg base v).cur = s.cur := rfl
@[simp] theorem store_agenda : (s.store cfg base v).agenda = s.agenda := rfl
@[simp] theorem store_delivered : (s.store cfg base v).delivered = s.delivered := rfl

@[simp] theorem storeFree_mem : (s.storeFree cfg base n).mem =
    Memory.writeBytes cfg s.mem base (drawBytes cfg s.draws n) := rfl
@[simp] theorem storeFree_ports : (s.storeFree cfg base n).ports = s.ports := rfl
@[simp] theorem storeFree_slots : (s.storeFree cfg base n).slots = s.slots := rfl
@[simp] theorem storeFree_created : (s.storeFree cfg base n).created = s.created := rfl
@[simp] theorem storeFree_gen : (s.storeFree cfg base n).gen = s.gen := rfl
@[simp] theorem storeFree_lockOwner : (s.storeFree cfg base n).lockOwner = s.lockOwner := rfl
@[simp] theorem storeFree_regions : (s.storeFree cfg base n).regions = s.regions := rfl
@[simp] theorem storeFree_env : (s.storeFree cfg base n).env = s.env := rfl
@[simp] theorem storeFree_draws : (s.storeFree cfg base n).draws = s.draws + 1 := rfl
@[simp] theorem storeFree_picks : (s.storeFree cfg base n).picks = s.picks := rfl
@[simp] theorem storeFree_engineEpoch : (s.storeFree cfg base n).engineEpoch = s.engineEpoch := rfl
@[simp] theorem storeFree_cur : (s.storeFree cfg base n).cur = s.cur := rfl
@[simp] theorem storeFree_agenda : (s.storeFree cfg base n).agenda = s.agenda := rfl
@[simp] theorem storeFree_delivered : (s.storeFree cfg base n).delivered = s.delivered := rfl

end Data

section Engine
variable (cfg : Config) (s : State) (g : Bytes)

@[simp] theorem takeMutex_lockOwner : s.takeMutex.lockOwner = some s.cur := rfl
@[simp] theorem takeMutex_ports : s.takeMutex.ports = s.ports := rfl
@[simp] theorem takeMutex_slots : s.takeMutex.slots = s.slots := rfl
@[simp] theorem takeMutex_created : s.takeMutex.created = s.created := rfl
@[simp] theorem takeMutex_gen : s.takeMutex.gen = s.gen := rfl
@[simp] theorem takeMutex_mem : s.takeMutex.mem = s.mem := rfl
@[simp] theorem takeMutex_regions : s.takeMutex.regions = s.regions := rfl
@[simp] theorem takeMutex_env : s.takeMutex.env = s.env := rfl
@[simp] theorem takeMutex_draws : s.takeMutex.draws = s.draws := rfl
@[simp] theorem takeMutex_picks : s.takeMutex.picks = s.picks := rfl
@[simp] theorem takeMutex_engineEpoch : s.takeMutex.engineEpoch = s.engineEpoch := rfl
@[simp] theorem takeMutex_cur : s.takeMutex.cur = s.cur := rfl
@[simp] theorem takeMutex_agenda : s.takeMutex.agenda = s.agenda := rfl
@[simp] theorem takeMutex_delivered : s.takeMutex.delivered = s.delivered := rfl

@[simp] theorem release_lockOwner : s.release.lockOwner = none := rfl
@[simp] theorem release_ports : s.release.ports = s.ports := rfl
@[simp] theorem release_slots : s.release.slots = s.slots := rfl
@[simp] theorem release_created : s.release.created = s.created := rfl
@[simp] theorem release_gen : s.release.gen = s.gen := rfl
@[simp] theorem release_mem : s.release.mem = s.mem := rfl
@[simp] theorem release_regions : s.release.regions = s.regions := rfl
@[simp] theorem release_env : s.release.env = s.env := rfl
@[simp] theorem release_draws : s.release.draws = s.draws := rfl
@[simp] theorem release_picks : s.release.picks = s.picks := rfl
@[simp] theorem release_engineEpoch : s.release.engineEpoch = s.engineEpoch := rfl
@[simp] theorem release_cur : s.release.cur = s.cur := rfl
@[simp] theorem release_agenda : s.release.agenda = s.agenda := rfl
@[simp] theorem release_delivered : s.release.delivered = s.delivered := rfl

@[simp] theorem setGen_gen : (s.setGen cfg g).gen = SecBuf.assign cfg s.gen g := rfl
@[simp] theorem setGen_ports : (s.setGen cfg g).ports = s.ports := rfl
@[simp] theorem setGen_slots : (s.setGen cfg g).slots = s.slots := rfl
@[simp] theorem setGen_created : (s.setGen cfg g).created = s.created := rfl
@[simp] theorem setGen_lockOwner : (s.setGen cfg g).lockOwner = s.lockOwner := rfl
@[simp] theorem setGen_mem : (s.setGen cfg g).mem = s.mem := rfl
@[simp] theorem setGen_regions : (s.setGen cfg g).regions = s.regions := rfl
@[simp] theorem setGen_env : (s.setGen cfg g).env = s.env := rfl
@[simp] theorem setGen_draws : (s.setGen cfg g).draws = s.draws := rfl
@[simp] theorem setGen_picks : (s.setGen cfg g).picks = s.picks := rfl
@[simp] theorem setGen_engineEpoch : (s.setGen cfg g).engineEpoch = s.engineEpoch := rfl
@[simp] theorem setGen_cur : (s.setGen cfg g).cur = s.cur := rfl
@[simp] theorem setGen_agenda : (s.setGen cfg g).agenda = s.agenda := rfl
@[simp] theorem setGen_delivered : (s.setGen cfg g).delivered = s.delivered := rfl

@[simp] theorem scrambleGen_gen : (s.scrambleGen cfg).gen = s.gen.scramble cfg s.draws := rfl
@[simp] theorem scrambleGen_draws : (s.scrambleGen cfg).draws = s.draws + 1 := rfl
@[simp] theorem scrambleGen_ports : (s.scrambleGen cfg).ports = s.ports := rfl
@[simp] theorem scrambleGen_slots : (s.scrambleGen cfg).slots = s.slots := rfl
@[simp] theorem scrambleGen_created : (s.scrambleGen cfg).created = s.created := rfl
@[simp] theorem scrambleGen_lockOwner : (s.scrambleGen cfg).lockOwner = s.lockOwner := rfl
@[simp] theorem scrambleGen_mem : (s.scrambleGen cfg).mem = s.mem := rfl
@[simp] theorem scrambleGen_regions : (s.scrambleGen cfg).regions = s.regions := rfl
@[simp] theorem scrambleGen_env : (s.scrambleGen cfg).env = s.env := rfl
@[simp] theorem scrambleGen_picks : (s.scrambleGen cfg).picks = s.picks := rfl
@[simp] theorem scrambleGen_engineEpoch : (s.scrambleGen cfg).engineEpoch = s.engineEpoch := rfl
@[simp] theorem scrambleGen_cur : (s.scrambleGen cfg).cur = s.cur := rfl
@[simp] theorem scrambleGen_agenda : (s.scrambleGen cfg).agenda = s.agenda := rfl
@[simp] theorem scrambleGen_delivered : (s.scrambleGen cfg).delivered = s.delivered := rfl

@[simp] theorem dropEngine_gen : s.dropEngine.gen = .new := rfl
@[simp] theorem dropEngine_created : s.dropEngine.created = false := rfl
@[simp] theorem dropEngine_engineEpoch : s.dropEngine.engineEpoch = s.engineEpoch + 1 := rfl
@[simp] theorem dropEngine_ports : s.dropEngine.ports = s.ports := rfl
@[simp] theorem dropEngine_slots : s.dropEngine.slots = s.slots := rfl
@[simp] theorem dropEngine_lockOwner : s.dropEngine.lockOwner = s.lockOwner := rfl
@[simp] theorem dropEngine_mem : s.dropEngine.mem = s.mem := rfl
@[simp] theorem dropEngine_regions : s.dropEngine.regions = s.regions := rfl
@[simp] theorem dropEngine_env : s.dropEngine.env = s.env := rfl
@[simp] theorem dropEngine_draws : s.dropEngine.draws = s.draws := rfl
@[simp] theorem dropEngine_picks : s.dropEngine.picks = s.picks := rfl
@[simp] theorem dropEngine_cur : s.dropEngine.cur = s.cur := rfl
@[simp] theorem dropEngine_agenda : s.dropEngine.agenda = s.agenda := rfl
@[simp] theorem dropEngine_delivered : s.dropEngine.delivered = s.delivered := rfl

end Engine

section Status

/-- The fields of the `STATUS` of a completed command (R13, R23). -/
@[simp] theorem statusDone_code (code : BitVec 8) : (statusDone code).extractLsb' 0 8 = code := by
  apply BitVec.eq_of_getLsbD_eq
  intro i h
  simp only [statusDone, BitVec.getLsbD_extractLsb', BitVec.getLsbD_setWidth]
  simp [h]
  omega

@[simp] theorem statusDone_busy (code : BitVec 8) : (statusDone code).getLsbD 31 = false := by
  simp only [statusDone, BitVec.getLsbD_setWidth]
  simp

@[simp] theorem statusDone_reserved (code : BitVec 8) : (statusDone code).extractLsb' 8 23 = 0 := by
  apply BitVec.eq_of_getLsbD_eq
  intro i h
  simp only [statusDone, BitVec.getLsbD_extractLsb', BitVec.getLsbD_setWidth]
  simp

/-- The fields of the `STATUS` of a pending command (R22, R23). -/
@[simp] theorem statusPending_code : statusPending.extractLsb' 0 8 = 0 := by decide
@[simp] theorem statusPending_busy : statusPending.getLsbD 31 = true := by decide
@[simp] theorem statusPending_reserved : statusPending.extractLsb' 8 23 = 0 := by decide

end Status

end Sys2Proof.Machine
end

