-- ==== Sys2Proof/Laws/Ops.lean ====
section
/-! SUPPORT. What each shared operation can do, said once: the result where its condition is known, and, for a property
`P` of next states, what has to be shown for `P` to hold of every next state it answers. -/

namespace Sys2Proof.Machine

/-- `P` holds of the next state, if there is one. -/
def AllNext (P : State → Prop) : Result → Prop
  | .next t => P t
  | .fault _ => True
  | .refused _ => True

@[simp] theorem allNext_next (P : State → Prop) (t : State) : AllNext P (.next t) = P t := rfl
@[simp] theorem allNext_fault (P : State → Prop) (f : Fault) : AllNext P (.fault f) = True := rfl
@[simp] theorem allNext_refused (P : State → Prop) (r : Refusal) : AllNext P (.refused r) = True := rfl

theorem allNext_iff {P : State → Prop} {r : Result} : AllNext P r ↔ ∀ t, r = .next t → P t := by
  cases r with
  | next t => exact ⟨fun h t' e => by injection e with e; exact e ▸ h, fun h => h t rfl⟩
  | fault f => exact ⟨fun _ _ e => (nomatch e), fun _ => trivial⟩
  | refused f => exact ⟨fun _ _ e => (nomatch e), fun _ => trivial⟩

/-! ### withCommand -/

theorem operands_eq {s : State} {a : Args} (h : s.operands = some a) :
    ∃ p l, s.ports[s.cur]? = some p ∧ p.pending = some l ∧ l.args = a := by
  simp only [State.operands, State.pendingAt, Option.map_eq_some_iff, Option.bind_eq_some_iff] at h
  obtain ⟨l, ⟨p, hp, hl⟩, ha⟩ := h
  exact ⟨p, l, hp, hl, ha⟩

/-- With a command in flight, its operands are what the body gets. -/
theorem withCommand_of_operands {s : State} {a : Args} (h : s.operands = some a) (k : Args → Result) :
    withCommand s k = k a := by
  obtain ⟨p, l, hp, hl, rfl⟩ := operands_eq h
  simp [withCommand, hp, hl]

theorem withCommand_of_none {s : State} (h : s.operands = none) (k : Args → Result) :
    withCommand s k = .refused .noCommandInFlight := by
  simp only [State.operands, State.pendingAt, Option.map_eq_none_iff, Option.bind_eq_none_iff] at h
  unfold withCommand
  split
  · rfl
  · rename_i p hp
    rw [h p hp]

theorem withCommand_allNext {P : State → Prop} {s : State} {k : Args → Result}
    (h : ∀ a, s.operands = some a → AllNext P (k a)) : AllNext P (withCommand s k) := by
  cases e : s.operands with
  | none => rw [withCommand_of_none e]; trivial
  | some a => rw [withCommand_of_operands e]; exact h a e

/-- The current port of a command in flight exists. -/
theorem cur_lt_of_operands {s : State} {a : Args} (h : s.operands = some a) : s.cur < s.ports.length := by
  obtain ⟨p, _, hp, -, -⟩ := operands_eq h
  exact (List.getElem?_eq_some_iff.1 hp).1

/-! ### withSlot -/

theorem withSlot_of_some {s : State} {c : Nat} {sl : Slot} (h : s.slots[c]? = some sl) (k : Slot → Result) :
    withSlot s c k = k sl := by simp [withSlot, h]

theorem withSlot_of_none {s : State} {c : Nat} (h : s.slots[c]? = none) (k : Slot → Result) :
    withSlot s c k = .next (raise s .illegal 0) := by simp [withSlot, h]

theorem withSlot_allNext {P : State → Prop} {s : State} {c : Nat} {k : Slot → Result}
    (hn : s.slots[c]? = none → P (raise s .illegal 0)) (h : ∀ sl, s.slots[c]? = some sl → AllNext P (k sl)) :
    AllNext P (withSlot s c k) := by
  cases e : s.slots[c]? with
  | none => rw [withSlot_of_none e]; exact hn e
  | some sl => rw [withSlot_of_some e]; exact h sl e

/-! ### withRange -/

theorem withRange_of_accessible {s : State} {base n : Nat} (h : Accessible s base n) (k : Result) :
    withRange s base n k = k := by simp [withRange, h]

theorem withRange_of_fault {s : State} {base n : Nat} {f : Fault} (h : rangeFault s.regions base n = some f)
    (k : Result) : withRange s base n k = .fault f := by simp [withRange, h]

/-- When, and as which fault, an access to a range stops (R66 to R68). -/
theorem rangeFault_eq_some_iff {s : State} {base n : Nat} {f : Fault} :
    rangeFault s.regions base n = some f ↔ RangeStop s base n f := by
  have any_iff (p : Nat → Bool) : ((List.range n).any fun i => p (base + i)) = true ↔
      ∃ x, base ≤ x ∧ x < base + n ∧ p x = true := by
    simp only [List.any_eq_true, List.mem_range]
    exact ⟨fun ⟨i, h, hp⟩ => ⟨base + i, by omega, by omega, hp⟩,
      fun ⟨x, h1, h2, hp⟩ => ⟨x - base, by omega, by rwa [Nat.add_sub_cancel' h1]⟩⟩
  have all_iff (p : Nat → Bool) : ((List.range n).all fun i => p (base + i)) = false ↔
      ∃ x, base ≤ x ∧ x < base + n ∧ p x = false := by
    rw [← Bool.not_eq_true', List.not_all_eq_any_not, any_iff fun x => !p x]
    simp
  unfold rangeFault RangeStop
  dsimp only
  generalize 2 ^ 32 = top
  by_cases hw : top < base + n
  · have : ¬ base + n ≤ top := by omega
    simp only [hw, this, if_true, Option.some.injEq, and_true, false_and, and_false, or_false]
    exact eq_comm
  · have : base + n ≤ top := by omega
    rw [if_neg hw, ← any_iff, ← all_iff]
    cases (List.range n).any fun i => inRegion s.regions .device (base + i) <;>
      cases (List.range n).all fun i => inRegion s.regions .ram (base + i) <;> simp [hw, this, eq_comm]

theorem withRange_of_stop {s : State} {base n : Nat} {f : Fault} (h : RangeStop s base n f) (k : Result) :
    withRange s base n k = .fault f := withRange_of_fault (rangeFault_eq_some_iff.2 h) k

theorem withRange_allNext {P : State → Prop} {s : State} {base n : Nat} {k : Result}
    (h : Accessible s base n → AllNext P k) : AllNext P (withRange s base n k) := by
  cases e : rangeFault s.regions base n with
  | none => rw [withRange_of_accessible e]; exact h e
  | some f => rw [withRange_of_fault e]; trivial

/-! ### The mutex and the engine -/

theorem withMutex_of_free {s : State} (h : s.lockOwner = none) (k : State → Result) :
    withMutex s k = k s.takeMutex := by simp [withMutex, h]

/-- While the mutex is taken the command is held: no state changes (R163). -/
theorem withMutex_of_taken {s : State} {r : Nat} (h : s.lockOwner = some r) (k : State → Result) :
    withMutex s k = .next s := by simp [withMutex, h]

theorem withMutex_allNext {P : State → Prop} {s : State} {k : State → Result}
    (hh : ∀ r, s.lockOwner = some r → P s) (h : s.lockOwner = none → AllNext P (k s.takeMutex)) :
    AllNext P (withMutex s k) := by
  cases e : s.lockOwner with
  | none => rw [withMutex_of_free e]; exact h e
  | some r => rw [withMutex_of_taken e]; exact hh r e

theorem withEngine_allNext {P : State → Prop} {cfg : Config} {s : State} {k : State → Result}
    (he : ∀ r, ensureCreated cfg s = .error r → P (creationFailed r))
    (h : ∀ s', ensureCreated cfg s = .ok s' → AllNext P (k s')) : AllNext P (withEngine cfg s k) := by
  unfold withEngine
  split
  · exact he _ ‹_›
  · exact h _ ‹_›

theorem onEngine_ind {P : State → Prop} {cfg : Config} {s : State} {k : State → State}
    (he : ∀ r, ensureCreated cfg s = .error r → P (creationFailed r))
    (h : ∀ s', ensureCreated cfg s = .ok s' → P (k s')) : P (onEngine cfg s k) := by
  unfold onEngine
  split
  · exact he _ ‹_›
  · exact h _ ‹_›

/-! ### Staging buffers: what is staged is what is read, and the buffer is empty afterwards (R37) -/

@[simp] theorem throughKeyStage_fst (cfg : Config) (s : State) (v : Bytes) : (throughKeyStage cfg s v).1 = v := by
  simp [throughKeyStage]
@[simp] theorem throughTagStage_fst (cfg : Config) (s : State) (v : Bytes) : (throughTagStage cfg s v).1 = v := by
  simp [throughTagStage]
@[simp] theorem throughSeedStage_fst (cfg : Config) (s : State) (v : Bytes) : (throughSeedStage cfg s v).1 = v := by
  simp [throughSeedStage]

theorem throughKeyStage_snd (cfg : Config) (s : State) (v : Bytes) :
    (throughKeyStage cfg s v).2 = s.updCur fun p => { p with keyStage := .new } := rfl
theorem throughTagStage_snd (cfg : Config) (s : State) (v : Bytes) :
    (throughTagStage cfg s v).2 = s.updCur fun p => { p with tagStage := .new } := rfl
theorem throughSeedStage_snd (cfg : Config) (s : State) (v : Bytes) :
    (throughSeedStage cfg s v).2 = s.updCur fun p => { p with seedStage := .new } := rfl

/-- A draw for the generator: the chain's 64 bytes, the entropy ports advanced, the staging buffer empty (R165, R168,
R213). -/
theorem drawSeed_eq (cfg : Config) (s : State) : drawSeed cfg s =
    ((chainDraw cfg s.env).1,
      { s with env := (chainDraw cfg s.env).2 }.updCur fun p => { p with seedStage := .new }) := by
  simp [drawSeed, Prod.ext_iff, throughSeedStage_snd]

/-- All that lazy creation can do (R165): nothing on an engine that exists; else it fails in `Gen.create` with nothing
changed, or makes one chain draw and fails in `Gen.augment`, or makes one chain draw and sets `GEN` and `CREATED`. -/
theorem ensureCreated_cases (cfg : Config) (s : State) :
    (s.created = true ∧ ensureCreated cfg s = .ok s) ∨
    (s.created = false ∧ cfg.gen.create cfg.seedBitsMax = none ∧ ensureCreated cfg s = .error (s, 16)) ∨
    (∃ g, s.created = false ∧ cfg.gen.create cfg.seedBitsMax = some g ∧
      cfg.gen.augment (chainDraw cfg s.env).1 g = none ∧ ensureCreated cfg s = .error ((drawSeed cfg s).2, 18)) ∨
    (∃ g g', s.created = false ∧ cfg.gen.create cfg.seedBitsMax = some g ∧
      cfg.gen.augment (chainDraw cfg s.env).1 g = some g' ∧
      ensureCreated cfg s =
        .ok { (drawSeed cfg s).2 with gen := SecBuf.assign cfg s.gen g', created := true }) := by
  cases hc : s.created with
  | true => exact .inl ⟨rfl, by simp [ensureCreated, hc]⟩
  | false =>
    cases hg : cfg.gen.create cfg.seedBitsMax with
    | none => exact .inr (.inl ⟨rfl, rfl, by simp [ensureCreated, hc, hg]⟩)
    | some g =>
      cases ha : cfg.gen.augment (chainDraw cfg s.env).1 g with
      | none =>
        refine .inr (.inr (.inl ⟨g, rfl, rfl, ha, ?_⟩))
        simp [ensureCreated, hc, hg, drawSeed_eq, ha]
      | some g' =>
        refine .inr (.inr (.inr ⟨g, g', rfl, rfl, ha, ?_⟩))
        simp [ensureCreated, hc, hg, drawSeed_eq, ha]

/-! ### The backend members keep the state's length (R121) -/

theorem initBytes_length {be : Backend} {key bs : Bytes} {n : Nat} (h : initBytes be key n = some bs) :
    bs.length = n := by
  simp only [initBytes, Option.map_eq_some_iff] at h
  obtain ⟨v, -, rfl⟩ := h
  simp

theorem resetIvBytes_length {be : Backend} {nonce bs bs' : Bytes} (h : resetIvBytes be nonce bs = some bs') :
    bs'.length = bs.length := by
  simp only [resetIvBytes, Option.map_eq_some_iff] at h
  obtain ⟨v, -, rfl⟩ := h
  simp

theorem processAadBytes_length {be : Backend} {d bs bs' : Bytes} (h : processAadBytes be d bs = some bs') :
    bs'.length = bs.length := by
  simp only [processAadBytes, Option.map_eq_some_iff] at h
  obtain ⟨v, -, rfl⟩ := h
  simp

theorem processAadIfAny_length {be : Backend} {n : Word} {d bs bs' : Bytes}
    (h : processAadIfAny be n d bs = some bs') : bs'.length = bs.length := by
  unfold processAadIfAny at h
  split at h
  · exact processAadBytes_length h
  · injection h with h
    rw [h]

theorem encryptBytes_length {be : Backend} {x bs y bs' : Bytes} (h : encryptBytes be x bs = some (y, bs')) :
    y.length = x.length ∧ bs'.length = bs.length := by
  simp only [encryptBytes, Option.map_eq_some_iff, Prod.mk.injEq] at h
  obtain ⟨v, -, rfl, rfl⟩ := h
  simp

theorem decryptBytes_length {be : Backend} {x bs y bs' : Bytes} (h : decryptBytes be x bs = some (y, bs')) :
    y.length = x.length ∧ bs'.length = bs.length := by
  simp only [decryptBytes, Option.map_eq_some_iff, Prod.mk.injEq] at h
  obtain ⟨v, -, rfl, rfl⟩ := h
  simp

theorem getTagBytes_length {be : Backend} {n : Nat} {bs tag bs' : Bytes} (h : getTagBytes be n bs = some (tag, bs')) :
    tag.length = n ∧ bs'.length = bs.length := by
  simp only [getTagBytes, Option.map_eq_some_iff, Prod.mk.injEq] at h
  obtain ⟨v, -, rfl, rfl⟩ := h
  simp

theorem setTagLenIfCounter_length {cfg : Config} {m : Mode} {n : Word} {bs bs' : Bytes}
    (h : setTagLenIfCounter cfg m n bs = some bs') : bs'.length = bs.length := by
  cases m with
  | stream =>
    injection h with h
    rw [h]
  | counter =>
    simp only [setTagLenIfCounter, Option.map_eq_some_iff] at h
    obtain ⟨v, -, rfl⟩ := h
    simp

theorem setMsgLenIfCounter_length {cfg : Config} {m : Mode} {bs bs' : Bytes}
    (h : setMsgLenIfCounter cfg m bs = some bs') : bs'.length = bs.length := by
  cases m with
  | stream =>
    injection h with h
    rw [h]
  | counter =>
    simp only [setMsgLenIfCounter, Option.map_eq_some_iff] at h
    obtain ⟨v, -, rfl⟩ := h
    simp

theorem genWords_length {g : Gen} {n : Nat} {st st' : Bytes} {ws : List Word} (h : genWords g n st = some (ws, st')) :
    ws.length = n := by
  simp only [genWords, Option.map_eq_some_iff, Prod.mk.injEq] at h
  obtain ⟨v, -, rfl, -⟩ := h
  simp

@[simp] theorem wordBytes_length (ws : List Word) : (wordBytes ws).length = 4 * ws.length := by
  induction ws with
  | nil => rfl
  | cons w ws ih =>
    simp only [wordBytes] at ih
    simp [wordBytes, le32, ih]
    omega

@[simp] theorem load_length (cfg : Config) (s : State) (base n : Nat) : (s.load cfg base n).length = n := by
  simp [State.load]

end Sys2Proof.Machine
end

