-- ==== Sys2Proof/Laws/Frames.lean ====
section
/-! SUPPORT. The parts of a frame for the shared operations: what the end of a command changes, what a change of the
current port leaves alone, what a store leaves alone; each part of a frame composes. -/

namespace Sys2Proof.Machine

/-! ### A change of the current port -/

theorem updCur_ports_cur (s : State) (f : Port → Port) : (s.updCur f).ports[s.cur]? = (s.ports[s.cur]?).map f := by
  simp

theorem updCur_ports_other (s : State) (f : Port → Port) {q : Nat} (h : q ≠ s.cur) :
    (s.updCur f).ports[q]? = s.ports[q]? := by
  simp [Ne.symm h]

theorem otherPortsKept_refl (s : State) : OtherPortsKept s s := ⟨rfl, fun _ _ => rfl⟩

theorem otherPortsKept_trans {s t u : State} (h : t.cur = s.cur) (a : OtherPortsKept s t) (b : OtherPortsKept t u) :
    OtherPortsKept s u :=
  ⟨b.1.trans a.1, fun q hq => (b.2 q (h ▸ hq)).trans (a.2 q hq)⟩

theorem otherPortsKept_updCur (s : State) (f : Port → Port) : OtherPortsKept s (s.updCur f) :=
  ⟨by simp, fun _ hq => updCur_ports_other s f hq⟩

/-- Only the port list and the current port's number matter to the frame of the other ports. -/
theorem otherPortsKept_congr {s t u : State} (h : u.ports = t.ports) (a : OtherPortsKept s t) : OtherPortsKept s u := by
  obtain ⟨a1, a2⟩ := a
  exact ⟨by rw [h, a1], fun q hq => by rw [h, a2 q hq]⟩

/-! ### The end of a command -/

theorem finish_eq_updCur (s : State) (code : BitVec 8) (info : Word) : finish s code info =
    s.updCur fun p => { p with status := statusDone code, errinfo := info, pending := none } := rfl

/-- Ending a command leaves its code and its detail in the current port (R13). -/
theorem ended_finish {s t : State} {code : BitVec 8} {info : Word} (hc : t.cur = s.cur)
    (hl : s.cur < t.ports.length) : Ended s (finish t code info) code info := by
  have : (finish t code info).ports[t.cur]? = _ := updCur_ports_cur t _
  rw [Ended, ← hc, this, List.getElem?_eq_getElem (hc ▸ hl)]
  rfl

/-- How a command ended is one fact. -/
theorem ended_unique {s t : State} {c d : BitVec 8} {i j : Word} (h : Ended s t c i) (k : Ended s t d j) :
    c = d ∧ i = j := by
  have := Option.some.inj (h.symm.trans k)
  simp only [Prod.mk.injEq, and_true] at this
  refine ⟨?_, this.2⟩
  have e := congrArg (BitVec.setWidth 8) this.1
  simpa using e

/-- A command that only raises an error changes nothing but its port's `STATUS`, `ERRINFO` and pending record (R248). -/
theorem onlyRefusedWith_raise {s : State} (h : s.cur < s.ports.length) (e : Err) :
    OnlyRefusedWith s (raise s e 0) e.code := by
  have hp : (raise s e 0).ports[s.cur]? = _ := updCur_ports_cur s _
  refine ⟨ended_finish rfl h, otherPortsKept_updCur s _, ?_, ?_, ?_, ?_, rfl, ⟨rfl, rfl, rfl, rfl, rfl⟩, fun _ => rfl,
    ⟨rfl, rfl, rfl, rfl, rfl⟩, rfl⟩ <;>
  · simp only [ArgsKept, Ret0Kept, Ret1Kept, StagesKept]
    rw [hp, Option.map_map]
    rfl

/-! ### Data memory -/

theorem memoryKeptOutside_refl (s : State) (base n : Nat) : MemoryKeptOutside s s base n := fun _ _ => rfl

theorem memoryKeptOutside_trans {s t u : State} {base n : Nat} (a : MemoryKeptOutside s t base n)
    (b : MemoryKeptOutside t u base n) : MemoryKeptOutside s u base n := fun x hx => (b x hx).trans (a x hx)

/-- A store leaves alone every byte outside any range that holds what it writes. -/
theorem memoryKeptOutside_writeBytes {s t : State} {base n b : Nat} {v : Bytes}
    (h : t.mem = Memory.writeBytes Config.hw s.mem b v) (lo : base ≤ b) (hi : b + v.length ≤ base + n) :
    MemoryKeptOutside s t base n := by
  intro x hx
  simp only [byteAt, h]
  exact read_writeBytes_outside _ _ _ _ (by omega)

theorem memoryKept_of_mem {s t : State} (h : t.mem = s.mem) : MemoryKept s t := fun a => by simp only [byteAt, h]

theorem bytesAt_eq_load (s : State) (base n : Nat) : bytesAt s base n = s.load Config.hw base n := rfl

/-- What was stored reads back. -/
theorem bytesAt_writeBytes {t : State} {m : Memory} {base : Nat} {v : Bytes}
    (h : t.mem = Memory.writeBytes Config.hw m base v) : bytesAt t base v.length = v := by
  rw [bytesAt_eq_load, State.load, h]
  exact readBytes_writeBytes_same _ _ _ _

theorem bytesAt_congr {s t : State} {base n : Nat} (h : t.mem = s.mem) : bytesAt t base n = bytesAt s base n := by
  simp only [bytesAt_eq_load, State.load, h]

end Sys2Proof.Machine
end

