-- ==== Sys2Proof/Laws/Aead.lean ====
section
/-! SUPPORT. The AEAD unit's shared operations: a slot written and read back, the destruction before a new key, the check
functions as the conditions they test, and a transform whose checks pass. -/

namespace Sys2Proof.Machine

theorem getElem?_set_of_some {l : List Slot} {c : Nat} {sl : Slot} (h : l[c]? = some sl) (new : Slot) :
    (l.set c new)[c]? = some new := by
  have := (List.getElem?_eq_some_iff.1 h).1
  simp [this]

/-- After line 2 of R125 the slot holds no session (R42 (a), R126 (g)). -/
theorem slotForConstruct_eq_empty {sl : Slot} (h : sl.phase = .unconstructed → sl = .empty) :
    slotForConstruct sl = .empty := by
  unfold slotForConstruct
  split
  · exact h ‹_›
  · rfl

/-- An admitted phase is none of the four others. -/
theorem open_iff (p : Phase) : p.open = true ↔ p = .reset ∨ p = .assocData ∨ p = .transforming := by
  cases p <;> simp [Phase.open]

theorem resetError_eq_none_iff (sl : Slot) (a : Args) : resetError sl a = none ↔
    sl.phase ≠ .unconstructed ∧ (sl.mode = .stream → 1 ≤ s32 a.a1) ∧
      (sl.mode = .counter → 8 ≤ s32 a.a1 ∧ s32 a.a1 ≤ 12) ∧ 0 ≤ s32 a.a3 := by
  unfold resetError
  cases hm : sl.mode <;> by_cases hp : sl.phase = .unconstructed <;> simp [hp]
  · by_cases h : s32 a.a1 < 1
    · simp [h]
    · simp [h]
      omega
  · by_cases h : s32 a.a1 < 8 ∨ 12 < s32 a.a1 <;> simp [h] <;> omega

theorem transformError_eq_none_iff (sl : Slot) (a : Args) : transformError sl a = none ↔
    sl.phase.open = true ∧ 0 < s32 a.a1 ∧ s32 a.a1 ≤ s32 a.a3 := by
  unfold transformError
  cases sl.phase.open <;> simp
  by_cases h : s32 a.a1 ≤ 0
  · simp [h]
  · simp [h]
    omega

theorem tagLenValid_iff (sl : Slot) (n : Word) : tagLenValid sl n = true ↔
    1 ≤ s32 n ∧ (sl.mode = .stream → s32 n ≤ 16) ∧ (sl.mode = .counter → n = sl.taglen) := by
  unfold tagLenValid
  cases sl.mode <;> simp

theorem partialOverlap_eq_false_iff (a b n : Nat) : partialOverlap a b n = false ↔
    a = b ∨ a + n ≤ b ∨ b + n ≤ a := by
  simp only [partialOverlap, Bool.and_eq_false_iff, decide_eq_false_iff_not]
  omega

/-- A transform whose checks pass, on ranges that can be accessed (R136, R139 lines 4 to 9, R69). -/
theorem transform_of_admitted {cfg : Config} {member : Backend → Bytes → Bytes → Option (Bytes × Bytes)} {info : Word}
    {c : Nat} {s : State} {a : Args} {sl : Slot} (ha : s.operands = some a) (hs : s.slots[c]? = some sl)
    (he : transformError sl a = none) (r1 : Accessible s (u32 a.a0) (byteCount a.a1))
    (r2 : Accessible s (u32 a.a2) (byteCount a.a1)) :
    transform cfg member info c s =
      if partialOverlap (u32 a.a0) (u32 a.a2) (byteCount a.a1) then .refused .partialOverlap
      else runTransform cfg (member (backendOf cfg sl.mode)) info c a sl s := by
  simp only [transform, withCommand_of_operands ha, withSlot_of_some hs, he, withRange_of_accessible r1,
    withRange_of_accessible r2]

end Sys2Proof.Machine
end

