-- ==== Sys2Proof/Laws/Decode.lean ====
section
/-! SUPPORT. The fields of format C: what each reads from an assembled word, and what they are as numbers. -/

namespace Sys2Proof

/-- The bits of an assembled word (R90). -/
theorem getLsbD_assemble (op ctx : BitVec 8) (m : Bool) (i : Nat) : (assemble op ctx m).getLsbD i =
    if i < 8 then op.getLsbD i else if i < 16 then ctx.getLsbD (i - 8) else decide (i = 16) && m := by
  show BitVec.getLsbD (w := 15 + 1 + 8 + 8) ((0 : BitVec 15) ++ BitVec.ofBool m ++ ctx ++ op) i = _
  rw [BitVec.getLsbD_append, BitVec.getLsbD_append, BitVec.getLsbD_append]
  by_cases h1 : i < 8
  · simp [h1]
  · by_cases h2 : i < 16
    · simp [h1, h2, show i - 8 < 8 by omega]
    · by_cases h3 : i = 16
      · subst h3
        simp
      · simp [h1, h2, h3, show ¬ i - 8 < 8 by omega, show ¬ i - 8 - 8 = 0 by omega]

@[simp] theorem fieldOp_assemble (op ctx : BitVec 8) (m : Bool) : fieldOp (assemble op ctx m) = op := by
  apply BitVec.eq_of_getLsbD_eq
  intro i h
  simp only [fieldOp, BitVec.getLsbD_extractLsb', getLsbD_assemble]
  simp [h]

@[simp] theorem fieldCtx_assemble (op ctx : BitVec 8) (m : Bool) : fieldCtx (assemble op ctx m) = ctx := by
  apply BitVec.eq_of_getLsbD_eq
  intro i h
  simp only [fieldCtx, BitVec.getLsbD_extractLsb', getLsbD_assemble]
  simp [h, show 8 + i < 16 by omega]

@[simp] theorem fieldMode_assemble (op ctx : BitVec 8) (m : Bool) : fieldMode (assemble op ctx m) = m := by
  simp only [fieldMode, getLsbD_assemble]
  simp

@[simp] theorem fieldRsv_assemble (op ctx : BitVec 8) (m : Bool) : fieldRsv (assemble op ctx m) = 0 := by
  apply BitVec.eq_of_getLsbD_eq
  intro i h
  simp only [fieldRsv, BitVec.getLsbD_extractLsb', getLsbD_assemble]
  simp [show ¬ 17 + i < 8 by omega, show ¬ 17 + i < 16 by omega, show ¬ 17 + i = 16 by omega]

/-- A word whose reserved field is 0 is what its other fields assemble to. -/
theorem assemble_fields (w : Word) (h : fieldRsv w = 0) : assemble (fieldOp w) (fieldCtx w) (fieldMode w) = w := by
  have hr : ∀ j, j < 15 → w.getLsbD (17 + j) = false := by
    intro j hj
    have := congrArg (fun v => v.getLsbD j) h
    simpa [fieldRsv, hj] using this
  apply BitVec.eq_of_getLsbD_eq
  intro i hi
  rw [getLsbD_assemble]
  by_cases h1 : i < 8
  · simp only [h1, if_true, fieldOp, BitVec.getLsbD_extractLsb']
    simp
  · by_cases h2 : i < 16
    · simp only [h1, h2, if_true, if_false, fieldCtx, BitVec.getLsbD_extractLsb']
      simp [show i - 8 < 8 by omega, show 8 + (i - 8) = i by omega]
    · by_cases h3 : i = 16
      · subst h3
        simp [fieldMode]
      · have := hr (i - 17) (by omega)
        rw [show 17 + (i - 17) = i by omega] at this
        simp [h1, h2, h3, this]

theorem fieldOp_toNat (w : Word) : (fieldOp w).toNat = w.toNat % 256 := by simp [fieldOp, BitVec.extractLsb'_toNat]

theorem fieldCtx_toNat (w : Word) : (fieldCtx w).toNat = w.toNat / 256 % 256 := by
  simp [fieldCtx, BitVec.extractLsb'_toNat, Nat.shiftRight_eq_div_pow]

theorem fieldMode_eq (w : Word) : fieldMode w = decide (w.toNat / 65536 % 2 = 1) := by
  rw [fieldMode, BitVec.getLsbD, Nat.testBit_eq_decide_div_mod_eq]

theorem fieldRsv_eq_zero_iff (w : Word) : fieldRsv w = 0 ↔ w.toNat / 131072 = 0 := by
  rw [← BitVec.toNat_inj]
  have := w.isLt
  simp only [fieldRsv, BitVec.extractLsb'_toNat, Nat.shiftRight_eq_div_pow]
  simp
  omega

end Sys2Proof
end

