-- ==== Sys2Proof/Laws/Entropy.lean ====
section
/-! SUPPORT. The Entropy Source Chain: a draw is 64 bytes whatever the ports answer, byte by byte what it holds, and the
clock never goes back. -/

namespace Sys2Proof.Machine

theorem kdevRead_length {r : KdevReply} {b : Bytes} (h : (kdevRead r).1 = some b) : b.length = 64 := by
  induction r with
  | ok v =>
    injection h with h
    rw [← h]
    simp
  | fail => cases h
  | retry later ih => exact ih h

@[simp] theorem sourceDraw_length (cfg : Config) (e : EnvPorts) : (sourceDraw cfg e).1.length = 64 := by
  unfold sourceDraw
  split
  · simp
  · split
    · simp
    · cases h : (kdevRead (cfg.kdev e.kdevReqs)).1 with
      | none => simp [h]
      | some b => simp [h, kdevRead_length h]

@[simp] theorem mixClock_length (n : Nat) (t : BitVec 64) (j : Nat) (b : Bytes) :
    (mixClock n t j b).length = b.length := by
  induction b generalizing j with
  | nil => rfl
  | cons x b ih => simp [mixClock, ih]

/-- Byte `i` of a mixed string: XORed with byte `j + i` of the sample while that is below the number of mixed bytes. -/
theorem mixClock_getElem (n : Nat) (t : BitVec 64) (j : Nat) (b : Bytes) (i : Nat) (h : i < b.length) :
    (mixClock n t j b)[i]'(by simpa using h) = if j + i < n then b[i] ^^^ clockByte t (j + i) else b[i] := by
  induction b generalizing j i with
  | nil => cases h
  | cons x b ih =>
    cases i with
    | zero => simp [mixClock]
    | succ i =>
      have e : j + (i + 1) = j + 1 + i := by omega
      simp only [mixClock, List.getElem_cons_succ, e]
      exact ih (j + 1) i (by simpa using h)

@[simp] theorem chainDraw_length (cfg : Config) (e : EnvPorts) : (chainDraw cfg e).1.length = 64 := by
  simp [chainDraw]

/-- A sample is never less than the one before it (R210). -/
theorem sampleClock_mono (cfg : Config) (e : EnvPorts) : e.lastClock.toNat ≤ (sampleClock cfg e).1.toNat := by
  simp only [sampleClock]
  split <;> omega

/-- The sample is what is remembered as the last one. -/
theorem sampleClock_last (cfg : Config) (e : EnvPorts) : (sampleClock cfg e).2.lastClock = (sampleClock cfg e).1 := rfl

end Sys2Proof.Machine
end

