-- ==== Sys2Proof/Laws/PerInstr.lean ====
section
/-! SUPPORT. Statements made of every command, one lemma per constructor: the shape of its word. -/

namespace Sys2Proof.Laws

namespace EncodingShape

/-- The word of a command: its opcode, its slot number (0 in an RNG command), its mode bit, and reserved bits 0 (R90). -/
def Statement (i : Instr) : Prop :=
  fieldOp (encode i) = i.opcode ∧ fieldCtx (encode i) = BitVec.ofNat 8 (i.slot?.getD 0) ∧
    fieldMode (encode i) = i.modeBit ∧ fieldRsv (encode i) = 0

theorem of_assemble (i : Instr) : Statement i :=
  ⟨fieldOp_assemble _ _ _, fieldCtx_assemble _ _ _, fieldMode_assemble _ _ _, fieldRsv_assemble _ _ _⟩

theorem aeadConstruct (c : Nat) (m : Mode) : Statement (.aeadConstruct c m) := of_assemble _
theorem aeadReset (c : Nat) : Statement (.aeadReset c) := of_assemble _
theorem aeadAad (c : Nat) : Statement (.aeadAad c) := of_assemble _
theorem aeadEncrypt (c : Nat) : Statement (.aeadEncrypt c) := of_assemble _
theorem aeadDecrypt (c : Nat) : Statement (.aeadDecrypt c) := of_assemble _
theorem aeadAuthTag (c : Nat) : Statement (.aeadAuthTag c) := of_assemble _
theorem aeadDestroy (c : Nat) : Statement (.aeadDestroy c) := of_assemble _
theorem rngSeed : Statement (.rngSeed) := of_assemble _
theorem rngRandomSeed : Statement (.rngRandomSeed) := of_assemble _
theorem rngRandBytes : Statement (.rngRandBytes) := of_assemble _
theorem rngRandU32 : Statement (.rngRandU32) := of_assemble _
theorem rngRandU64 : Statement (.rngRandU64) := of_assemble _
theorem rngLock : Statement (.rngLock) := of_assemble _
theorem rngUnlock : Statement (.rngUnlock) := of_assemble _
theorem rngCtx : Statement (.rngCtx) := of_assemble _
theorem rngShutdown : Statement (.rngShutdown) := of_assemble _

end EncodingShape

end Sys2Proof.Laws
end

