-- ==== Sys2Proof/Laws/Requesters.lean ====
section
/-! SUPPORT. The other agents' moves: which bytes the pending commands read and write, what a requester's access to data
memory can do, what a reset leaves of data memory. -/

namespace Sys2Proof.Machine

/-! ### The ranges of the pending commands -/

/-- The range `t` has the byte at `x`. -/
abbrev Span.Has (t : Span) (x : Nat) : Prop := t.base ≤ x ∧ x < t.base + t.size

theorem meetsAny_iff (spans : List Span) (base n : Nat) :
    meetsAny spans base n = true ↔ ∃ x, base ≤ x ∧ x < base + n ∧ ∃ t ∈ spans, t.Has x := by
  simp only [meetsAny, List.any_eq_true, decide_eq_true_eq]
  constructor
  · rintro ⟨t, ht, h⟩
    exact ⟨max base t.base, by omega, by omega, t, ht, by omega, by omega⟩
  · rintro ⟨x, h1, h2, t, ht, h3, h4⟩
    exact ⟨t, ht, by omega⟩

theorem mem_pendingCommands {s : State} {c : Instr × Args} : c ∈ s.pendingCommands ↔
    ∃ p l, s.pendingAt p = some l ∧ decode s.slots.length l.word = .ok c.1 ∧ l.args = c.2 := by
  obtain ⟨i, a⟩ := c
  have ok_iff (w : Word) (j : Instr) :
      (decode s.slots.length w).toOption = some j ↔ decode s.slots.length w = .ok j := by
    cases decode s.slots.length w <;> simp [Except.toOption]
  simp only [State.pendingCommands, State.pendingAt, List.mem_filterMap, Option.bind_eq_some_iff,
    Option.map_eq_some_iff, Prod.mk.injEq, ok_iff]
  constructor
  · rintro ⟨p, hp, l, hl, j, hj, rfl, rfl⟩
    obtain ⟨q, hq⟩ := List.mem_iff_getElem?.1 hp
    exact ⟨q, l, ⟨p, hq, hl⟩, hj, rfl⟩
  · rintro ⟨q, l, ⟨p, hq, hl⟩, hj, rfl⟩
    exact ⟨p, List.mem_of_getElem? hq, l, hl, i, hj, rfl, rfl⟩

/-- The read ranges of a command are R62's, where its checks pass. -/
theorem has_readSpans (cfg : Config) (s : State) (a : Args) (i : Instr) (x : Nat) :
    (∃ t ∈ readSpans cfg s.slots a i, t.Has x) ↔ checksPass cfg s a i ∧ readsByte a x i := by
  cases i with
  | aeadConstruct c m =>
    simp only [readSpans, checksPass, readsByte]
    by_cases h : s.slots[c]? = none ∨ s32 a.a1 ≤ 0 ∨ s32 (backendOf cfg m).stateSize ≤ 0
    · rw [if_pos h]
      rw [List.getElem?_eq_none_iff] at h
      simp
      omega
    · rw [if_neg h]
      rw [List.getElem?_eq_none_iff] at h
      simp
      omega
  | aeadReset c =>
    simp only [readSpans, checksPass, readsByte]
    cases s.slots[c]? with
    | none => simp
    | some sl =>
      by_cases h : resetError sl a = none <;> by_cases h3 : 0 < s32 a.a3 <;> simp [h, h3]
  | aeadAad c =>
    simp only [readSpans, checksPass, readsByte]
    cases s.slots[c]? with
    | none => simp
    | some sl => by_cases h : aadError sl a = none <;> simp [h]
  | aeadEncrypt c | aeadDecrypt c =>
    simp only [readSpans, checksPass, readsByte]
    cases s.slots[c]? with
    | none => simp
    | some sl => by_cases h : transformError sl a = none <;> simp [h]
  | rngSeed =>
    simp only [readSpans, checksPass, readsByte]
    by_cases h : s32 a.a1 ≤ 0
    · simp [h]
    · simp [h, show 0 < s32 a.a1 by omega]
  | aeadAuthTag | aeadDestroy | rngRandomSeed | rngRandBytes | rngRandU32 | rngRandU64 | rngLock | rngUnlock | rngCtx
  | rngShutdown => simp [readSpans, readsByte]

/-- The output range of a command is R62's. -/
theorem has_outputSpans (a : Args) (i : Instr) (x : Nat) :
    (∃ t ∈ outputSpans a i, t.Has x) ↔ writesByte a x i := by
  cases i <;> simp [outputSpans, writesByte]

/-- The write ranges of a command are R62's, where its checks pass. -/
theorem has_writeSpans (cfg : Config) (s : State) (a : Args) (i : Instr) (x : Nat) :
    (∃ t ∈ writeSpans cfg s.slots a i, t.Has x) ↔ checksPass cfg s a i ∧ writesByte a x i := by
  rw [← has_outputSpans]
  cases i with
  | aeadEncrypt c | aeadDecrypt c =>
    simp only [writeSpans, checksPass]
    cases s.slots[c]? with
    | none => simp
    | some sl => by_cases h : transformError sl a = none <;> simp [h]
  | aeadAuthTag c =>
    simp only [writeSpans, checksPass]
    cases s.slots[c]? with
    | none => simp
    | some sl =>
      dsimp only
      split
      · rename_i h
        simp only [Option.some.injEq, exists_eq_left', iff_and_self]
        exact fun _ => h
      · rename_i h
        simp only [Option.some.injEq, exists_eq_left', List.not_mem_nil, false_and, exists_false, false_iff, not_and]
        exact fun h' => absurd h' h
  | rngRandBytes =>
    simp only [writeSpans, checksPass]
    by_cases h : s32 a.a1 ≤ 0
    · simp [h]
    · simp [h, show 0 < s32 a.a1 by omega]
  | aeadConstruct | aeadReset | aeadAad | aeadDestroy | rngSeed | rngRandomSeed | rngRandU32 | rngRandU64 | rngLock
  | rngUnlock | rngCtx | rngShutdown => simp [writeSpans, outputSpans]

theorem has_pendingReads (cfg : Config) (s : State) (x : Nat) :
    (∃ t ∈ s.pendingReads cfg, t.Has x) ↔ s.PendingTouches cfg readsByte x := by
  simp only [State.pendingReads, List.mem_flatMap, State.PendingTouches, ← has_readSpans]
  constructor
  · rintro ⟨t, ⟨c, hc, ht⟩, hx⟩
    obtain ⟨p, l, hl, hd, ha⟩ := mem_pendingCommands.1 hc
    exact ⟨p, l, c.1, hl, hd, t, ha ▸ ht, hx⟩
  · rintro ⟨p, l, i, hl, hd, t, ht, hx⟩
    exact ⟨t, ⟨(i, l.args), mem_pendingCommands.2 ⟨p, l, hl, hd, rfl⟩, ht⟩, hx⟩

theorem has_pendingWrites (cfg : Config) (s : State) (x : Nat) :
    (∃ t ∈ s.pendingWrites cfg, t.Has x) ↔ s.PendingTouches cfg writesByte x := by
  simp only [State.pendingWrites, List.mem_flatMap, State.PendingTouches, ← has_writeSpans]
  constructor
  · rintro ⟨t, ⟨c, hc, ht⟩, hx⟩
    obtain ⟨p, l, hl, hd, ha⟩ := mem_pendingCommands.1 hc
    exact ⟨p, l, c.1, hl, hd, t, ha ▸ ht, hx⟩
  · rintro ⟨p, l, i, hl, hd, t, ht, hx⟩
    exact ⟨t, ⟨(i, l.args), mem_pendingCommands.2 ⟨p, l, hl, hd, rfl⟩, ht⟩, hx⟩

theorem has_pendingOutputs (s : State) (x : Nat) : (∃ t ∈ s.pendingOutputs, t.Has x) ↔
    ∃ p l i, s.pendingAt p = some l ∧ decode s.slots.length l.word = .ok i ∧ writesByte l.args x i := by
  simp only [State.pendingOutputs, List.mem_flatMap, ← has_outputSpans]
  constructor
  · rintro ⟨t, ⟨c, hc, ht⟩, hx⟩
    obtain ⟨p, l, hl, hd, ha⟩ := mem_pendingCommands.1 hc
    exact ⟨p, l, c.1, hl, hd, t, ha ▸ ht, hx⟩
  · rintro ⟨p, l, i, hl, hd, t, ht, hx⟩
    exact ⟨t, ⟨(i, l.args), mem_pendingCommands.2 ⟨p, l, hl, hd, rfl⟩, ht⟩, hx⟩

/-! ### A requester's access to data memory -/

/-- What stops a requester's access to a byte: there is no such byte, a device has it, or a blocked range does. -/
def HostBlocked (s : State) (blocked : List Span) (x : Nat) : Prop :=
  2 ^ 32 ≤ x ∨ inRegion s.regions .device x = true ∨ ∃ t ∈ blocked, t.Has x

/-- An access none of whose bytes is blocked goes on. -/
theorem withHostRange_of_free {s : State} {blocked : List Span} {base n : Nat} (hw : base + n ≤ 2 ^ 32)
    (h : ∀ x, base ≤ x → x < base + n → ¬ HostBlocked s blocked x) (k : Result) :
    withHostRange s blocked base n k = k := by
  have hd : ((List.range n).any fun i => inRegion s.regions .device (base + i)) = false := by
    rw [List.any_eq_false]
    intro i hi hdev
    exact h (base + i) (by omega) (by simpa using hi) (.inr (.inl hdev))
  have hm : meetsAny blocked base n = false := by
    rw [← Bool.not_eq_true, meetsAny_iff]
    rintro ⟨x, h1, h2, hx⟩
    exact h x h1 h2 (.inr (.inr hx))
  rw [withHostRange, if_neg (by omega), hd, hm]
  rfl

/-- An access with a blocked byte has no next state. -/
theorem withHostRange_of_blocked {s : State} {blocked : List Span} {base n : Nat}
    (h : ∃ x, base ≤ x ∧ x < base + n ∧ HostBlocked s blocked x) (k : Result) (t : State) :
    withHostRange s blocked base n k ≠ .next t := by
  obtain ⟨x, h1, h2, hx⟩ := h
  unfold withHostRange
  split
  · exact fun e => (nomatch e)
  · rename_i hw
    split
    · exact fun e => (nomatch e)
    · rename_i hd
      rcases hx with hx | hx | hx
      · omega
      · exact absurd (List.any_eq_true.2 ⟨x - base, by simp; omega, by rwa [Nat.add_sub_cancel' h1]⟩) hd
      · rw [if_pos ((meetsAny_iff _ _ _).2 ⟨x, h1, h2, hx⟩)]
        exact fun e => (nomatch e)

theorem withHostRange_allNext {P : State → Prop} {s : State} {blocked : List Span} {base n : Nat} {k : Result}
    (h : base + n ≤ 2 ^ 32 → AllNext P k) : AllNext P (withHostRange s blocked base n k) := by
  unfold withHostRange
  split
  · trivial
  · split
    · trivial
    · split
      · trivial
      · exact h (by omega)

/-! ### Hardware reset -/

/-- The free bytes a reset leaves change data memory and the draw counter alone. -/
theorem storeFreeAll_eq (cfg : Config) (ts : List Span) (s : State) :
    ∃ m n, storeFreeAll cfg ts s = { s with mem := m, draws := n } := by
  induction ts generalizing s with
  | nil => exact ⟨s.mem, s.draws, rfl⟩
  | cons t ts ih =>
    obtain ⟨m, n, h⟩ := ih (s.storeFree cfg t.base (min t.size (2 ^ 32 - t.base)))
    exact ⟨m, n, h⟩

/-- They keep data memory in its canonical form. -/
theorem wf_storeFreeAll (cfg : Config) (ts : List Span) {s : State} (h : Memory.wf cfg s.mem = true) :
    Memory.wf cfg (storeFreeAll cfg ts s).mem = true := by
  induction ts generalizing s with
  | nil => exact h
  | cons t ts ih =>
    apply ih
    by_cases hb : t.base ≤ 2 ^ 32
    · exact wf_writeBytes cfg _ (by simp [drawBytes]; omega) h
    · rw [show min t.size (2 ^ 32 - t.base) = 0 by omega]
      exact h

/-- They leave alone every byte outside the given ranges. -/
theorem read_storeFreeAll_outside (cfg : Config) (ts : List Span) (s : State) {x : Nat} (h : ¬ ∃ t ∈ ts, t.Has x) :
    Memory.read cfg (storeFreeAll cfg ts s).mem x = Memory.read cfg s.mem x := by
  induction ts generalizing s with
  | nil => rfl
  | cons t ts ih =>
    simp only [List.mem_cons, exists_eq_or_imp, not_or] at h
    refine (ih _ h.2).trans (read_writeBytes_outside cfg s.mem t.base _ ?_)
    have := h.1
    simp [drawBytes]
    omega

end Sys2Proof.Machine
end

