-- ==== Sys2Proof/Laws/Rng.lean ====
section
/-! SUPPORT. The RNG unit's shared operations: lazy creation as values, the seeding call, the words of RNG_RAND_BYTES, a
failed generator member; each said once, so that no proof about a command unfolds them. -/

namespace Sys2Proof.Machine

/-- What lazy creation leaves alone, whichever way it goes (R165): everything but the entropy ports, the current port's
`SEEDSTAGE`, and, where it succeeds, `GEN` and `CREATED`. -/
structure CreationKept (s t : State) : Prop where
  ports : t.ports = s.ports ∨ t.ports = (s.updCur fun p => { p with seedStage := .new }).ports
  slots : t.slots = s.slots
  lockOwner : t.lockOwner = s.lockOwner
  mem : t.mem = s.mem
  regions : t.regions = s.regions
  draws : t.draws = s.draws
  picks : t.picks = s.picks
  engineEpoch : t.engineEpoch = s.engineEpoch
  cur : t.cur = s.cur
  agenda : t.agenda = s.agenda
  delivered : t.delivered = s.delivered

/-- Lazy creation as values (R165): where it succeeds the engine exists with the state `creationOf` names, where it fails
the engine is as it was and the `ERRINFO` is the one `creationOf` names; the entropy ports stand where it says. -/
theorem ensureCreated_spec (cfg : Config) (s : State) :
    match creationOf cfg s with
    | .ok (g, env) => ∃ t, ensureCreated cfg s = .ok t ∧ t.created = true ∧ t.gen.content = g ∧
        t.gen.len = s.genLength g ∧ t.env = env ∧ CreationKept s t
    | .error (info, env) => ∃ t, ensureCreated cfg s = .error (t, info) ∧ s.created = false ∧ t.created = false ∧
        t.gen = s.gen ∧ t.env = env ∧ CreationKept s t := by
  rcases ensureCreated_cases cfg s with ⟨hc, e⟩ | ⟨hc, hg, e⟩ | ⟨g, hc, hg, ha, e⟩ | ⟨g, g', hc, hg, ha, e⟩
  · simp only [creationOf, hc, if_true]
    exact ⟨s, e, hc, rfl, by simp [State.genLength, hc], rfl, .inl rfl, rfl, rfl, rfl, rfl, rfl, rfl, rfl, rfl, rfl, rfl⟩
  · simp only [creationOf, hc, hg, Bool.false_eq_true, if_false]
    exact ⟨s, e, trivial, hc, rfl, rfl, .inl rfl, rfl, rfl, rfl, rfl, rfl, rfl, rfl, rfl, rfl, rfl⟩
  · simp only [creationOf, hc, hg, ha, Bool.false_eq_true, if_false]
    rw [drawSeed_eq] at e
    exact ⟨_, e, trivial, hc, rfl, rfl, .inr rfl, rfl, rfl, rfl, rfl, rfl, rfl, rfl, rfl, rfl, rfl⟩
  · simp only [creationOf, hc, hg, ha, Bool.false_eq_true, if_false]
    rw [drawSeed_eq] at e
    exact ⟨_, e, rfl, by simp, by simp [State.genLength, hc, SecBuf.assign], rfl, .inr rfl, rfl,
      rfl, rfl, rfl, rfl, rfl, rfl, rfl, rfl, rfl⟩

theorem CreationKept.ports_length {s t : State} (h : CreationKept s t) : t.ports.length = s.ports.length := by
  rcases h.ports with e | e <;> simp [e]

/-- Steps 4 and 5 of the command frame as values (R164): the body runs on an engine that exists with the state
`creationOf` names, or the command ends with the creation's failure. -/
theorem onEngine_spec (cfg : Config) (s : State) (k : State → State) :
    match creationOf cfg s with
    | .ok (g, env) => ∃ t, onEngine cfg s k = k t ∧ t.created = true ∧ t.gen.content = g ∧
        t.gen.len = s.genLength g ∧ t.env = env ∧ CreationKept s t
    | .error (info, env) => ∃ t, onEngine cfg s k = creationFailed (t, info) ∧ s.created = false ∧
        t.created = false ∧ t.gen = s.gen ∧ t.env = env ∧ CreationKept s t := by
  have h := ensureCreated_spec cfg s
  cases e : creationOf cfg s with
  | error r =>
    rw [e] at h
    obtain ⟨t, he, h⟩ := h
    exact ⟨t, by simp [onEngine, he], h⟩
  | ok r =>
    rw [e] at h
    obtain ⟨t, he, h⟩ := h
    exact ⟨t, by simp [onEngine, he], h⟩

/-- A failed creation ends the command with E_BACKEND, the mutex free and the engine as it was (R165). -/
theorem creationFailed_spec {s t : State} {info : Word} (hs : s.cur < s.ports.length)
    (hc : t.created = false) (hg : t.gen = s.gen) (k : CreationKept s t) :
    CreationFailed s (creationFailed (t, info)) info t.env :=
  ⟨ended_finish k.cur (by rw [release_ports, k.ports_length]; exact hs), hc, hg, rfl, rfl⟩

/-- The seeding call (R166 lines 4 to 8): the new state installed and success, or `GEN` unspecified and E_BACKEND 17. -/
theorem seedWith_cases (cfg : Config) (seed : Bytes) (s : State) :
    (∃ g, cfg.gen.seed seed s.gen.content = some g ∧ seedWith cfg seed s = complete (s.setGen cfg g).release) ∨
    (cfg.gen.seed seed s.gen.content = none ∧ seedWith cfg seed s = raise (s.scrambleGen cfg).release .backend 17) := by
  cases h : cfg.gen.seed seed s.gen.content with
  | none => exact .inr ⟨rfl, by simp [seedWith, h, genFailed]⟩
  | some g => exact .inl ⟨g, rfl, by simp [seedWith, h]⟩

/-- The whole words of RNG_RAND_BYTES (R170 lines 4 to 8): the bytes and the state `wholePart` names, stored at the start
of the buffer. -/
theorem wholeWords_spec (cfg : Config) (base q : Nat) (s : State) :
    match wholePart cfg.gen q s.gen.content with
    | none => wholeWords cfg base q s = none
    | some (b, g) => b.length = 4 * q ∧ ∃ t, wholeWords cfg base q s = some t ∧ t.gen.content = g ∧
        t.gen.len = (if q = 0 then s.gen.len else g.length) ∧
        t = { s with mem := Memory.writeBytes cfg s.mem base b, gen := t.gen } := by
  unfold wholePart wholeWords
  by_cases hq : q = 0
  · subst hq
    exact ⟨rfl, s, rfl, rfl, rfl, rfl⟩
  · simp only [hq, if_false]
    cases h : genWords cfg.gen q s.gen.content with
    | none => rfl
    | some r => exact ⟨by simp [genWords_length h], _, rfl, by simp, rfl, rfl⟩

/-- The tail of RNG_RAND_BYTES (R170 lines 9 to 13). -/
theorem tailWord_spec (cfg : Config) (base t : Nat) (ht : t ≤ 4) (s : State) :
    match tailPart cfg.gen t s.gen.content with
    | none => tailWord cfg base t s = none
    | some (b, g) => b.length = t ∧ ∃ u, tailWord cfg base t s = some u ∧ u.gen.content = g ∧
        u = { s with mem := Memory.writeBytes cfg s.mem base b, gen := u.gen } := by
  unfold tailPart tailWord
  by_cases hz : t = 0
  · subst hz
    exact ⟨rfl, s, rfl, rfl, rfl⟩
  · simp only [hz, if_false]
    cases h : genWords cfg.gen 1 s.gen.content with
    | none => rfl
    | some r => exact ⟨by simp [genWords_length h]; omega, _, rfl, by simp, rfl⟩

/-- Two stores one after the other are one store of the two strings joined. -/
theorem writeBytes_append (cfg : Config) (m : Memory) (base : Nat) (a b : Bytes) :
    Memory.writeBytes cfg (Memory.writeBytes cfg m base a) (base + a.length) b =
      Memory.writeBytes cfg m base (a ++ b) := by
  induction a generalizing m base with
  | nil => rfl
  | cons x a ih =>
    rw [List.cons_append, Memory.writeBytes, Memory.writeBytes, ← ih]
    simp [Nat.add_assoc, Nat.add_comm 1]

/-- Lines 3 to 14 of R170 as values: the bytes `randomFill` names, stored at the buffer, and success; or free bytes over
the whole buffer, `GEN` unspecified of the length it has at the failing call, and E_BACKEND 19. -/
theorem fillRandom_spec (cfg : Config) (buf len : Nat) (s : State) :
    match randomFill cfg.gen len s.gen.content with
    | some (out, g) => out.length = len ∧ ∃ gen, gen.content = g ∧
        fillRandom cfg buf len s =
          complete { s with mem := Memory.writeBytes cfg s.mem buf out, gen := gen, lockOwner := none }
    | none => ∃ m gen draws,
        fillRandom cfg buf len s =
          raise { s with mem := m, gen := gen, draws := draws, lockOwner := none } .backend 19 ∧
        gen.len = (match wholePart cfg.gen (len / 4) s.gen.content with
          | none => s.gen.len
          | some (_, g) => if len / 4 = 0 then s.gen.len else g.length) ∧
        ∀ x, x < buf ∨ buf + len ≤ x → Memory.read cfg m x = Memory.read cfg s.mem x := by
  have hw := wholeWords_spec cfg buf (len / 4) s
  unfold randomFill fillRandom
  cases h1 : wholePart cfg.gen (len / 4) s.gen.content with
  | none =>
    rw [h1] at hw
    dsimp only at hw ⊢
    rw [hw]
    exact ⟨_, _, _, rfl, rfl, fun x hx => read_writeBytes_outside _ _ _ _ (by simpa using hx)⟩
  | some r =>
    obtain ⟨b1, g1⟩ := r
    rw [h1] at hw
    obtain ⟨l1, s1, e1, rfl, n1, hs1⟩ := hw
    dsimp only
    rw [e1]
    have ht := tailWord_spec cfg (buf + 4 * (len / 4)) (len % 4) (by omega) s1
    cases h2 : tailPart cfg.gen (len % 4) s1.gen.content with
    | none =>
      rw [h2] at ht
      dsimp only at ht ⊢
      rw [ht]
      refine ⟨_, _, _, by rw [hs1]; rfl, ?_, fun x hx => ?_⟩
      · exact n1
      rw [hs1]
      exact (read_writeBytes_outside _ _ _ _ (by simpa using hx)).trans
        (read_writeBytes_outside _ _ _ _ (by rw [l1]; omega))
    | some r2 =>
      obtain ⟨b2, g2⟩ := r2
      rw [h2] at ht
      obtain ⟨l2, s2, e2, rfl, hs2⟩ := ht
      dsimp only
      rw [e2]
      refine ⟨by simp [l1, l2]; omega, s2.gen, rfl, ?_⟩
      rw [hs2, hs1, ← l1]
      dsimp only
      rw [writeBytes_append]
      rfl

end Sys2Proof.Machine
end

