-- ==== Sys2Proof/Tests/Slice0.lean ====
section
/-! SUPPORT. Tests of the model's author. The expected values are the spec's: the words are written out from R90 and R92,
the vectors are those of 95_test_vectors.md, run on its TOY fixture. After them, for every statement that has hypotheses, a
witness that meets them. -/

namespace Sys2Proof.Tests

open Sys2Proof.Machine

/-! ### WellFormed: an ill-formed term for each check -/

theorem test_wf_slot_must_exist : (Instr.aeadReset 2).wf 2 = false := by decide
theorem test_wf_slot_must_fit_the_field : (Instr.aeadReset 256).wf 300 = false := by decide
theorem test_wf_last_slot : (Instr.aeadDestroy 255).wf 256 = true := by decide
theorem test_wf_rng : Instr.rngLock.wf 1 = true := by decide

/-! ### Decoding: every row of the opcode map, from a word written out, and the vectors V-D1 to V-D13 -/

theorem test_decode_construct_stream : decode 2 0x00000010 = .ok (.aeadConstruct 0 .stream) := by decide
theorem test_decode_construct_counter : decode 2 0x00010110 = .ok (.aeadConstruct 1 .counter) := by decide
theorem test_decode_reset : decode 2 0x00000111 = .ok (.aeadReset 1) := by decide
theorem test_decode_aad : decode 2 0x00000012 = .ok (.aeadAad 0) := by decide
theorem test_decode_encrypt : decode 2 0x00000113 = .ok (.aeadEncrypt 1) := by decide
theorem test_decode_decrypt : decode 2 0x00000114 = .ok (.aeadDecrypt 1) := by decide
theorem test_decode_auth_tag : decode 2 0x00000015 = .ok (.aeadAuthTag 0) := by decide
theorem test_decode_destroy : decode 256 0x0000FF16 = .ok (.aeadDestroy 255) := by decide
theorem test_decode_seed : decode 2 0x00000020 = .ok .rngSeed := by decide
theorem test_decode_random_seed : decode 2 0x00000021 = .ok .rngRandomSeed := by decide
theorem test_decode_rand_bytes : decode 2 0x00000022 = .ok .rngRandBytes := by decide
theorem test_decode_rand_u32 : decode 2 0x00000023 = .ok .rngRandU32 := by decide
theorem test_decode_rand_u64 : decode 2 0x00000024 = .ok .rngRandU64 := by decide
theorem test_decode_lock : decode 2 0x00000025 = .ok .rngLock := by decide
theorem test_decode_unlock : decode 2 0x00000026 = .ok .rngUnlock := by decide
theorem test_decode_ctx : decode 2 0x00000027 = .ok .rngCtx := by decide
theorem test_decode_shutdown : decode 2 0x00000028 = .ok .rngShutdown := by decide

/-- V-D5 to V-D13 on a block with 2 slots. -/
theorem test_decode_illegal_words :
    decode 2 0x00000000 = .error .unknownOpcode ∧ decode 2 0x00000017 = .error .unknownOpcode ∧
    decode 2 0x00020011 = .error .reservedBits ∧ decode 2 0x00010011 = .error .misplacedMode ∧
    decode 2 0x00000211 = .error .noSuchSlot ∧ decode 2 0x00000123 = .error .misplacedRngField ∧
    decode 2 0x00010023 = .error .misplacedRngField ∧ decode 2 0x80000010 = .error .reservedBits ∧
    decode 2 0x0000FF16 = .error .noSuchSlot := by decide

theorem test_encode_construct : encode (.aeadConstruct 1 .counter) = 0x00010110 := by decide
theorem test_table_word : decodeTableWord 32 0x10113 = none ∧ decodeTableWord 32 0x113 = some (.aeadEncrypt 1) := by
  decide

/-! ### The TOY fixture (95_test_vectors.md section 2) -/

/-- A byte string cut or filled up with zeros to `n` bytes. -/
def fit (n : Nat) (b : Bytes) : Vector Byte n := ⟨⟨b.takeD n 0⟩, by simp⟩

def rotl8 (x : Byte) : Byte := (x <<< 1) ||| (x >>> 7)

def xorAll (b : Bytes) : Byte := b.foldl (· ^^^ ·) 0

/-- `ACC` after absorbing bytes. -/
def absorb (acc : Byte) (b : Bytes) : Byte := b.foldl (fun a x => rotl8 a ^^^ x) acc

/-- Output bytes, `CTR` and `ACC` of a transform; `seen` picks the byte that goes into `ACC`. -/
def toyCrypt (k n : Byte) (encrypting : Bool) : Bytes → Byte → Byte → Bytes × Byte × Byte
  | [], ctr, acc => ([], ctr, acc)
  | x :: xs, ctr, acc =>
    let y := x ^^^ (k + n + ctr)
    let r := toyCrypt k n encrypting xs (ctr + 1) (rotl8 acc ^^^ (if encrypting then y else x))
    (y :: r.1, r.2)

def toyTransform (encrypting : Bool) (inp bs : Bytes) : Option (Vector Byte inp.length × Vector Byte bs.length) :=
  match bs with
  | [k, n, ctr, acc, tl, ml, z, z'] =>
    if inp.length > 4096 then none
    else
      let r := toyCrypt k n encrypting inp ctr acc
      some (fit _ r.1, fit _ [k, n, r.2.1, r.2.2, tl, ml, z, z'])
  | _ => none

/-- T1: both modes. -/
def toyBackend : Backend where
  stateSize := 8
  init key n :=
    if key.length = 16 ∨ key.length = 24 ∨ key.length = 32 then some (fit n [xorAll key, 0, 0, 0, 0, 0, 0, 0]) else none
  resetIv nonce bs :=
    if nonce.length > 16 then none
    else some (fit _ [bs.getD 0 0, xorAll nonce, 0, xorAll nonce, bs.getD 4 0, 0, 0, 0])
  processAad d bs := some (fit _ (bs.set 3 (absorb (bs.getD 3 0) d)))
  encryptBlock := toyTransform true
  decryptBlock := toyTransform false
  getTag n bs :=
    some (fit n ((List.range n).map fun i => bs.getD 3 0 + bs.getD 0 0 + BitVec.ofNat 8 (17 * i)), fit _ bs)

def toyCounter : CounterBackend where
  toBackend := toyBackend
  setTagLen n bs :=
    if n = 4 ∨ n = 6 ∨ n = 8 ∨ n = 10 ∨ n = 12 ∨ n = 14 ∨ n = 16 then
      some (fit _ (bs.set 4 (BitVec.ofNat 8 n.toNat)))
    else none
  setMsgLen m bs := some (fit _ (bs.set 5 (BitVec.ofNat 8 m)))

/-- A little-endian word of a generator state. -/
def wordAt (g : Bytes) (i : Nat) : Word :=
  (g.getD (i + 3) 0) ++ (g.getD (i + 2) 0) ++ (g.getD (i + 1) 0) ++ (g.getD i 0)

def foldBytes (a : Word) (b : Bytes) : Word := b.foldl (fun a x => a * 33 + x.setWidth 32) a

def toyWords (a : Word) : (n : Nat) → Word → Vector Word n × Word
  | 0, x => (#v[], x)
  | n + 1, x =>
    let y := x * 1664525 + 1013904223
    let r := toyWords a n y
    (⟨⟨(y ^^^ a) :: r.1.toList⟩, by simp⟩, r.2)

/-- T2. -/
def toyGen : Gen where
  create bits := if bits < 512 then none else some (le32 1 ++ le32 0)
  seed b g := some (le32 (foldBytes (wordAt g 0) b) ++ g.drop 4)
  augment b g := some (g.take 4 ++ le32 (foldBytes 0 b))
  words n g := let r := toyWords (wordAt g 4) n (wordAt g 0); some (r.1, le32 r.2 ++ g.drop 4)

def keyBytes : Bytes := [0x75, 0x73, 0x65, 0x20, 0x61, 0x20, 0x31, 0x36, 0x20, 0x62, 0x20, 0x6B, 0x65, 0x79, 0x21, 0x21]

def nonceBytes : Bytes :=
  [0x74, 0x68, 0x65, 0x20, 0x6E, 0x6F, 0x6E, 0x63, 0x65, 0x21, 0x21, 0x21, 0x01, 0x02, 0x03, 0x04, 0x05]

def aadBytes : Bytes :=
  [0x74, 0x68, 0x69, 0x73, 0x20, 0x69, 0x73, 0x20, 0x74, 0x68, 0x65, 0x20, 0x61, 0x64, 0x64, 0x69, 0x74, 0x69, 0x6F,
   0x6E, 0x61, 0x6C, 0x20, 0x64, 0x61, 0x74, 0x61]

def plainBytes : Bytes :=
  [0x6C, 0x69, 0x6E, 0x65, 0x20, 0x6F, 0x6E, 0x65, 0x0A, 0x6C, 0x69, 0x6E, 0x65, 0x20, 0x74, 0x77, 0x6F, 0x0A]

def cipherBytes : Bytes :=
  [0x4D, 0x4B, 0x4D, 0x41, 0x05, 0x49, 0x49, 0x4D, 0x23, 0x46, 0x42, 0x42, 0x48, 0x0E, 0x5B, 0x47, 0x5E, 0x38]

/-- T4, with the ciphertext of P1 at 0x3000; every other byte is 0xEE. -/
def toyMemory (a : Nat) : Byte :=
  let at' (base : Nat) (b : Bytes) : Option Byte := if base ≤ a then b[a - base]? else none
  ((at' 0x1000 keyBytes).orElse fun _ => (at' 0x1100 nonceBytes).orElse fun _ => (at' 0x1200 aadBytes).orElse fun _ =>
    (at' 0x2000 plainBytes).orElse fun _ => (at' 0x3000 cipherBytes).orElse fun _ => at' 0x5000 [0x61, 0x62, 0x63]).getD
    0xEE

/-- The defaults of R7, the TOY records, all sources failing and a clock that shows 0. -/
def toy : Config where
  ctrMsgLenMax := 65535
  seedBitsOver512 := 0
  fallbackConst := fit 64 ((List.range 64).map (BitVec.ofNat 8))
  clkMixLess1 := 7
  tagZeroBeforeValidate := false
  genContextless := false
  genHandleLess1 := 0
  portBase := 0
  stream := toyBackend
  counter := toyCounter
  gen := toyGen
  trng _ := none
  hprng _ := none
  kdev _ := .fail
  clock _ := 0
  freeByte _ _ := 0x5C
  schedule _ := 0
  launchByte := toyMemory
  capSlack _ _ := 0

/-- Port 0 with a command in flight. -/
def port0 (w : Word) (a : Args) : Port := { Port.idle with status := statusPending, args := a, pending := some ⟨w, a⟩ }

/-- A command of port 0 in flight on a block of two ports, slot 0 as given. -/
def inFlight (w : Word) (a : Args) (sl : Slot) : State :=
  { State.reset with ports := [port0 w a, .idle], slots := [sl, .empty] }

/-- The same with the engine created, `GEN` as given. -/
def onGen (w : Word) (a : Args) (g : Bytes) : State :=
  { inFlight w a .empty with created := true, gen := ⟨g, g.length⟩ }

/-- What a test looks at, in the next state. -/
def seen {α : Type} (r : Result) (f : State → α) : Option α :=
  match r with
  | .next t => some (f t)
  | .fault _ | .refused _ => none

def status0 (t : State) : Word × Word := (t.curPort.status, t.curPort.errinfo)

def bytesOf (t : State) (base n : Nat) : Bytes := t.load toy base n

def liveSlot (ph : Phase) (m : Mode) (tl : Word) (bs : Bytes) : Slot := ⟨ph, m, false, tl, ⟨bs, bs.length⟩⟩

def streamReset : Slot := liveSlot .reset .stream 0 [0x10, 0x11, 0, 0x11, 0, 0, 0, 0]

def counterReset : Slot := liveSlot .reset .counter 8 [0x10, 0x55, 0, 0x55, 8, 0xFF, 0, 0]

/-! ### AEAD vectors (95_test_vectors.md section 4) -/

/-- V-A2. -/
theorem test_construct_counter :
    seen (aeadConstruct toy 0 .counter (inFlight 0x00010010 ⟨0x1000, 16, 8, 0⟩ .empty))
      (fun t => (status0 t, t.slots[0]?)) =
    some ((0, 0), some ⟨.constructed, .counter, false, 8, ⟨[0x10, 0, 0, 0, 8, 0, 0, 0], 8⟩⟩) := by decide +kernel

/-- P2 step 13: the live session is destroyed, then `set_tag_len(7)` fails. -/
theorem test_construct_bad_tag_length :
    seen (aeadConstruct toy 0 .counter (inFlight 0x00010010 ⟨0x1000, 16, 7, 0⟩ streamReset))
      (fun t => (status0 t, t.slots[0]?)) = some ((4, 3), some .empty) := by decide +kernel

/-- V-A24 (`ML` = 65535 mod 256). -/
theorem test_reset_counter :
    seen (aeadReset toy 0 (inFlight 0x11 ⟨0x1100, 8, 0, 0⟩ (liveSlot .constructed .counter 8 [0x10, 0, 0, 0, 8, 0, 0, 0])))
      (fun t => (status0 t, t.slots[0]?)) = some ((0, 0), some counterReset) := by decide +kernel

/-- V-A18: `reset_iv` rejects 17 bytes. -/
theorem test_reset_rejected_nonce :
    seen (aeadReset toy 0 (inFlight 0x11 ⟨0x1100, 17, 0, 0⟩ streamReset))
      (fun t => (status0 t, (t.slots[0]?).map fun sl => (sl.phase, sl.aadf, sl.bstate.len))) =
    some ((4, 4), some (.failed, false, 8)) := by decide +kernel

/-- V-A34. -/
theorem test_aad_appends :
    seen (aeadAad toy 0 (inFlight 0x12 ⟨0x1200, 27, 0, 0⟩ streamReset)) (fun t => (status0 t, t.slots[0]?)) =
    some ((0, 0), some ⟨.assocData, .stream, true, 0, ⟨[0x10, 0x11, 0, 0x44, 0, 0, 0, 0], 8⟩⟩) := by decide +kernel

/-- P2 step 8: E_UNSUPPORTED wins over the phase. -/
theorem test_aad_counter :
    seen (aeadAad toy 0 (inFlight 0x12 ⟨0x1200, 27, 0, 0⟩ (liveSlot .tagExtracted .counter 8 [0, 0, 0, 0, 0, 0, 0, 0])))
      status0 = some (3, 0) := by decide +kernel

/-- V-A10, with the output at 0x6000, where this memory holds 0xEE; the bytes after it are untouched. -/
theorem test_encrypt :
    seen (aeadEncrypt toy 0 (inFlight 0x13 ⟨0x2000, 5, 0x6000, 8⟩ streamReset))
      (fun t => (status0 t, t.slots[0]?, bytesOf t 0x6000 8)) =
    some ((0, 0), some (liveSlot .transforming .stream 0 [0x10, 0x11, 5, 0x1E, 0, 0, 0, 0]),
      [0x4D, 0x4B, 0x4D, 0x41, 0x05, 0xEE, 0xEE, 0xEE]) := by decide +kernel

/-- V-A9: the capacity 0xFFFFFFFF is -1. -/
theorem test_encrypt_negative_capacity :
    seen (aeadEncrypt toy 0 (inFlight 0x13 ⟨0x2000, 5, 0x6000, 0xFFFFFFFF⟩ streamReset))
      (fun t => (status0 t, t.slots[0]?, t.mem)) = some ((2, 0), some streamReset, []) := by decide +kernel

/-- P1 step 12: in place, with spare capacity. -/
theorem test_decrypt_in_place :
    seen (aeadDecrypt toy 0 (inFlight 0x14 ⟨0x3000, 18, 0x3000, 32⟩
      (liveSlot .reset .stream 0 [0x10, 0x11, 0, 0x44, 0, 0, 0, 0])))
      (fun t => (status0 t, t.slots[0]?, bytesOf t 0x3000 19)) =
    some ((0, 0), some (liveSlot .transforming .stream 0 [0x10, 0x11, 0x12, 0x66, 0, 0, 0, 0]), plainBytes ++ [0xEE]) := by
  decide +kernel

/-- R69: ranges that overlap without starting at the same address have no next state. -/
theorem test_decrypt_partial_overlap :
    (match aeadDecrypt toy 0 (inFlight 0x14 ⟨0x3000, 4, 0x3003, 4⟩ streamReset) with
      | .refused r => decide (r = .partialOverlap)
      | .next _ | .fault _ => false) = true := by decide +kernel

/-- V-A25. -/
theorem test_auth_tag :
    seen (aeadAuthTag toy 0 (inFlight 0x15 ⟨0x4010, 8, 0, 0⟩ counterReset))
      (fun t => (status0 t, (t.slots[0]?).map Slot.phase, bytesOf t 0x4010 9)) =
    some ((0, 0), some .tagExtracted, [0x65, 0x76, 0x87, 0x98, 0xA9, 0xBA, 0xCB, 0xDC, 0xEE]) := by decide +kernel

/-- V-A31 with `TAG_ZERO_BEFORE_VALIDATE` true. -/
theorem test_auth_tag_early_zero :
    seen (aeadAuthTag { toy with tagZeroBeforeValidate := true } 0 (inFlight 0x15 ⟨0x4000, 16, 0, 0⟩ counterReset))
      (fun t => (status0 t, t.slots[0]?, bytesOf t 0x4000 17)) =
    some ((1, 0), some counterReset, List.replicate 16 0 ++ [0xEE]) := by decide +kernel

/-- V-A29. -/
theorem test_destroy :
    seen (aeadDestroy 0 (inFlight 0x16 ⟨0, 0, 0, 0⟩ streamReset)) (fun t => (status0 t, t.slots[0]?)) =
    some ((0, 0), some .empty) := by decide +kernel

/-! ### RNG vectors (section 5) -/

/-- `GEN` with `X` and `A` as the vectors write it. -/
def genXA (x a : Word) : Bytes := le32 x ++ le32 a

/-- V-R8. -/
theorem test_seed :
    seen (rngSeed toy (onGen 0x20 ⟨0x5000, 3, 0, 0⟩ (genXA 0x5E8885DB 0x58296F00)))
      (fun t => (status0 t, t.gen.content, t.lockOwner)) =
    some ((0, 0), genXA 0x7AF025A1 0x58296F00, none) := by decide +kernel

/-- V-R2: the length is -5; the engine stays absent. -/
theorem test_seed_negative_length :
    seen (rngSeed toy (inFlight 0x20 ⟨0x5000, 0xFFFFFFFB, 0, 0⟩ .empty)) (fun t => (status0 t, t.created)) =
    some ((1, 0), false) := by decide +kernel

/-- The scripts of V-R11. -/
def toyR11 : Config :=
  { toy with
    trng := fun k => if k = 0 then none else some (fit 64 (List.replicate 64 0x77))
    clock := fun k => if k = 0 then 5 else 9 }

/-- V-R11: two draws. -/
theorem test_random_seed :
    seen (rngRandomSeed toyR11 (inFlight 0x21 ⟨0, 0, 0, 0⟩ .empty)) (fun t => (status0 t, t.gen.content)) =
    some ((0, 0), genXA 0x940C1CE8 0x58325B45) := by decide +kernel

/-- V-R7. -/
theorem test_rand_bytes :
    seen (rngRandBytes { toy with clock := fun _ => 0x0123456789ABCDEF } (inFlight 0x22 ⟨0x6000, 6, 0, 0⟩ .empty))
      (fun t => (status0 t, bytesOf t 0x6000 7, t.gen.content)) =
    some ((0, 0), [0x6C, 0x36, 0xA1, 0x64, 0xDB, 0xEA, 0xEE], genXA 0x5E8885DB 0x58296F00) := by decide +kernel

/-- V-R6 with n = 3: one word, from `GEN` right after creation. -/
theorem test_rand_bytes_tail :
    seen (rngRandBytes toy (onGen 0x22 ⟨0x6000, 3, 0, 0⟩ (genXA 1 0x1C7C1FE0)))
      (fun t => (bytesOf t 0x6000 4, t.gen.content)) =
    some ([0x8C, 0x46, 0xF4, 0xEE], genXA 0x3C88596C 0x1C7C1FE0) := by decide +kernel

/-- V-R3. -/
theorem test_rand_u32 :
    seen (rngRandU32 toy (inFlight 0x23 ⟨0, 0, 0, 0⟩ .empty))
      (fun t => (status0 t, t.curPort.ret0, t.gen.content, t.created, t.lockOwner)) =
    some ((0, 0), 0x20F4468C, genXA 0x3C88596C 0x1C7C1FE0, true, none) := by decide +kernel

/-- V-R12: TOY-CF. -/
theorem test_rand_u32_no_engine :
    seen (rngRandU32 { toy with gen := { toyGen with create := fun _ => none } } (inFlight 0x23 ⟨0, 0, 0, 0⟩ .empty))
      (fun t => (status0 t, t.created, t.gen, t.lockOwner, t.env)) =
    some ((5, 16), false, .new, none, ⟨0, 0, 0, 0, 0⟩) := by decide +kernel

/-- V-R5. -/
theorem test_rand_u64 :
    seen (rngRandU64 toy (inFlight 0x24 ⟨0, 0, 0, 0⟩ .empty)) (fun t => (status0 t, t.curPort.ret0, t.curPort.ret1)) =
    some ((0, 0), 0x20F4468C, 0x42F49A3B) := by decide +kernel

/-- V-R17. -/
theorem test_lock :
    seen (rngLock toy (inFlight 0x25 ⟨0, 0, 0, 0⟩ .empty)) (fun t => (status0 t, t.created, t.lockOwner, t.gen.content)) =
    some ((0, 0), true, some 0, genXA 1 0x1C7C1FE0) := by decide +kernel

/-- V-R18: the owner's own second command is held, and nothing changes. -/
theorem test_lock_held :
    let s := { onGen 0x25 ⟨0, 0, 0, 0⟩ (genXA 1 0) with lockOwner := some 0 }
    seen (rngLock toy s) (fun t => decide (t = s)) = some true := by decide +kernel

/-- V-R13. -/
theorem test_unlock_by_no_owner :
    seen (rngUnlock (inFlight 0x26 ⟨0, 0, 0, 0⟩ .empty)) (fun t => (status0 t, t.created, t.lockOwner)) =
    some ((6, 0), false, none) := by decide +kernel

/-- R178's example. -/
theorem test_unlock :
    seen (rngUnlock { onGen 0x26 ⟨0, 0, 0, 0⟩ (genXA 1 0) with lockOwner := some 0 }) (fun t => (status0 t, t.lockOwner)) =
    some ((0, 0), none) := by decide +kernel

/-- V-R10 and V-P6: `RET[1]` stays. -/
theorem test_ctx :
    let s := onGen 0x27 ⟨0, 0, 0, 0⟩ (genXA 1 0)
    seen (rngCtx toy (s.setRet1 0x42F49A3B)) (fun t => (status0 t, t.curPort.ret0, t.curPort.ret1)) =
    some ((0, 0), 1, 0x42F49A3B) := by decide +kernel

/-- V-R10, contextless. -/
theorem test_ctx_contextless :
    seen (rngCtx { toy with genContextless := true } ((onGen 0x27 ⟨0, 0, 0, 0⟩ (genXA 1 0)).setRet0 7))
      (fun t => t.curPort.ret0) = some 0 := by decide +kernel

/-- V-R14. -/
theorem test_shutdown :
    seen (rngShutdown (onGen 0x28 ⟨0, 0, 0, 0⟩ (genXA 1 0))) (fun t => (status0 t, t.created, t.gen)) =
    some ((0, 0), false, .new) := by decide +kernel

/-- V-R16. -/
theorem test_shutdown_no_engine :
    seen (rngShutdown (inFlight 0x28 ⟨0, 0, 0, 0⟩ .empty)) (fun t => (status0 t, t.created, t.gen, t.lockOwner)) =
    some ((0, 0), false, .new, none) := by decide +kernel

/-! ### The entropy chain, the Secure Buffer and the ports (sections 6 to 8) -/

/-- V-C3: three `KDEV` requests. -/
theorem test_chain_kdev_retries :
    let d := chainDraw { toy with kdev := fun _ => .retry (.retry (.ok (fit 64 (List.replicate 64 0x22))))
                                  clock := fun _ => 0xFF } ⟨0, 0, 0, 0, 0⟩
    (d.1, d.2.kdevReqs) = (0xDD :: List.replicate 63 0x22, 3) := by decide +kernel

/-- V-C6. -/
theorem test_chain_three_clock_bytes :
    (chainDraw { toy with kdev := fun _ => .retry .fail, clkMixLess1 := 2, clock := fun _ => 0x0123456789ABCDEF }
      ⟨0, 0, 0, 0, 0⟩).1.take 5 = [0xEF, 0xCC, 0xA9, 0x03, 0x04] := by decide +kernel

/-- V-S1. -/
theorem test_buffer_shrink :
    SecBuf.resize toy ⟨[0xAA, 0xBB, 0xCC, 0xDD, 0, 0, 0, 0], 4⟩ 2 = ⟨[0xAA, 0xBB, 0, 0, 0, 0, 0, 0], 2⟩ := by decide

/-- V-S4. -/
theorem test_buffer_grow_with_fill :
    SecBuf.resizeFill toy ⟨[0xAA, 0xBB, 0, 0, 0, 0, 0, 0], 2⟩ 5 0x5A =
    ⟨[0xAA, 0xBB, 0x5A, 0x5A, 0x5A, 0, 0, 0], 5⟩ := by decide

/-- V-S7, with two spare bytes. -/
theorem test_buffer_append_to_full :
    SecBuf.append { toy with capSlack := fun _ _ => 2 } ⟨[0xAA, 0xBB, 0xCC, 0xDD], 4⟩ 0xEE =
    ⟨[0xAA, 0xBB, 0xCC, 0xDD, 0xEE, 0, 0], 5⟩ := by decide

/-- V-P2: `ARG[0]` of port 0. -/
theorem test_register_write :
    seen (regWrite toy 0 0x10 4 0x1234 State.reset) (fun t => (t.ports[0]?).map fun p => p.args.a0) =
    some (some 0x1234) := by decide +kernel

/-- V-P3: a write to `CMD` of a busy port is ignored. -/
theorem test_busy_port_ignores_command :
    let s := { State.reset with ports := [.idle, port0 0x23 ⟨0, 0, 0, 0⟩] }
    seen (regWrite toy 1 0x40 4 0x16 s) (fun t => decide (t.ports = s.ports)) = some true := by decide +kernel

/-- R94, R131: a pending AEAD_RESET without associated data does not own the byte its `ARG[2]` names. -/
theorem test_write_over_ignored_operand :
    seen (memWrite toy 0x3000 [1, 2, 3] (inFlight 0x11 ⟨0x2000, 1, 0x3001, 0⟩ streamReset))
      (fun t => bytesOf t 0x3000 3) = some [1, 2, 3] := by decide +kernel

/-- D19: a requester's access needs no provided memory. -/
theorem test_read_where_nothing_is_provided :
    seen (memRead toy 0x1000 2 { State.reset with regions := [] }) (fun t => t.delivered) =
    some (.bytes [0x75, 0x73]) := by decide +kernel

/-- R281: the output range of an abandoned command whose capacity is too small is unspecified too: a value was drawn
for it. -/
theorem test_hard_reset_output_unspecified :
    (hardReset toy (inFlight 0x13 ⟨0x2000, 5, 0x3000, 4⟩ streamReset)).draws = 1 := by decide +kernel

/-- V-P5: hardware reset while a command is held. -/
theorem test_hard_reset :
    let t := hardReset toy { onGen 0x23 ⟨0, 0, 0, 0⟩ (genXA 1 0) with lockOwner := some 1 }
    (t.ports, t.lockOwner, t.created, t.gen) = ([.idle, .idle], none, false, .new) := by decide +kernel

/-- R96: the step of an illegal word, on the hardware's own configuration. -/
theorem test_step_illegal_word :
    seen (step (State.reset.withFetchWord 32 0x17)) (fun t => (status0 t, t.slots, t.created)) =
    some ((7, 0), [.empty, .empty], false) := by decide +kernel

/-! ### Witnesses: for every statement with hypotheses, states and operands that meet them, each clause at a boundary

The configuration of the hardware has no body, so a witness is about the state and the operands alone. -/

/-- A state whose next move is `m`. -/
def moving (m : Move) (s : State) : State := { s with agenda := [m] }

/-- Two ports with commands pending. -/
def twoPending (w v : Word) (a b : Args) (sl : Slot) : State :=
  { State.reset with ports := [port0 w a, port0 v b], slots := [sl, .empty] }

def noArgs : Args := ⟨0, 0, 0, 0⟩

/-- The last slot of the largest block. -/
theorem witness_DecodeOfEncodedCommand : (Instr.aeadConstruct 255 .counter).wf 256 = true ∧ Instr.rngSeed.wf 1 = true := by
  decide

theorem witness_EncodeOfDecodedWord : decode 256 0x0001FF10 = .ok (.aeadConstruct 255 .counter) := by decide

theorem witness_StepRunsTheServedCommand :
    let s := moving (.serve 0) (inFlight 0x16 noArgs streamReset)
    s.agenda = [.serve 0] ∧ s.slotClash = false ∧ s.pendingAt 0 = some ⟨0x16, noArgs⟩ ∧
      decode s.slots.length 0x16 = .ok (.aeadDestroy 0) := by decide

theorem witness_ControllerServesSomeWaitingPort :
    (State.reset.agenda = [] ∧ State.reset.slotClash = false ∧ State.reset.waiting = []) ∧
    (let s := inFlight 0x16 noArgs streamReset
     s.agenda = [] ∧ s.slotClash = false ∧ s.waiting ≠ []) ∧
    (let s := inFlight 0x17 noArgs streamReset
     s.agenda = [] ∧ s.slotClash = false ∧ s.waiting ≠ []) := by decide

theorem witness_FetchedWordRunsNext :
    0x113 < 2 ^ 32 ∧ 0 < State.reset.ports.length ∧ (State.reset.withFetchWord 32 0x113).slotClash = false ∧
      decode State.reset.slots.length (BitVec.ofNat 32 0x113) = .ok (.aeadEncrypt 1) := by decide

theorem witness_IllegalWordEndsWithEIllegal :
    let s := moving (.serve 0) (inFlight 0x80000010 noArgs streamReset)
    s.agenda = [.serve 0] ∧ s.slotClash = false ∧ s.pendingAt 0 = some ⟨0x80000010, noArgs⟩ ∧
      decode s.slots.length 0x80000010 = .error .reservedBits := by decide

theorem witness_SlotClashHasNoNextState :
    let s := twoPending 0x11 0x16 noArgs noArgs streamReset
    0 < 1 ∧ s.pendingAt 0 = some ⟨0x11, noArgs⟩ ∧ s.pendingAt 1 = some ⟨0x16, noArgs⟩ ∧
      decode s.slots.length 0x11 = .ok (.aeadReset 0) ∧ decode s.slots.length 0x16 = .ok (.aeadDestroy 0) ∧
      (Instr.aeadReset 0).slot? = some 0 ∧ (Instr.aeadDestroy 0).slot? = some 0 := by decide

/-- A state in which a step does something, and what it does: it serves an AEAD_DESTROY. -/
def destroying : State := moving (.serve 0) (inFlight 0x16 noArgs .empty)

def destroyed : State := complete { inFlight 0x16 noArgs .empty with agenda := [] }

theorem witness_step : step destroying = .next destroyed := rfl

theorem witness_MemoryStaysCanonical : destroying.MemOk ∧ step destroying = .next destroyed := ⟨rfl, rfl⟩

theorem empty_slots_ok (s : State) (h : s.slots = [.empty, .empty]) : s.SlotsOk := by
  intro sl hsl
  rw [h] at hsl
  have e : sl = .empty := by simpa using hsl
  subst e
  exact ⟨rfl, fun _ => rfl, fun h => absurd rfl h, fun h => (nomatch h), fun h => (nomatch h), fun h => (nomatch h),
    fun _ => rfl⟩

theorem witness_SlotsKeepTheirInvariant : destroying.SlotsOk ∧ step destroying = .next destroyed :=
  ⟨empty_slots_ok _ rfl, rfl⟩

theorem witness_PortsKeepTheirInvariant : destroying.PortsOk ∧ step destroying = .next destroyed := by
  refine ⟨fun p hp => ?_, rfl⟩
  have h : p = port0 0x16 noArgs ∨ p = .idle := by simpa [destroying, moving, inFlight] using hp
  rcases h with rfl | rfl <;> (unfold Port.ok; decide)

theorem witness_RngUnitKeepsItsInvariant : destroying.RngOk ∧ step destroying = .next destroyed :=
  ⟨⟨rfl, fun _ => rfl, fun _ h => (nomatch h)⟩, rfl⟩

/-- Key length 0, on a live session. -/
theorem witness_ConstructRejectsNonPositiveKeyLength :
    let s := inFlight 0x10 ⟨0x1000, 0, 16, 0⟩ streamReset
    s.operands = some ⟨0x1000, 0, 16, 0⟩ ∧ s.slots[0]? = some streamReset ∧ s32 0 ≤ 0 := by decide

/-- Key length 1, a key that ends with the last byte of the address space. -/
theorem witness_ConstructInstallsKey :
    let s := inFlight 0x10 ⟨0xFFFFFFFF, 1, 16, 0⟩ .empty
    s.operands = some ⟨0xFFFFFFFF, 1, 16, 0⟩ ∧ s.slots[0]? = some .empty ∧
      (Slot.empty.phase = .unconstructed → Slot.empty = .empty) ∧ 0 < s32 1 ∧
      Accessible s (u32 0xFFFFFFFF) (byteCount 1) := by decide

/-- Clause by clause: an empty slot; StreamMode nonce length 0; CounterMode 7 and 13; associated-data length -1. -/
theorem witness_ResetRejectsInOrder :
    (inFlight 0x11 noArgs .empty).operands = some noArgs ∧ Slot.empty.phase = .unconstructed ∧
    (streamReset.phase ≠ .unconstructed ∧ streamReset.mode = .stream ∧ s32 0 < 1) ∧
    (counterReset.phase ≠ .unconstructed ∧ counterReset.mode = .counter ∧ s32 7 < 8 ∧ 12 < s32 13) ∧
    s32 0xFFFFFFFF < 0 := by decide

/-- StreamMode with nonce length 1, and CounterMode with 8 and with 12, no associated data and one byte of it; and two
ranges that overlap (R69, assumption 22). -/
theorem witness_ResetStartsMessage :
    (let s := inFlight 0x11 ⟨0x1100, 1, 0, 0⟩ streamReset
     s.operands = some ⟨0x1100, 1, 0, 0⟩ ∧ s.slots[0]? = some streamReset ∧ streamReset.phase ≠ .unconstructed ∧
       streamReset.mode = .stream ∧ 1 ≤ s32 1 ∧ 0 ≤ s32 0 ∧ Accessible s (u32 0x1100) (byteCount 1) ∧
       Accessible s (u32 0) (byteCount 0)) ∧
    (let s := inFlight 0x11 ⟨0x1100, 12, 0x1200, 1⟩ counterReset
     s.operands = some ⟨0x1100, 12, 0x1200, 1⟩ ∧ s.slots[0]? = some counterReset ∧
       counterReset.phase ≠ .unconstructed ∧ counterReset.mode = .counter ∧ (8 ≤ s32 8 ∧ s32 12 ≤ 12) ∧ 0 ≤ s32 1 ∧
       Accessible s (u32 0x1100) (byteCount 12) ∧ Accessible s (u32 0x1200) (byteCount 1)) ∧
    (let s := inFlight 0x11 ⟨0x1100, 8, 0x1104, 8⟩ counterReset
     s.operands = some ⟨0x1100, 8, 0x1104, 8⟩ ∧ s.slots[0]? = some counterReset ∧ (8 ≤ s32 8 ∧ s32 8 ≤ 12) ∧
       0 ≤ s32 8 ∧ Accessible s (u32 0x1100) (byteCount 8) ∧ Accessible s (u32 0x1104) (byteCount 8)) := by decide

theorem witness_CounterModeAadUnsupported :
    (let s := inFlight 0x12 noArgs counterReset
     s.operands = some noArgs ∧ s.slots[0]? = some counterReset ∧ counterReset.phase ≠ .unconstructed ∧
       counterReset.mode = .counter) ∧
    (let s := inFlight 0x12 noArgs .empty
     s.operands = some noArgs ∧ s.slots[0]? = some .empty ∧ Slot.empty.phase = .unconstructed) := by decide

theorem witness_StreamAadRejectsInOrder :
    (let s := inFlight 0x12 noArgs (liveSlot .transforming .stream 0 [1])
     s.operands = some noArgs ∧ s.slots[0]? = some (liveSlot .transforming .stream 0 [1]) ∧
       Phase.transforming ≠ .reset ∧ Phase.transforming ≠ .assocData) ∧
    (let s := inFlight 0x12 noArgs streamReset
     s.operands = some noArgs ∧ s.slots[0]? = some streamReset ∧ streamReset.mode = .stream ∧
       streamReset.phase = .reset ∧ s32 0 ≤ 0) := by decide

theorem witness_AadAppends :
    let s := inFlight 0x12 ⟨0xFFFFFFFF, 1, 0, 0⟩ streamReset
    s.operands = some ⟨0xFFFFFFFF, 1, 0, 0⟩ ∧ s.slots[0]? = some streamReset ∧ streamReset.mode = .stream ∧
      streamReset.phase = .reset ∧ 0 < s32 1 ∧ Accessible s (u32 0xFFFFFFFF) (byteCount 1) := by decide

/-- Clause by clause: TagExtracted; length 0; length 5 with capacity 4 and with capacity -1. -/
theorem witness_TransformRejectsInOrder :
    (let s := inFlight 0x13 noArgs (liveSlot .tagExtracted .stream 0 [1])
     s.operands = some noArgs ∧ s.slots[0]? = some (liveSlot .tagExtracted .stream 0 [1]) ∧
       Phase.tagExtracted.open = false) ∧
    (streamReset.phase.open = true ∧ s32 0 ≤ 0 ∧ s32 4 < s32 5 ∧ s32 0xFFFFFFFF < s32 5) := by decide

/-- Ranges that touch, capacity equal to the length; and the same range. -/
theorem witness_TransformMovesBytes :
    (let a : Args := ⟨0x2000, 5, 0x2005, 5⟩
     let s := inFlight 0x13 a streamReset
     s.operands = some a ∧ s.slots[0]? = some streamReset ∧ streamReset.phase.open = true ∧ 0 < s32 a.a1 ∧
       s32 a.a1 ≤ s32 a.a3 ∧ Accessible s (u32 a.a0) (byteCount a.a1) ∧ Accessible s (u32 a.a2) (byteCount a.a1) ∧
       u32 a.a0 + byteCount a.a1 ≤ u32 a.a2) ∧
    (let a : Args := ⟨0xFFFFFFFB, 5, 0xFFFFFFFB, 8⟩
     let s := inFlight 0x14 a counterReset
     s.operands = some a ∧ counterReset.phase.open = true ∧ 0 < s32 a.a1 ∧ s32 a.a1 ≤ s32 a.a3 ∧
       Accessible s (u32 a.a0) (byteCount a.a1) ∧ u32 a.a0 = u32 a.a2) := by decide

/-- Four bytes of ordinary memory at 0x2000 and four of a device at 0x3000; no other byte is provided. -/
def fourAndFour (s : State) : State := { s with regions := [⟨0x2000, 4, .ram⟩, ⟨0x3000, 4, .device⟩] }

/-- One byte past the top; one byte of the device; one byte past the four that are provided. -/
theorem witness_RangeStop (s : State) :
    RangeStop (fourAndFour s) 0xFFFFFFFC 5 .addressWrap ∧ RangeStop (fourAndFour s) 0x3003 1 .bufferOverDevice ∧
      RangeStop (fourAndFour s) 0x2000 5 .bufferNotProvided ∧ Accessible (fourAndFour s) 0x2000 4 := by
  refine ⟨rangeFault_eq_some_iff.1 ?_, rangeFault_eq_some_iff.1 ?_, rangeFault_eq_some_iff.1 ?_, ?_⟩ <;>
    (simp only [fourAndFour, Accessible]; decide)

/-- Clause by clause the conditions on operands and slot: the ranges are those of `witness_RangeStop`. -/
theorem witness_TransformStopsOnBadRanges :
    (let a : Args := ⟨0x2000, 5, 16, 0⟩
     let s := fourAndFour (inFlight 0x10 a .empty)
     s.operands = some a ∧ s.slots[0]? = some .empty ∧ 0 < s32 a.a1 ∧ u32 a.a0 = 0x2000 ∧ byteCount a.a1 = 5) ∧
    (let a : Args := ⟨0x2000, 1, 0x3003, 1⟩
     let s := fourAndFour (inFlight 0x11 a streamReset)
     s.operands = some a ∧ s.slots[0]? = some streamReset ∧ streamReset.phase ≠ .unconstructed ∧
       streamReset.mode = .stream ∧ 1 ≤ s32 a.a1 ∧ 0 ≤ s32 a.a3 ∧ Accessible s (u32 a.a0) (byteCount a.a1) ∧
       u32 a.a2 = 0x3003 ∧ byteCount a.a3 = 1) ∧
    (let a : Args := ⟨0xFFFFFFFC, 5, 0, 0⟩
     let s := fourAndFour (inFlight 0x12 a streamReset)
     s.operands = some a ∧ s.slots[0]? = some streamReset ∧ streamReset.mode = .stream ∧
       streamReset.phase = .reset ∧ 0 < s32 a.a1 ∧ u32 a.a0 = 0xFFFFFFFC ∧ byteCount a.a1 = 5) ∧
    (let a : Args := ⟨0x2000, 1, 0x3003, 1⟩
     let s := fourAndFour (inFlight 0x13 a streamReset)
     s.operands = some a ∧ s.slots[0]? = some streamReset ∧ streamReset.phase.open = true ∧ 0 < s32 a.a1 ∧
       s32 a.a1 ≤ s32 a.a3 ∧ Accessible s (u32 a.a0) (byteCount a.a1) ∧ u32 a.a2 = 0x3003 ∧ byteCount a.a1 = 1) ∧
    (let a : Args := ⟨0x2000, 5, 0x2004, 5⟩
     let s := inFlight 0x13 a streamReset
     s.operands = some a ∧ 0 < s32 a.a1 ∧ s32 a.a1 ≤ s32 a.a3 ∧ Accessible s (u32 a.a0) (byteCount a.a1) ∧
       Accessible s (u32 a.a2) (byteCount a.a1) ∧ u32 a.a0 ≠ u32 a.a2 ∧
       u32 a.a0 < u32 a.a2 + byteCount a.a1 ∧ u32 a.a2 < u32 a.a0 + byteCount a.a1) ∧
    (let a : Args := ⟨0x3003, 1, 0, 0⟩
     let s := fourAndFour (inFlight 0x15 a streamReset)
     s.operands = some a ∧ s.slots[0]? = some streamReset ∧ streamReset.phase.open = true ∧ 1 ≤ s32 a.a1 ∧
       u32 a.a0 = 0x3003 ∧ byteCount a.a1 = 1) ∧
    (let a : Args := ⟨0x2000, 5, 0, 0⟩
     let s := fourAndFour (onGen 0x22 a [1])
     s.operands = some a ∧ 0 < s32 a.a1 ∧ s.lockOwner = none ∧ u32 a.a0 = 0x2000 ∧ byteCount a.a1 = 5) := by decide

theorem witness_InPlaceTransformEqualsTwoBuffer :
    let a : Args := ⟨0x2000, 2, 0x2000, 2⟩
    let a' : Args := ⟨0x2000, 2, 0x2002, 2⟩
    let s := inFlight 0x13 a streamReset
    let s' := inFlight 0x13 a' streamReset
    (s.operands = some a ∧ s'.operands = some a' ∧ s.slots[0]? = some streamReset ∧ s'.slots[0]? = some streamReset ∧
      streamReset.phase.open = true ∧ 0 < s32 a.a1 ∧ s32 a.a1 ≤ s32 a.a3 ∧ s32 a.a1 ≤ s32 a'.a3 ∧ a'.a0 = a.a0 ∧
      a'.a1 = a.a1 ∧ a.a2 = a.a0 ∧ Accessible s (u32 a.a0) (byteCount a.a1) ∧
      Accessible s' (u32 a.a0) (byteCount a.a1) ∧ Accessible s' (u32 a'.a2) (byteCount a.a1) ∧
      u32 a.a0 + byteCount a.a1 ≤ u32 a'.a2) ∧
    ∀ k, k < byteCount a.a1 → byteAt s' (u32 a.a0 + k) = byteAt s (u32 a.a0 + k) :=
  ⟨by decide, fun _ _ => rfl⟩

/-- Clause by clause: Failed; length 0; StreamMode 17 and CounterMode 16 where TAGLEN is 8, on a range that can be
written. -/
theorem witness_AuthTagRejectsInOrder :
    (let s := inFlight 0x15 noArgs (liveSlot .failed .stream 0 [1])
     s.operands = some noArgs ∧ s.slots[0]? = some (liveSlot .failed .stream 0 [1]) ∧ Phase.failed.open = false) ∧
    (streamReset.phase.open = true ∧ s32 0 < 1) ∧
    (let s := inFlight 0x15 ⟨0x4000, 17, 0, 0⟩ streamReset
     s.operands = some ⟨0x4000, 17, 0, 0⟩ ∧ streamReset.mode = .stream ∧ 1 ≤ s32 17 ∧ 16 < s32 17 ∧
       Accessible s (u32 0x4000) (byteCount 17)) ∧
    (let s := inFlight 0x15 ⟨0x4000, 16, 0, 0⟩ counterReset
     s.operands = some ⟨0x4000, 16, 0, 0⟩ ∧ counterReset.mode = .counter ∧ 1 ≤ s32 16 ∧ (16 : Word) ≠ counterReset.taglen ∧
       Accessible s (u32 0x4000) (byteCount 16)) := by decide

/-- StreamMode with 1 and with 16; CounterMode with the 8 of the session. -/
theorem witness_AuthTagDelivers :
    (let s := inFlight 0x15 ⟨0x4000, 16, 0, 0⟩ streamReset
     s.operands = some ⟨0x4000, 16, 0, 0⟩ ∧ s.slots[0]? = some streamReset ∧ streamReset.phase.open = true ∧
       streamReset.mode = .stream ∧ 1 ≤ s32 1 ∧ s32 16 ≤ 16 ∧ Accessible s (u32 0x4000) (byteCount 16)) ∧
    (let s := inFlight 0x15 ⟨0xFFFFFFF8, 8, 0, 0⟩ counterReset
     s.operands = some ⟨0xFFFFFFF8, 8, 0, 0⟩ ∧ s.slots[0]? = some counterReset ∧ counterReset.phase.open = true ∧
       counterReset.mode = .counter ∧ (8 : Word) = counterReset.taglen ∧ 1 ≤ s32 8 ∧
       Accessible s (u32 0xFFFFFFF8) (byteCount 8)) := by decide

theorem witness_DestroyEmptiesSlot :
    (inFlight 0x16 noArgs streamReset).operands = some noArgs ∧
      (inFlight 0x16 noArgs streamReset).slots[0]? = some streamReset := by decide

/-- An error entry and a phase entry of the table. -/
theorem witness_PhaseTable :
    (inFlight 0x13 noArgs streamReset).operands = some noArgs ∧
      (inFlight 0x13 noArgs streamReset).slots[0]? = some streamReset ∧ (Instr.aeadEncrypt 0).slot? = some 0 ∧
      (∃ q, phaseTable streamReset.phase streamReset.mode (.aeadEncrypt 0) = some (.ok q)) ∧
      (∃ e, phaseTable .failed .stream (.aeadEncrypt 0) = some (.error e)) :=
  ⟨rfl, rfl, rfl, ⟨.transforming, rfl⟩, ⟨.seq, rfl⟩⟩

/-- A next state of an AEAD command, for the frames and for the statement of its independence. -/
theorem witness_AeadFrame :
    let s := inFlight 0x16 noArgs streamReset
    (Instr.aeadDestroy 0).slot? = some 0 ∧ exec (.aeadDestroy 0) s = .next (complete (s.setSlot 0 .empty)) := ⟨rfl, rfl⟩

theorem witness_AeadIgnoresRngUnit : (Instr.aeadDestroy 0).slot? = some 0 := rfl

theorem witness_CommandMemoryFrame :
    let s := inFlight 0x13 noArgs streamReset
    s.operands = some noArgs ∧ exec (.aeadEncrypt 0) s = .next (raise s .size 0) ∧
      exec (.aeadAuthTag 0) (inFlight 0x15 noArgs .empty) = .next (raise (inFlight 0x15 noArgs .empty) .seq 0) ∧
      exec .rngRandBytes s = .next (raise s .arg 0) ∧ exec .rngUnlock s = .next (raise s .seq 0) :=
  ⟨rfl, rfl, rfl, rfl, rfl⟩

theorem witness_ModeAndTagLengthWriters :
    let s := inFlight 0x13 noArgs counterReset
    exec (.aeadEncrypt 0) s = .next (raise s .size 0) ∧ s.slots[0]? = some counterReset ∧
      (∀ m, Instr.aeadEncrypt 0 ≠ .aeadConstruct 0 m) ∧ Instr.aeadEncrypt 0 ≠ .aeadDestroy 0 :=
  ⟨rfl, rfl, fun _ h => (nomatch h), fun h => (nomatch h)⟩

/-- RNG_RAND_U32 of the owner itself, and RNG_SEED with the least length that passes. -/
theorem witness_HeldWhileMutexTaken :
    let s := { inFlight 0x23 ⟨0, 1, 0, 0⟩ .empty with lockOwner := some 0 }
    s.operands = some ⟨0, 1, 0, 0⟩ ∧ takesMutex s ⟨0, 1, 0, 0⟩ .rngRandU32 ∧ takesMutex s ⟨0, 1, 0, 0⟩ .rngSeed ∧
      takesMutex s ⟨0, 1, 0, 0⟩ .rngCtx ∧ s.lockOwner = some 0 :=
  ⟨rfl, trivial, by simp only [takesMutex]; decide, rfl, rfl⟩

theorem witness_RngArgumentErrorsComeFirst :
    (inFlight 0x22 noArgs .empty).operands = some noArgs ∧ s32 noArgs.a1 ≤ 0 := by decide

/-- RNG_SEED and RNG_RAND_BYTES of one byte, the last of the address space. -/
theorem witness_SeedMixesBytes :
    let s := inFlight 0x20 ⟨0xFFFFFFFF, 1, 0, 0⟩ .empty
    s.operands = some ⟨0xFFFFFFFF, 1, 0, 0⟩ ∧ 0 < s32 1 ∧ s.lockOwner = none ∧
      Accessible s (u32 0xFFFFFFFF) (byteCount 1) := by decide

theorem witness_RandBytesFills :
    let s := inFlight 0x22 ⟨0xFFFFFFFF, 1, 0, 0⟩ .empty
    s.operands = some ⟨0xFFFFFFFF, 1, 0, 0⟩ ∧ 0 < s32 1 ∧ s.lockOwner = none ∧
      Accessible s (u32 0xFFFFFFFF) (byteCount 1) := by decide

/-- The hypotheses of RNG_RANDOM_SEED, RNG_RAND_U32, RNG_RAND_U64 and RNG_LOCK are one: a command in flight, the mutex
free. -/
theorem witness_RandomSeedDraws :
    (inFlight 0x21 noArgs .empty).operands = some noArgs ∧ (inFlight 0x21 noArgs .empty).lockOwner = none := by decide

theorem witness_RandU32ReturnsAWord :
    (inFlight 0x23 noArgs .empty).operands = some noArgs ∧ (inFlight 0x23 noArgs .empty).lockOwner = none := by decide

theorem witness_RandU64ReturnsTwoWords :
    (inFlight 0x24 noArgs .empty).operands = some noArgs ∧ (inFlight 0x24 noArgs .empty).lockOwner = none := by decide

theorem witness_LockKeepsMutex :
    (inFlight 0x25 noArgs .empty).operands = some noArgs ∧ (inFlight 0x25 noArgs .empty).lockOwner = none := by decide

/-- The owner; a free mutex; another owner. -/
theorem witness_UnlockFreesMutex :
    (inFlight 0x26 noArgs .empty).operands = some noArgs ∧
      ({ inFlight 0x26 noArgs .empty with lockOwner := some 0 } : State).lockOwner = some (inFlight 0x26 noArgs .empty).cur ∧
      (inFlight 0x26 noArgs .empty).lockOwner ≠ some 0 ∧ some 1 ≠ some (inFlight 0x26 noArgs .empty).cur := by decide

theorem witness_CtxReturnsHandle :
    (inFlight 0x27 noArgs .empty).operands = some noArgs ∧ (onGen 0x27 noArgs [1]).created = true ∧
      (onGen 0x27 noArgs [1]).operands = some noArgs ∧ (inFlight 0x27 noArgs .empty).created = false ∧
      (inFlight 0x27 noArgs .empty).lockOwner = none ∧
      ({ inFlight 0x27 noArgs .empty with lockOwner := some 1 } : State).lockOwner = some 1 := by decide

theorem witness_ShutdownDestroysEngine :
    (onGen 0x28 noArgs [1]).operands = some noArgs ∧ (onGen 0x28 noArgs [1]).lockOwner = none ∧
      ({ onGen 0x28 noArgs [1] with lockOwner := some 0 } : State).lockOwner = some 0 := by decide

/-- RNG_SHUTDOWN on an engine that exists. -/
theorem witness_RngFrame :
    let s := onGen 0x28 noArgs [1]
    Instr.rngShutdown.slot? = none ∧
      exec .rngShutdown s = .next (complete s.takeMutex.dropEngine.release) ∧
      exec .rngUnlock s = .next (raise s .seq 0) := ⟨rfl, rfl, rfl⟩

theorem witness_RetWriters :
    let s := onGen 0x27 noArgs [1]
    exec .rngCtx s = .next (complete (s.setRet0 (ctxValue Config.hw))) := rfl

/-- The step that gives the mutex back. -/
theorem witness_MutexChangesHands :
    let s := { moving (.serve 0) (onGen 0x26 noArgs [1]) with lockOwner := some 0 }
    step s = .next (complete { s with agenda := [], lockOwner := none }) ∧ s.lockOwner = some 0 := ⟨rfl, rfl⟩

/-- While port 0 owns the mutex, a step of port 1: its RNG_RAND_U32 is held. -/
theorem witness_LockedGeneratorIsTheOwners :
    let s := { moving (.serve 1) (twoPending 0x25 0x23 noArgs noArgs .empty) with lockOwner := some 0 }
    s.lockOwner = some 0 ∧ step s = .next { s with agenda := [], cur := 1 } := ⟨rfl, rfl⟩

theorem witness_ClockNeverGoesBack : step destroying = .next destroyed := rfl

/-- A full buffer, a buffer with spare room and the empty one. -/
theorem witness_SecureBufferKeepsZeroTail :
    SecBuf.wf ⟨[0xAA, 0xBB], 2⟩ = true ∧ SecBuf.wf ⟨[0xAA, 0xBB, 0, 0], 2⟩ = true ∧ SecBuf.wf .new = true ∧
      SecBuf.set ⟨[0xAA, 0xBB], 2⟩ 1 7 = some ⟨[0xAA, 7], 2⟩ := by decide

/-- The last port's window: its first and last offset, and the offsets where the clauses meet. -/
theorem witness_RegisterReads :
    let s (off : Nat) := moving (.regRead 1 (portAddr Config.hw 1 off) 4) State.reset
    (∀ off, (s off).slotClash = false ∧ (s off).ports[1]? = some .idle) ∧
      ∀ off ∈ [0x00, 0x08, 0x0C, 0x10, 0x1C, 0x20, 0x24, 0x28, 0x3C], off < 0x40 ∧ off % 4 = 0 :=
  ⟨fun _ => ⟨rfl, rfl⟩, by decide⟩

/-- A busy port and an idle one; the first and last offset, and the offsets where the clauses meet. -/
theorem witness_RegisterWrites :
    let s (off : Nat) := moving (.regWrite 1 (portAddr Config.hw 1 off) 4 0x23) (inFlight 0x16 noArgs .empty)
    (∀ off, (s off).slotClash = false ∧ (s off).ports[1]? = some .idle ∧
      (s off).ports[0]? = some (port0 0x16 noArgs)) ∧
      Port.idle.status.getLsbD 31 = false ∧ (port0 0x16 noArgs).status.getLsbD 31 = true ∧
      ∀ off ∈ [0x00, 0x04, 0x0C, 0x10, 0x1C, 0x20, 0x3C], off < 0x40 ∧ off % 4 = 0 :=
  ⟨fun _ => ⟨rfl, rfl, rfl⟩, by decide, by decide, by decide⟩

/-- Of a state with one command in flight, what a byte must be for a pending command to touch it. -/
theorem pendingTouches_inFlight {w : Word} {a : Args} {sl : Slot} {touches : Args → Nat → Instr → Prop} {x : Nat}
    (h : (inFlight w a sl).PendingTouches Config.hw touches x) : ∃ i, decode 2 w = .ok i ∧ touches a x i := by
  obtain ⟨p, l, i, hp, hd, -, ht⟩ := h
  match p with
  | 0 => cases hp; exact ⟨i, hd, ht⟩
  | 1 => cases hp
  | n + 2 => cases hp

/-- A pending transform of port 0, and port 1 with a write of two bytes that meets the last byte it reads, and a read of
two bytes that meets the first it writes; the bytes just after its input and just before its output, and all bytes of a
pending AEAD_RESET's `ARG[2]` where no associated data is given, may be accessed. The register accesses at the last offset
of a window, one byte wide, misaligned, and to the other port. -/
theorem witness_ForbiddenAccessesHaveNoNextState :
    let a : Args := ⟨0x2000, 5, 0x3000, 5⟩
    let s := inFlight 0x13 a streamReset
    s.slotClash = false ∧ s.PendingTouches Config.hw readsByte 0x2004 ∧
      s.PendingTouches Config.hw writesByte 0x3000 ∧
    (∀ x, x = 0x2005 ∨ x = 0x2FFF → ¬ (2 ^ 32 ≤ x ∨ inRegion s.regions .device x = true ∨
      s.PendingTouches Config.hw readsByte x ∨ s.PendingTouches Config.hw writesByte x)) ∧
    (let r := inFlight 0x11 ⟨0x2000, 1, 0x3001, 0⟩ streamReset
     r.slotClash = false ∧ ∀ x, 0x3000 ≤ x → x < 0x3003 →
       ¬ (2 ^ 32 ≤ x ∨ inRegion r.regions .device x = true ∨
         r.PendingTouches Config.hw readsByte x ∨ r.PendingTouches Config.hw writesByte x)) ∧
    inRegion (fourAndFour s).regions .device 0x3003 = true ∧
    (0x3F < 0x40 ∧ 1 ≠ 4 ∧ 0x3F % 4 ≠ 0 ∧ 1 ≠ 0) := by
  refine ⟨rfl, ⟨0, _, .aeadEncrypt 0, rfl, rfl, ⟨_, rfl, rfl⟩, by simp only [readsByte]; decide⟩,
    ⟨0, _, .aeadEncrypt 0, rfl, rfl, ⟨_, rfl, rfl⟩, by simp only [writesByte]; decide⟩, ?_, ⟨rfl, ?_⟩, by decide,
    by decide⟩
  · rintro x (rfl | rfl) (h | h | h | h)
    all_goals first
      | exact absurd h (by decide)
      | obtain ⟨i, hd, ht⟩ := pendingTouches_inFlight h
        obtain rfl : Instr.aeadEncrypt 0 = i := by injection hd
        simp only [readsByte, writesByte] at ht
        exact absurd ht (by decide)
  · rintro x h1 h2 (h | h | h | h)
    · omega
    · exact absurd h (by simp [inRegion, inFlight, State.reset, State.resetOf])
    all_goals
      obtain ⟨i, hd, ht⟩ := pendingTouches_inFlight h
      obtain rfl : Instr.aeadReset 0 = i := by injection hd
      simp only [readsByte, writesByte] at ht
    rcases ht with ⟨h, h'⟩ | ⟨h, -⟩
    · have : u32 (0x2000 : Word) + byteCount 1 = 0x2001 := by decide
      omega
    · exact absurd h (by decide)

/-- The owner with n = 1; not the owner; no engine; n = 0; a stale handle. -/
theorem witness_HandleUseIsTheOwners :
    let s := { moving (.handleUse 0 1 0) (onGen 0 noArgs [1]) with lockOwner := some 0 }
    (s.slotClash = false ∧ s.agenda = [.handleUse 0 1 0] ∧ s.lockOwner = some 0 ∧ s.created = true ∧ 1 ≤ 1 ∧
      0 = s.engineEpoch) ∧
    s.lockOwner ≠ some 1 ∧ State.reset.created = false ∧ s.dropEngine.engineEpoch ≠ 0 := by decide

/-- A reset while a transform is pending. -/
theorem witness_HardwareResetClearsTheBlock :
    let s := moving .hardReset (inFlight 0x13 ⟨0x2000, 5, 0x3000, 5⟩ streamReset)
    s.slotClash = false ∧ s.agenda = [.hardReset] := by decide

/-- One end for each of the codes 1, 2, 3, 6 and 7. -/
theorem witness_PreciseErrors :
    (let s := inFlight 0x22 noArgs .empty
     exec .rngRandBytes s = .next (raise s .arg 0) ∧ Ended s (raise s .arg 0) 1 0) ∧
    (let s := inFlight 0x13 noArgs streamReset
     exec (.aeadEncrypt 0) s = .next (raise s .size 0) ∧ Ended s (raise s .size 0) 2 0) ∧
    (let s := inFlight 0x12 noArgs counterReset
     exec (.aeadAad 0) s = .next (raise s .unsupported 0) ∧ Ended s (raise s .unsupported 0) 3 0) ∧
    (let s := inFlight 0x26 noArgs .empty
     exec .rngUnlock s = .next (raise s .seq 0) ∧ Ended s (raise s .seq 0) 6 0) ∧
    (let s := inFlight 0x16 noArgs .empty
     exec (.aeadDestroy 2) s = .next (raise s .illegal 0) ∧ Ended s (raise s .illegal 0) 7 0) :=
  ⟨⟨rfl, rfl⟩, ⟨rfl, rfl⟩, ⟨rfl, rfl⟩, ⟨rfl, rfl⟩, rfl, rfl⟩

theorem witness_EveryEndHasItsDetail :
    let s := inFlight 0x26 noArgs .empty
    exec .rngUnlock s = .next (raise s .seq 0) := rfl

end Sys2Proof.Tests
end

section
/-! What every command can do, said once. A command works on the block until it ends with a code and a detail; on the way
it may write its own port's staging buffers and return registers, and its own unit. Each meaning is walked through once,
and every claim about all commands is read off the result. -/

namespace Sys2Proof.Machine

/-! ### The current port -/

/-- What a command `i` that ends with `code` may do to the port it runs for, apart from `STATUS`, `ERRINFO` and the
pending record, which its end writes: a staging buffer changes only by being emptied (R37), and a return register only
where a command that returns a value succeeds (R26). -/
structure PortUse (i : Instr) (code : BitVec 8) (p q : Port) : Prop where
  args : q.args = p.args
  keyStage : q.keyStage = p.keyStage ∨ q.keyStage = .new
  tagStage : q.tagStage = p.tagStage ∨ q.tagStage = .new
  seedStage : q.seedStage = p.seedStage ∨ q.seedStage = .new
  ret0 : q.ret0 = p.ret0 ∨ (i = .rngRandU32 ∨ i = .rngRandU64 ∨ i = .rngCtx) ∧ code = 0
  ret1 : q.ret1 = p.ret1 ∨ i = .rngRandU64 ∧ code = 0

theorem PortUse.trans {i : Instr} {code : BitVec 8} {p q r : Port} (h : PortUse i code p q) (k : PortUse i code q r) :
    PortUse i code p r where
  args := k.args.trans h.args
  keyStage := k.keyStage.elim (fun e => e ▸ h.keyStage) .inr
  tagStage := k.tagStage.elim (fun e => e ▸ h.tagStage) .inr
  seedStage := k.seedStage.elim (fun e => e ▸ h.seedStage) .inr
  ret0 := k.ret0.elim (fun e => e ▸ h.ret0) .inr
  ret1 := k.ret1.elim (fun e => e ▸ h.ret1) .inr

/-- A command `i` that ends with `code` and is, at `u`, on its way or at its end: it has used the current port, and the
host's side is as it was. -/
structure CommandRun (i : Instr) (code : BitVec 8) (s u : State) : Prop where
  ports : ∃ f, u.ports = s.ports.modify s.cur f ∧ ∀ p, PortUse i code p (f p)
  host : HostSideKept s u

namespace CommandRun
variable {i : Instr} {code : BitVec 8} {s u : State}

theorem refl (i : Instr) (code : BitVec 8) (s : State) : CommandRun i code s s :=
  ⟨⟨id, by simp, fun _ => ⟨rfl, .inl rfl, .inl rfl, .inl rfl, .inl rfl, .inl rfl⟩⟩, rfl, rfl, rfl, rfl, rfl⟩

theorem cur_eq (h : CommandRun i code s u) : u.cur = s.cur := h.host.2.1

theorem ports_length (h : CommandRun i code s u) : u.ports.length = s.ports.length := by
  obtain ⟨f, hf, -⟩ := h.ports
  simp [hf]

theorem updCur {g : Port → Port} (h : CommandRun i code s u) (hg : ∀ p, PortUse i code p (g p)) :
    CommandRun i code s (u.updCur g) := by
  obtain ⟨f, hf, hu⟩ := h.ports
  refine ⟨⟨g ∘ f, ?_, fun p => (hu p).trans (hg (f p))⟩, h.host⟩
  rw [updCur_ports, hf, h.cur_eq, List.modify_modify_eq]

theorem finish (h : CommandRun i code s u) (c : BitVec 8) (info : Word) :
    CommandRun i code s (Machine.finish u c info) :=
  h.updCur fun _ => ⟨rfl, .inl rfl, .inl rfl, .inl rfl, .inl rfl, .inl rfl⟩

theorem keyStage (h : CommandRun i code s u) (cfg : Config) (v : Bytes) :
    CommandRun i code s (throughKeyStage cfg u v).2 :=
  h.updCur fun _ => ⟨rfl, .inr rfl, .inl rfl, .inl rfl, .inl rfl, .inl rfl⟩

theorem tagStage (h : CommandRun i code s u) (cfg : Config) (v : Bytes) :
    CommandRun i code s (throughTagStage cfg u v).2 :=
  h.updCur fun _ => ⟨rfl, .inl rfl, .inr rfl, .inl rfl, .inl rfl, .inl rfl⟩

theorem seedStage (h : CommandRun i code s u) (cfg : Config) (v : Bytes) :
    CommandRun i code s (throughSeedStage cfg u v).2 :=
  h.updCur fun _ => ⟨rfl, .inl rfl, .inl rfl, .inr rfl, .inl rfl, .inl rfl⟩

theorem otherPortsKept (h : CommandRun i code s u) : OtherPortsKept s u := by
  obtain ⟨f, hf, -⟩ := h.ports
  exact otherPortsKept_congr hf (otherPortsKept_updCur s f)

/-- The current port afterwards is a use of the one before, or there is none. -/
theorem curPort_cases (h : CommandRun i code s u) :
    (s.ports[s.cur]? = none ∧ u.ports[s.cur]? = none) ∨
      ∃ p q, s.ports[s.cur]? = some p ∧ u.ports[s.cur]? = some q ∧ PortUse i code p q := by
  obtain ⟨f, hf, hu⟩ := h.ports
  cases e : s.ports[s.cur]? with
  | none => exact .inl ⟨rfl, by simp [hf, e]⟩
  | some p => exact .inr ⟨p, f p, rfl, by simp [hf, e], hu p⟩

theorem argsKept (h : CommandRun i code s u) : ArgsKept s u := by
  rcases h.curPort_cases with ⟨e, e'⟩ | ⟨p, q, e, e', k⟩
  · simp [ArgsKept, e, e']
  · simp [ArgsKept, e, e', k.args]

theorem stagesKeptOrEmpty (h : CommandRun i code s u) : StagesKeptOrEmpty s u := by
  intro p q hp hq
  rcases h.curPort_cases with ⟨e, -⟩ | ⟨p', q', e, e', k⟩
  · cases hp.symm.trans e
  · obtain rfl := Option.some.inj (hp.symm.trans e)
    obtain rfl := Option.some.inj (hq.symm.trans e')
    exact ⟨k.keyStage, k.tagStage, k.seedStage⟩

theorem ret0Kept_or (h : CommandRun i code s u) :
    Ret0Kept s u ∨ (i = .rngRandU32 ∨ i = .rngRandU64 ∨ i = .rngCtx) ∧ code = 0 := by
  rcases h.curPort_cases with ⟨e, e'⟩ | ⟨p, q, e, e', k⟩
  · exact .inl (by simp [Ret0Kept, e, e'])
  · exact k.ret0.imp_left fun k => by simp [Ret0Kept, e, e', k]

theorem ret1Kept_or (h : CommandRun i code s u) : Ret1Kept s u ∨ i = .rngRandU64 ∧ code = 0 := by
  rcases h.curPort_cases with ⟨e, e'⟩ | ⟨p, q, e, e', k⟩
  · exact .inl (by simp [Ret1Kept, e, e'])
  · exact k.ret1.imp_left fun k => by simp [Ret1Kept, e, e', k]

end CommandRun

/-! ### How a command ends -/

/-- The details that go with a code (R24, R243). -/
abbrev EndDetail (code : BitVec 8) (info : Word) : Prop :=
  (code.toNat ∈ [0, 1, 2, 3, 6, 7] ∧ info = 0) ∨ (code = 4 ∧ info.toNat ∈ [1, 2, 3, 4, 5]) ∨
    (code = 5 ∧ info.toNat ∈ [6, 7, 8, 9, 16, 17, 18, 19])

/-- An error other than E_INIT and E_BACKEND has no detail (R243). -/
theorem endDetail_of_no_detail {e : Err} (hi : e ≠ .init) (hb : e ≠ .backend) : EndDetail e.code 0 := by
  cases e with
  | init => exact absurd rfl hi
  | backend => exact absurd rfl hb
  | arg | size | unsupported | seq | illegal => decide

/-- A command that has run and ends. -/
theorem CommandRun.ended {i : Instr} {code : BitVec 8} {s u : State} (h : CommandRun i code s u)
    (hs : s.cur < s.ports.length) (c : BitVec 8) (info : Word) : Ended s (Machine.finish u c info) c info :=
  ended_finish h.cur_eq (by rw [h.ports_length]; exact hs)

end Sys2Proof.Machine
end

section
/-! What an AEAD command can do: it changes one slot, by a step that keeps the slot's invariant, and nothing of the RNG
unit. -/

namespace Sys2Proof.Machine

/-! ### A slot's step -/

/-- What a command `i` on slot `c` may make of the slot: R42 is kept, and only AEAD_CONSTRUCT and AEAD_DESTROY write the
mode and the tag length. -/
structure SlotStep (cfg : Config) (i : Instr) (c : Nat) (sl sl' : Slot) : Prop where
  ok : sl.ok cfg → sl'.ok cfg
  fields : (∀ m, i ≠ .aeadConstruct c m) → i ≠ .aeadDestroy c → sl'.mode = sl.mode ∧ sl'.taglen = sl.taglen

/-- A slot that holds no session meets R42. -/
theorem empty_ok (cfg : Config) : Slot.empty.ok cfg :=
  ⟨SecBuf.wf_new, fun _ => rfl, fun h => absurd rfl h, fun h => (nomatch h), fun _ => rfl, fun h => (nomatch h),
    fun _ => rfl⟩

/-- A session's step into a later phase: the mode and the tag length stay, and the backend state keeps its length. -/
theorem slotStep_of_session {cfg : Config} {i : Instr} {c : Nat} {sl sl' : Slot} (live : sl.phase ≠ .unconstructed)
    (hm : sl'.mode = sl.mode) (ht : sl'.taglen = sl.taglen)
    (hb : sl.bstate.wf = true → sl'.bstate.wf = true ∧ sl'.bstate.len = sl.bstate.len)
    (hp : sl'.phase = .reset ∨ sl'.phase = .transforming ∨ sl'.phase = .tagExtracted ∨ sl'.phase = .failed ∨
      sl'.phase = .assocData ∧ sl'.aadf = true ∧ sl.mode = .stream) : SlotStep cfg i c sl sl' where
  ok h := by
    obtain ⟨wf, -, len, -, -, -, tag⟩ := h
    obtain ⟨wf', len'⟩ := hb wf
    rw [Slot.ok, hm, ht, len']
    refine ⟨wf', ?_, fun _ => len live, ?_, ?_, ?_, tag⟩
    all_goals rcases hp with e | e | e | e | ⟨e, ea, em⟩ <;> simp [*]
  fields _ _ := ⟨hm, ht⟩

/-- `fail_slot` on a session. -/
theorem slotStep_failed {cfg : Config} {i : Instr} {c k : Nat} {sl sl' : Slot} (live : sl.phase ≠ .unconstructed)
    (hm : sl'.mode = sl.mode) (ht : sl'.taglen = sl.taglen) (hb : sl'.bstate = sl.bstate) :
    SlotStep cfg i c sl { sl' with bstate := sl'.bstate.scramble cfg k, phase := .failed } := by
  refine slotStep_of_session live hm ht (fun h => ?_) (by simp)
  rw [hb]
  exact ⟨SecBuf.wf_scramble cfg k h, rfl⟩

/-- A backend call on a session: the state it gives has the length of the content it was given. -/
theorem assign_session {cfg : Config} {b : SecBuf} {bs : Bytes} (h : bs.length = b.content.length) (hw : b.wf = true) :
    (SecBuf.assign cfg b bs).wf = true ∧ (SecBuf.assign cfg b bs).len = b.len :=
  ⟨SecBuf.wf_assign cfg bs hw, by rw [SecBuf.len_assign, h, SecBuf.content_length hw]⟩

/-! ### The run of an AEAD command -/

/-- An AEAD command `i` of slot `c` on its way or at its end. -/
structure AeadRun (cfg : Config) (i : Instr) (c : Nat) (code : BitVec 8) (s u : State) : Prop extends
    CommandRun i code s u where
  rng : RngKept s u
  slots : u.slots = s.slots ∨
    ∃ sl sl', s.slots[c]? = some sl ∧ u.slots = s.slots.set c sl' ∧ SlotStep cfg i c sl sl'

/-- An AEAD command's end. -/
def AeadEnd (cfg : Config) (i : Instr) (c : Nat) (s t : State) : Prop :=
  ∃ code info, Ended s t code info ∧ EndDetail code info ∧ AeadRun cfg i c code s t

section
variable {cfg : Config} {i : Instr} {c : Nat} {code : BitVec 8} {s u : State}

theorem AeadRun.refl (cfg : Config) (i : Instr) (c : Nat) (code : BitVec 8) (s : State) : AeadRun cfg i c code s s :=
  ⟨.refl _ _ s, ⟨rfl, rfl, rfl, rfl, rfl⟩, .inl rfl⟩

theorem AeadRun.setSlot {sl sl' : Slot} (h : AeadRun cfg i c code s u) (hu : u.slots = s.slots)
    (hs : s.slots[c]? = some sl) (st : SlotStep cfg i c sl sl') : AeadRun cfg i c code s (u.setSlot c sl') :=
  ⟨⟨h.ports, h.host⟩, h.rng, .inr ⟨sl, sl', hs, by rw [setSlot_slots, hu], st⟩⟩

/-- Data memory and the free values drawn are no part of the claim. -/
theorem AeadRun.store (h : AeadRun cfg i c code s u) (base : Nat) (v : Bytes) :
    AeadRun cfg i c code s (u.store cfg base v) := ⟨⟨h.ports, h.host⟩, h.rng, h.slots⟩

theorem AeadRun.storeFree (h : AeadRun cfg i c code s u) (base n : Nat) :
    AeadRun cfg i c code s (u.storeFree cfg base n) := ⟨⟨h.ports, h.host⟩, h.rng, h.slots⟩

theorem AeadRun.keyStage (h : AeadRun cfg i c code s u) (v : Bytes) :
    AeadRun cfg i c code s (throughKeyStage cfg u v).2 := ⟨h.toCommandRun.keyStage cfg v, h.rng, h.slots⟩

theorem AeadRun.tagStage (h : AeadRun cfg i c code s u) (v : Bytes) :
    AeadRun cfg i c code s (throughTagStage cfg u v).2 := ⟨h.toCommandRun.tagStage cfg v, h.rng, h.slots⟩

theorem AeadRun.finish (h : AeadRun cfg i c code s u) (hs : s.cur < s.ports.length) {info : Word}
    (hd : EndDetail code info) : AeadEnd cfg i c s (Machine.finish u code info) :=
  ⟨code, info, h.ended hs _ _, hd, h.toCommandRun.finish _ _, h.rng, h.slots⟩

/-- An error the checks raise, before anything has changed. -/
theorem aeadEnd_raise {e : Err} {info : Word} (hs : s.cur < s.ports.length) (hd : EndDetail e.code info) :
    AeadEnd cfg i c s (raise s e info) :=
  (AeadRun.refl cfg i c e.code s).finish hs hd

/-- A backend member fails on a session: `fail_slot`, then the error. -/
theorem AeadRun.failSlot {sl sl' : Slot} {info : Word} {e : Err} (h : AeadRun cfg i c e.code s u)
    (hu : u.slots = s.slots) (hs : s.slots[c]? = some sl) (live : sl.phase ≠ .unconstructed) (hm : sl'.mode = sl.mode)
    (ht : sl'.taglen = sl.taglen) (hb : sl'.bstate = sl.bstate) (hc : s.cur < s.ports.length)
    (hd : EndDetail e.code info) : AeadEnd cfg i c s (raise (Machine.failSlot cfg u c sl') e info) := by
  have st : SlotStep cfg i c sl _ := slotStep_failed (k := u.draws) live hm ht hb
  have run := h.setSlot hu hs st
  exact AeadRun.finish (u := Machine.failSlot cfg u c sl') ⟨⟨run.ports, run.host⟩, run.rng, run.slots⟩ hc hd

/-- A command that completes by a step of its slot. -/
theorem AeadRun.completes {sl sl' : Slot} (h : AeadRun cfg i c 0 s u) (hu : u.slots = s.slots)
    (hs : s.slots[c]? = some sl) (st : SlotStep cfg i c sl sl') (hc : s.cur < s.ports.length) :
    AeadEnd cfg i c s (complete (u.setSlot c sl')) :=
  (h.setSlot hu hs st).finish hc (by decide)

/-- A command that works on a slot: a number that names none ends it with E_ILLEGAL. -/
theorem aead_allNext {k : Args → Slot → Result}
    (h : ∀ a sl, s.cur < s.ports.length → s.slots[c]? = some sl → AllNext (AeadEnd cfg i c s) (k a sl)) :
    AllNext (AeadEnd cfg i c s) (withCommand s fun a => withSlot s c (k a)) :=
  withCommand_allNext fun a ha =>
    have hc := cur_lt_of_operands ha
    withSlot_allNext (fun _ => aeadEnd_raise hc (by decide)) fun sl hs => h a sl hc hs

end

/-! ### The seven commands -/

section
variable (cfg : Config) (c : Nat) (s : State)

/-- AEAD_CONSTRUCT may write every field of its slot: R42 is all there is to show. -/
theorem slotStep_construct {cfg : Config} {c : Nat} {m : Mode} {sl sl' : Slot} (h : sl.ok cfg → sl'.ok cfg) :
    SlotStep cfg (.aeadConstruct c m) c sl sl' :=
  ⟨h, fun hi _ => absurd rfl (hi m)⟩

/-- Lines 6 to 17 of R125, on a run that has changed no slot yet. -/
theorem installKey_allNext {cfg : Config} {c : Nat} {m : Mode} {s u : State} {sl : Slot} (tagLen : Word) (key : Bytes)
    (run : ∀ code, AeadRun cfg (.aeadConstruct c m) c code s u) (hu : u.slots = s.slots) (hs : s.slots[c]? = some sl)
    (hc : s.cur < s.ports.length) (hn : 0 < s32 (backendOf cfg m).stateSize) :
    AllNext (AeadEnd cfg (.aeadConstruct c m) c s) (installKey cfg c m tagLen key (slotForConstruct sl) u) := by
  have dead : SlotStep cfg (.aeadConstruct c m) c sl { slotForConstruct sl with bstate := .new } :=
    slotStep_construct fun h => by
      rw [slotForConstruct_eq_empty h.2.1]
      exact empty_ok cfg
  unfold installKey
  dsimp only
  split
  · exact ((run _).setSlot hu hs dead).finish hc (by decide)
  · rename_i bs hbs
    split
    · exact ((run _).setSlot hu hs dead).finish hc (by decide)
    · rename_i bs' hbs'
      refine ((run _).setSlot hu hs (slotStep_construct fun h => ?_)).finish hc (by decide)
      have hlen : (bs'.length : Int) = s32 (backendOf cfg m).stateSize := by
        rw [setTagLenIfCounter_length hbs', initBytes_length hbs, byteCount]
        omega
      rw [slotForConstruct_eq_empty h.2.1]
      refine ⟨SecBuf.wf_assign _ _ (SecBuf.wf_resize _ _ SecBuf.wf_new), nofun, fun _ => ⟨hn, hlen⟩, nofun,
        fun _ => rfl, nofun, ?_⟩
      rintro rfl
      rfl

theorem aeadConstruct_ends (m : Mode) : AllNext (AeadEnd cfg (.aeadConstruct c m) c s) (aeadConstruct cfg c m s) := by
  refine aead_allNext fun a sl hc hs => ?_
  split
  · exact aeadEnd_raise hc (by decide)
  · dsimp only
    split
    · refine ((AeadRun.refl cfg _ c _ s).setSlot rfl hs (slotStep_construct fun h => ?_)).finish hc (by decide)
      rw [slotForConstruct_eq_empty h.2.1]
      exact empty_ok cfg
    · rename_i hn
      refine withRange_allNext fun _ => installKey_allNext _ _ (fun code => ?_) rfl hs hc (by omega)
      exact (AeadRun.refl cfg (.aeadConstruct c m) c code s).keyStage _

/-- Lines 7 to 18 of R129, on a session. -/
theorem startMessage_allNext {cfg : Config} {c : Nat} {s : State} {sl : Slot} (a : Args) (nonce aad : Bytes)
    (hc : s.cur < s.ports.length) (hs : s.slots[c]? = some sl) (live : sl.phase ≠ .unconstructed) :
    AllNext (AeadEnd cfg (.aeadReset c) c s) (startMessage cfg c a nonce aad sl s) := by
  have run (code) := AeadRun.refl cfg (.aeadReset c) c code s
  unfold startMessage
  dsimp only
  split
  · exact (run _).failSlot rfl hs live rfl rfl rfl hc (by decide)
  · rename_i bs1 h1
    split
    · exact (run _).failSlot rfl hs live rfl rfl rfl hc (by decide)
    · rename_i bs2 h2
      split
      · exact (run _).failSlot rfl hs live rfl rfl rfl hc (by decide)
      · rename_i bs3 h3
        have hlen : bs3.length = sl.bstate.content.length :=
          (processAadIfAny_length h3).trans ((setMsgLenIfCounter_length h2).trans (resetIvBytes_length h1))
        exact (run 0).completes rfl hs (slotStep_of_session live rfl rfl (assign_session hlen) (.inl rfl)) hc

/-- The checks of AEAD_RESET raise E_SEQ or E_ARG. -/
theorem resetError_some {sl : Slot} {a : Args} {e : Err} (h : resetError sl a = some e) : e = .seq ∨ e = .arg := by
  unfold resetError at h
  repeat' split at h
  all_goals simp_all

theorem aeadReset_ends : AllNext (AeadEnd cfg (.aeadReset c) c s) (aeadReset cfg c s) := by
  refine aead_allNext fun a sl hc hs => ?_
  split
  · rename_i e he
    rcases resetError_some he with rfl | rfl <;> exact aeadEnd_raise hc (by decide)
  · rename_i he
    have live := ((resetError_eq_none_iff sl a).1 he).1
    exact withRange_allNext fun _ => withRange_allNext fun _ => startMessage_allNext a _ _ hc hs live

/-- The checks of AEAD_AAD raise E_SEQ, E_UNSUPPORTED or E_ARG. -/
theorem aadError_some {sl : Slot} {a : Args} {e : Err} (h : aadError sl a = some e) :
    e = .seq ∨ e = .unsupported ∨ e = .arg := by
  unfold aadError at h
  repeat' split at h
  all_goals simp_all

/-- The checks of AEAD_AAD pass on a StreamMode session only (R133, R134). -/
theorem aadError_none {sl : Slot} {a : Args} (h : aadError sl a = none) :
    sl.phase ≠ .unconstructed ∧ sl.mode = .stream := by
  unfold aadError at h
  by_cases hp : sl.phase = .unconstructed
  · simp [hp] at h
  · cases hm : sl.mode with
    | stream => exact ⟨hp, rfl⟩
    | counter => simp [hp, hm] at h

theorem aeadAad_ends : AllNext (AeadEnd cfg (.aeadAad c) c s) (aeadAad cfg c s) := by
  refine aead_allNext fun a sl hc hs => ?_
  have run (code) := AeadRun.refl cfg (.aeadAad c) c code s
  split
  · rename_i e he
    rcases aadError_some he with rfl | rfl | rfl <;> exact aeadEnd_raise hc (by decide)
  · rename_i he
    obtain ⟨live, hm⟩ := aadError_none he
    refine withRange_allNext fun _ => ?_
    split
    · exact (run _).failSlot rfl hs live rfl rfl rfl hc (by decide)
    · rename_i bs hbs
      refine (run 0).completes rfl hs (slotStep_of_session live rfl rfl ?_ (by simp [hm])) hc
      exact assign_session (processAadBytes_length hbs)

/-- The checks of a transform raise E_SEQ or E_SIZE. -/
theorem transformError_some {sl : Slot} {a : Args} {e : Err} (h : transformError sl a = some e) :
    e = .seq ∨ e = .size := by
  unfold transformError at h
  repeat' split at h
  all_goals simp_all

/-- An admitted phase is a session's. -/
theorem live_of_open {sl : Slot} (h : sl.phase.open = true) : sl.phase ≠ .unconstructed := by
  rintro e
  rw [e] at h
  cases h

/-- What AEAD_ENCRYPT and AEAD_DECRYPT share: the member keeps the state's length, and its failure has a detail of
E_BACKEND. -/
theorem transform_ends {i : Instr} {member : Backend → Bytes → Bytes → Option (Bytes × Bytes)} {info : Word}
    (hm : ∀ be x bs y bs', member be x bs = some (y, bs') → bs'.length = bs.length) (hd : EndDetail 5 info) :
    AllNext (AeadEnd cfg i c s) (transform cfg member info c s) := by
  refine aead_allNext fun a sl hc hs => ?_
  have run (code) := AeadRun.refl cfg i c code s
  split
  · rename_i e he
    rcases transformError_some he with rfl | rfl <;> exact aeadEnd_raise hc (by decide)
  · rename_i he
    have live := live_of_open ((transformError_eq_none_iff sl a).1 he).1
    refine withRange_allNext fun _ => withRange_allNext fun _ => ?_
    split
    · trivial
    · unfold runTransform
      split
      · exact ((run _).storeFree _ _).failSlot rfl hs live rfl rfl rfl hc hd
      · rename_i out bs hbs
        refine ((run 0).store _ _).completes rfl hs (slotStep_of_session live rfl rfl ?_ (by simp)) hc
        exact assign_session (hm _ _ _ _ _ hbs)

theorem aeadEncrypt_ends : AllNext (AeadEnd cfg (.aeadEncrypt c) c s) (aeadEncrypt cfg c s) :=
  transform_ends cfg c s (fun _ _ _ _ _ h => (encryptBytes_length h).2) (by decide)

theorem aeadDecrypt_ends : AllNext (AeadEnd cfg (.aeadDecrypt c) c s) (aeadDecrypt cfg c s) :=
  transform_ends cfg c s (fun _ _ _ _ _ h => (decryptBytes_length h).2) (by decide)

theorem rejectTag_allNext {a : Args} (hc : s.cur < s.ports.length) :
    AllNext (AeadEnd cfg (.aeadAuthTag c) c s) (rejectTag cfg a s) := by
  unfold rejectTag
  split
  · exact withRange_allNext fun _ => ((AeadRun.refl cfg _ c _ s).store _ _).finish hc (by decide)
  · exact aeadEnd_raise hc (by decide)

theorem aeadAuthTag_ends : AllNext (AeadEnd cfg (.aeadAuthTag c) c s) (aeadAuthTag cfg c s) := by
  refine aead_allNext fun a sl hc hs => ?_
  split
  · exact aeadEnd_raise hc (by decide)
  · rename_i hopen
    have live := live_of_open (Bool.eq_true_of_not_eq_false hopen)
    split
    · exact rejectTag_allNext cfg c s hc
    · have run (code) := (AeadRun.refl cfg (.aeadAuthTag c) c code s).store (u32 a.a0) (zeros (byteCount a.a1))
      refine withRange_allNext fun _ => ?_
      unfold deliverTag
      split
      · exact (run _).failSlot rfl hs live rfl rfl rfl hc (by decide)
      · rename_i tag bs hbs
        refine (((run 0).tagStage tag).store _ _).completes rfl hs (slotStep_of_session live rfl rfl ?_ (by simp)) hc
        exact assign_session (getTagBytes_length hbs).2

theorem aeadDestroy_ends : AllNext (AeadEnd cfg (.aeadDestroy c) c s) (aeadDestroy c s) := by
  refine aead_allNext fun a sl hc hs => (AeadRun.refl cfg _ c 0 s).completes rfl hs ⟨fun _ => ?_, fun _ h => ?_⟩ hc
  · exact empty_ok cfg
  · exact absurd rfl h

end

/-- Every next state an AEAD command answers is an end of it. -/
theorem exec_aead {i : Instr} {c : Nat} (hi : i.slot? = some c) (s : State) :
    AllNext (AeadEnd Config.hw i c s) (exec i s) := by
  cases i with
  | aeadConstruct d m => obtain rfl := Option.some.inj hi; exact aeadConstruct_ends _ _ s m
  | aeadReset d => obtain rfl := Option.some.inj hi; exact aeadReset_ends _ _ s
  | aeadAad d => obtain rfl := Option.some.inj hi; exact aeadAad_ends _ _ s
  | aeadEncrypt d => obtain rfl := Option.some.inj hi; exact aeadEncrypt_ends _ _ s
  | aeadDecrypt d => obtain rfl := Option.some.inj hi; exact aeadDecrypt_ends _ _ s
  | aeadAuthTag d => obtain rfl := Option.some.inj hi; exact aeadAuthTag_ends _ _ s
  | aeadDestroy d => obtain rfl := Option.some.inj hi; exact aeadDestroy_ends _ _ s
  | rngSeed | rngRandomSeed | rngRandBytes | rngRandU32 | rngRandU64 | rngLock | rngUnlock | rngCtx | rngShutdown =>
    cases hi

end Sys2Proof.Machine
end

section
/-! What an RNG command can do: it is held, or it ends, and then it has changed the RNG unit in a way that keeps the
unit's invariant, and no slot. -/

namespace Sys2Proof.Machine

/-- R42 (f) and R230 for `GEN`: the part of the RNG unit's invariant that is not about the mutex. -/
def EngineOk (s : State) : Prop := s.gen.wf = true ∧ (s.created = false → s.gen = .new)

/-- An RNG command `i` on its way or at its end, the mutex apart. -/
structure RngRun (i : Instr) (code : BitVec 8) (s u : State) : Prop extends CommandRun i code s u where
  slots : u.slots = s.slots
  engine : EngineOk s → EngineOk u
  epoch : i ≠ .rngShutdown → u.engineEpoch = s.engineEpoch

/-- What an RNG command may do to the mutex from its issue to its end: nothing, or RNG_UNLOCK frees its owner's, or
RNG_LOCK takes a free one (R163, R176, R178). -/
def MutexMove (i : Instr) (s u : State) : Prop :=
  u.lockOwner = s.lockOwner ∨ (i = .rngUnlock ∧ s.lockOwner = some s.cur ∧ u.lockOwner = none) ∨
    (i = .rngLock ∧ s.lockOwner = none ∧ u.lockOwner = some s.cur)

/-- An RNG command's end. -/
def RngEnd (i : Instr) (s t : State) : Prop :=
  ∃ code info, Ended s t code info ∧ EndDetail code info ∧ RngRun i code s t ∧ MutexMove i s t ∧
    s.cur < s.ports.length

/-- A next state an RNG command answers: the command is held by an owned mutex (R163), or it has ended. -/
def HeldOrEnded (i : Instr) (s t : State) : Prop := (t = s ∧ s.lockOwner ≠ none) ∨ RngEnd i s t

namespace RngRun
variable {cfg : Config} {i : Instr} {code : BitVec 8} {s u : State}

theorem refl (i : Instr) (code : BitVec 8) (s : State) : RngRun i code s s := ⟨.refl _ _ s, rfl, id, fun _ => rfl⟩

theorem ofMutex (h : RngRun i code s u) (o : Option Nat) : RngRun i code s { u with lockOwner := o } :=
  ⟨⟨h.ports, h.host⟩, h.slots, h.engine, h.epoch⟩

theorem takeMutex (h : RngRun i code s u) : RngRun i code s u.takeMutex := h.ofMutex _

theorem release (h : RngRun i code s u) : RngRun i code s u.release := h.ofMutex _

/-- Data memory, the free values drawn and the entropy ports are no part of the claim. -/
theorem store (h : RngRun i code s u) (base : Nat) (v : Bytes) : RngRun i code s (u.store cfg base v) :=
  ⟨⟨h.ports, h.host⟩, h.slots, h.engine, h.epoch⟩

theorem storeFree (h : RngRun i code s u) (base n : Nat) : RngRun i code s (u.storeFree cfg base n) :=
  ⟨⟨h.ports, h.host⟩, h.slots, h.engine, h.epoch⟩

theorem seedStage (h : RngRun i code s u) (v : Bytes) : RngRun i code s (throughSeedStage cfg u v).2 :=
  ⟨h.toCommandRun.seedStage cfg v, h.slots, h.engine, h.epoch⟩

theorem drawSeed (h : RngRun i code s u) : RngRun i code s (drawSeed cfg u).2 :=
  seedStage (u := { u with env := (chainDraw cfg u.env).2 }) ⟨⟨h.ports, h.host⟩, h.slots, h.engine, h.epoch⟩ _

theorem setRet0 (h : RngRun i 0 s u) (hi : i = .rngRandU32 ∨ i = .rngRandU64 ∨ i = .rngCtx) (v : Word) :
    RngRun i 0 s (u.setRet0 v) :=
  ⟨h.toCommandRun.updCur fun _ => ⟨rfl, .inl rfl, .inl rfl, .inl rfl, .inr ⟨hi, rfl⟩, .inl rfl⟩, h.slots, h.engine,
    h.epoch⟩

theorem setRet1 (h : RngRun i 0 s u) (hi : i = .rngRandU64) (v : Word) : RngRun i 0 s (u.setRet1 v) :=
  ⟨h.toCommandRun.updCur fun _ => ⟨rfl, .inl rfl, .inl rfl, .inl rfl, .inl rfl, .inr ⟨hi, rfl⟩⟩, h.slots, h.engine,
    h.epoch⟩

/-- A new state of an engine that exists. -/
theorem setGen (h : RngRun i code s u) (hc : u.created = true) (g : Bytes) : RngRun i code s (u.setGen cfg g) :=
  ⟨⟨h.ports, h.host⟩, h.slots, fun ok => ⟨SecBuf.wf_assign cfg g (h.engine ok).1, fun e => nomatch hc.symm.trans e⟩,
    h.epoch⟩

theorem scrambleGen (h : RngRun i code s u) (hc : u.created = true) : RngRun i code s (u.scrambleGen cfg) :=
  ⟨⟨h.ports, h.host⟩, h.slots, fun ok => ⟨SecBuf.wf_scramble cfg _ (h.engine ok).1, fun e => nomatch hc.symm.trans e⟩,
    h.epoch⟩

theorem finish (h : RngRun i code s u) (hm : MutexMove i s u) (hs : s.cur < s.ports.length) {info : Word}
    (hd : EndDetail code info) : RngEnd i s (Machine.finish u code info) :=
  ⟨code, info, h.ended hs _ _, hd, ⟨h.toCommandRun.finish _ _, h.slots, h.engine, h.epoch⟩, hm, hs⟩

/-- A framed command, the mutex free at its issue, frees it again and ends. -/
theorem finishFree (h : RngRun i code s u) (hf : s.lockOwner = none) (hs : s.cur < s.ports.length) {info : Word}
    (hd : EndDetail code info) : RngEnd i s (Machine.finish u.release code info) :=
  h.release.finish (.inl hf.symm) hs hd

/-- A generator member fails on an engine that exists (R189). -/
theorem genFailed {info : Word} (h : RngRun i 5 s u) (hc : u.created = true) (hf : s.lockOwner = none)
    (hs : s.cur < s.ports.length) (hd : EndDetail 5 info) : RngEnd i s (genFailed cfg u info) :=
  (h.scrambleGen hc).finishFree hf hs hd

/-- Lazy creation, where it succeeds: the engine exists. -/
theorem created {u' : State} (h : RngRun i code s u) (e : ensureCreated cfg u = .ok u') :
    RngRun i code s u' ∧ u'.created = true ∧ u'.lockOwner = u.lockOwner := by
  rcases ensureCreated_cases cfg u with ⟨hc, e'⟩ | ⟨_, _, e'⟩ | ⟨_, _, _, _, e'⟩ | ⟨g, g', hc, _, _, e'⟩
  · obtain rfl : u = u' := by simpa using e'.symm.trans e
    exact ⟨h, hc, rfl⟩
  · cases e'.symm.trans e
  · cases e'.symm.trans e
  · obtain rfl : _ = u' := by simpa using e'.symm.trans e
    have d := h.drawSeed (cfg := cfg)
    exact ⟨⟨⟨d.ports, d.host⟩, d.slots, fun ok => ⟨SecBuf.wf_assign cfg g' (h.engine ok).1, nofun⟩, d.epoch⟩, rfl, rfl⟩

/-- Lazy creation, where it fails: the engine is as it was (R165). -/
theorem creationFailed {r : State × Word} (h : RngRun i 5 s u) (e : ensureCreated cfg u = .error r)
    (hf : s.lockOwner = none) (hs : s.cur < s.ports.length) : RngEnd i s (creationFailed r) := by
  rcases ensureCreated_cases cfg u with ⟨_, e'⟩ | ⟨_, _, e'⟩ | ⟨_, _, _, _, e'⟩ | ⟨_, _, _, _, _, e'⟩
  · cases e'.symm.trans e
  · obtain rfl : _ = r := by simpa using e'.symm.trans e
    exact h.finishFree hf hs (info := 16) (by decide)
  · obtain rfl : _ = r := by simpa using e'.symm.trans e
    exact h.drawSeed.finishFree hf hs (info := 18) (by decide)
  · cases e'.symm.trans e

end RngRun

/-! ### The command frame of R164 -/

section
variable {cfg : Config} {i : Instr} {s : State}

theorem rngEnd_raise {e : Err} {info : Word} (hs : s.cur < s.ports.length) (hd : EndDetail e.code info) :
    RngEnd i s (raise s e info) :=
  (RngRun.refl i e.code s).finish (.inl rfl) hs hd

/-- The mutex: a command is held, or goes on as its owner. -/
theorem withMutex_heldOrEnded {k : State → Result}
    (h : s.lockOwner = none → AllNext (HeldOrEnded i s) (k s.takeMutex)) :
    AllNext (HeldOrEnded i s) (withMutex s k) :=
  withMutex_allNext (fun r hr => .inl ⟨rfl, by simp [hr]⟩) h

/-- The engine: its creation fails, or the body runs on one that exists, the current port being the mutex's owner. -/
theorem onEngine_ends {k : State → State} (hf : s.lockOwner = none) (hs : s.cur < s.ports.length)
    (h : ∀ u, (∀ code, RngRun i code s u) → u.created = true → u.lockOwner = some s.cur → RngEnd i s (k u)) :
    RngEnd i s (onEngine cfg s.takeMutex k) := by
  have run (code) := (RngRun.refl i code s).takeMutex
  refine onEngine_ind (fun r e => (run 5).creationFailed e hf hs) fun u e => ?_
  exact h u (fun code => ((run code).created e).1) ((run 0).created e).2.1 ((run 0).created e).2.2

theorem withEngine_ends {k : State → Result} (hf : s.lockOwner = none) (hs : s.cur < s.ports.length)
    (h : ∀ u, (∀ code, RngRun i code s u) → u.created = true → AllNext (HeldOrEnded i s) (k u)) :
    AllNext (HeldOrEnded i s) (withEngine cfg s.takeMutex k) := by
  have run (code) := (RngRun.refl i code s).takeMutex
  refine withEngine_allNext (fun r e => .inr ((run 5).creationFailed e hf hs)) fun u e => ?_
  exact h u (fun code => ((run code).created e).1) ((run 0).created e).2.1

/-- A framed command whose body cannot stop. -/
theorem framed_ends {k : State → State}
    (h : ∀ u, s.lockOwner = none → s.cur < s.ports.length → (∀ code, RngRun i code s u) → u.created = true →
      u.lockOwner = some s.cur → RngEnd i s (k u)) :
    AllNext (HeldOrEnded i s) (withCommand s fun _ => withMutex s fun s => .next (onEngine cfg s k)) :=
  withCommand_allNext fun _ ha => withMutex_heldOrEnded fun hf =>
    have hs := cur_lt_of_operands ha
    .inr (onEngine_ends hf hs fun u => h u hf hs)

/-- A framed command with a range, whose length is checked before the frame (R164 (2)). -/
theorem framedRange_ends {k : Args → State → State}
    (h : ∀ a u, s.lockOwner = none → s.cur < s.ports.length → (∀ code, RngRun i code s u) → u.created = true →
      RngEnd i s (k a u)) :
    AllNext (HeldOrEnded i s) (withCommand s fun a => if s32 a.a1 ≤ 0 then .next (raise s .arg 0)
      else withMutex s fun s => withEngine cfg s fun s => withRange s (u32 a.a0) (byteCount a.a1) (.next (k a s))) := by
  refine withCommand_allNext fun a ha => ?_
  have hs := cur_lt_of_operands ha
  split
  · exact .inr (rngEnd_raise hs (by decide))
  · exact withMutex_heldOrEnded fun hf => withEngine_ends hf hs fun u run hu => withRange_allNext fun _ =>
      .inr (h a u hf hs run hu)

end

/-! ### The nine commands -/

section
variable {cfg : Config} {i : Instr} {s u : State}

theorem seedWith_ends {seed : Bytes} (run : ∀ code, RngRun i code s u) (hu : u.created = true)
    (hf : s.lockOwner = none) (hs : s.cur < s.ports.length) : RngEnd i s (seedWith cfg seed u) := by
  unfold seedWith
  split
  · exact (run 5).genFailed hu hf hs (by decide)
  · exact ((run 0).setGen hu _).finishFree hf hs (by decide)

theorem rngSeed_ends : AllNext (HeldOrEnded .rngSeed s) (rngSeed cfg s) :=
  framedRange_ends fun a u hf hs run hu =>
    seedWith_ends (u := (throughSeedStage cfg u (u.load cfg (u32 a.a0) (byteCount a.a1))).2)
      (fun code => (run code).seedStage _) hu hf hs

theorem rngRandomSeed_ends : AllNext (HeldOrEnded .rngRandomSeed s) (rngRandomSeed cfg s) :=
  framed_ends fun u hf hs run hu _ =>
    seedWith_ends (u := (drawSeed cfg u).2) (fun code => (run code).drawSeed) hu hf hs

theorem wholeWords_run {base q : Nat} {u' : State} (run : ∀ code, RngRun i code s u) (hu : u.created = true)
    (e : wholeWords cfg base q u = some u') : (∀ code, RngRun i code s u') ∧ u'.created = true := by
  unfold wholeWords at e
  split at e
  · exact Option.some.inj e ▸ ⟨run, hu⟩
  · split at e
    · cases e
    · exact Option.some.inj e ▸ ⟨fun code => ((run code).setGen hu _).store _ _, hu⟩

theorem tailWord_run {base t : Nat} {u' : State} (run : ∀ code, RngRun i code s u) (hu : u.created = true)
    (e : tailWord cfg base t u = some u') : RngRun i 0 s u' := by
  unfold tailWord at e
  split at e
  · exact Option.some.inj e ▸ run 0
  · split at e
    · cases e
    · exact Option.some.inj e ▸ ((run 0).setGen hu _).store _ _

theorem rngRandBytes_ends : AllNext (HeldOrEnded .rngRandBytes s) (rngRandBytes cfg s) := by
  refine framedRange_ends fun a u hf hs run hu => ?_
  unfold fillRandom
  split
  · exact ((run 5).storeFree _ _).genFailed hu hf hs (by decide)
  · rename_i u1 e1
    obtain ⟨run1, hu1⟩ := wholeWords_run run hu e1
    split
    · exact ((run1 5).storeFree _ _).genFailed hu1 hf hs (by decide)
    · rename_i u2 e2
      exact (tailWord_run run1 hu1 e2).finishFree hf hs (by decide)

theorem rngRandU32_ends : AllNext (HeldOrEnded .rngRandU32 s) (rngRandU32 cfg s) := by
  refine framed_ends fun u hf hs run hu _ => ?_
  unfold returnWord
  split
  · exact (run 5).genFailed hu hf hs (by decide)
  · exact (((run 0).setGen hu _).setRet0 (.inl rfl) _).finishFree hf hs (by decide)

theorem rngRandU64_ends : AllNext (HeldOrEnded .rngRandU64 s) (rngRandU64 cfg s) := by
  refine framed_ends fun u hf hs run hu _ => ?_
  unfold returnTwoWords
  split
  · exact (run 5).genFailed hu hf hs (by decide)
  · exact ((((run 0).setGen hu _).setRet0 (.inr (.inl rfl)) _).setRet1 rfl _).finishFree hf hs (by decide)

theorem rngLock_ends : AllNext (HeldOrEnded .rngLock s) (rngLock cfg s) :=
  framed_ends fun _ hf hs run _ ho => (run 0).finish (.inr (.inr ⟨rfl, hf, ho⟩)) hs (by decide)

theorem rngUnlock_ends : AllNext (HeldOrEnded .rngUnlock s) (rngUnlock s) := by
  refine withCommand_allNext fun a ha => ?_
  have hs := cur_lt_of_operands ha
  split
  · rename_i ho
    exact .inr ((RngRun.refl _ 0 s).release.finish (.inr (.inl ⟨rfl, ho, rfl⟩)) hs (by decide))
  · exact .inr (rngEnd_raise hs (by decide))

theorem rngCtx_ends : AllNext (HeldOrEnded .rngCtx s) (rngCtx cfg s) := by
  refine withCommand_allNext fun a ha => ?_
  have hs := cur_lt_of_operands ha
  have hi : Instr.rngCtx = .rngRandU32 ∨ Instr.rngCtx = .rngRandU64 ∨ Instr.rngCtx = .rngCtx := .inr (.inr rfl)
  split
  · exact .inr (((RngRun.refl _ 0 s).setRet0 hi _).finish (.inl rfl) hs (by decide))
  · exact withMutex_heldOrEnded fun hf => .inr (onEngine_ends hf hs fun u run _ _ =>
      ((run 0).release.setRet0 hi _).finish (.inl hf.symm) hs (by decide))

theorem rngShutdown_ends : AllNext (HeldOrEnded .rngShutdown s) (rngShutdown s) := by
  refine withCommand_allNext fun a ha => withMutex_heldOrEnded fun hf => ?_
  have hs := cur_lt_of_operands ha
  have run := (RngRun.refl .rngShutdown 0 s).takeMutex
  split
  · have gone : RngRun .rngShutdown 0 s s.takeMutex.dropEngine :=
      ⟨⟨run.ports, run.host⟩, run.slots, fun _ => ⟨SecBuf.wf_new, fun _ => rfl⟩, fun h => absurd rfl h⟩
    exact .inr (gone.finishFree hf hs (by decide))
  · exact .inr (run.finishFree hf hs (by decide))

end

/-- Every next state an RNG command answers is the state it is held in or an end of it. -/
theorem exec_rng {i : Instr} (hi : i.slot? = none) (s : State) : AllNext (HeldOrEnded i s) (exec i s) := by
  cases i with
  | aeadConstruct | aeadReset | aeadAad | aeadEncrypt | aeadDecrypt | aeadAuthTag | aeadDestroy => cases hi
  | rngSeed => exact rngSeed_ends
  | rngRandomSeed => exact rngRandomSeed_ends
  | rngRandBytes => exact rngRandBytes_ends
  | rngRandU32 => exact rngRandU32_ends
  | rngRandU64 => exact rngRandU64_ends
  | rngLock => exact rngLock_ends
  | rngUnlock => exact rngUnlock_ends
  | rngCtx => exact rngCtx_ends
  | rngShutdown => exact rngShutdown_ends

end Sys2Proof.Machine
end

section
/-! The claims about every command, read off the way it ends. -/

namespace Sys2Proof.Machine

/-- Every next state a command answers is the state an RNG command is held in, or an end of the command. -/
theorem exec_cases {i : Instr} {s t : State} (h : exec i s = .next t) :
    (i.slot? = none ∧ t = s ∧ s.lockOwner ≠ none) ∨
      ∃ code info, Ended s t code info ∧ EndDetail code info ∧ CommandRun i code s t := by
  cases hi : i.slot? with
  | some c =>
    obtain ⟨code, info, he, hd, run⟩ := allNext_iff.1 (exec_aead hi s) t h
    exact .inr ⟨code, info, he, hd, run.toCommandRun⟩
  | none =>
    rcases allNext_iff.1 (exec_rng hi s) t h with ⟨rfl, ho⟩ | ⟨code, info, he, hd, run, -, -⟩
    · exact .inl ⟨rfl, rfl, ho⟩
    · exact .inr ⟨code, info, he, hd, run.toCommandRun⟩

/-- Settles O60: a command is held, or ends with a code and its detail. -/
theorem everyEndHasItsDetail : Obligations.EveryEndHasItsDetail := by
  intro s t i h
  rcases exec_cases h with held | ⟨code, info, he, hd, -⟩
  · exact .inl held
  · exact .inr ⟨code, info, he, hd⟩

/-- Settles O48: a use of the port writes a return register only in a successful command that returns a value. -/
theorem retWriters : Obligations.RetWriters := by
  intro s t i h
  rcases exec_cases h with ⟨-, rfl, -⟩ | ⟨code, info, he, hd, run⟩
  · exact ⟨.inl rfl, .inl rfl⟩
  · have success (hc : code = 0) : Ended s t 0 0 := by
      subst hc
      obtain ⟨-, rfl⟩ | ⟨h, -⟩ | ⟨h, -⟩ := hd
      · exact he
      · cases h
      · cases h
    exact ⟨run.ret0Kept_or.imp_right fun ⟨hi, hc⟩ => ⟨hi, success hc⟩,
      run.ret1Kept_or.imp_right fun ⟨hi, hc⟩ => ⟨hi, success hc⟩⟩

/-- Settles O47: the frame is that of the run of an RNG command, and a held one changes nothing. -/
theorem rngFrame : Obligations.RngFrame := by
  intro s t i hi h
  rcases allNext_iff.1 (exec_rng hi s) t h with ⟨rfl, -⟩ | ⟨code, info, -, -, run, -, -⟩
  · have run := RngRun.refl i 0 t
    exact ⟨run.otherPortsKept, run.argsKept, run.stagesKeptOrEmpty, rfl, run.host, run.epoch⟩
  · exact ⟨run.otherPortsKept, run.argsKept, run.stagesKeptOrEmpty, run.slots, run.host, run.epoch⟩

/-- No RNG command changes a slot. -/
theorem slots_of_exec_rng {i : Instr} {s t : State} (hi : i.slot? = none) (h : exec i s = .next t) :
    t.slots = s.slots :=
  (rngFrame s t i hi h).2.2.2.1

/-- Settles O35: of the commands of slot `c` only AEAD_CONSTRUCT and AEAD_DESTROY take a step that writes the mode or the
tag length, and a command of another slot takes its step there. -/
theorem modeAndTagLengthWriters : Obligations.ModeAndTagLengthWriters := by
  intro s t c i sl h hsl hcon hdes
  cases hi : i.slot? with
  | none => exact ⟨sl, by rw [slots_of_exec_rng hi h, hsl], rfl, rfl⟩
  | some d =>
    obtain ⟨_, _, -, -, run⟩ := allNext_iff.1 (exec_aead hi s) t h
    rcases run.slots with e | ⟨sld, sl', hd, e, st⟩
    · exact ⟨sl, by rw [e, hsl], rfl, rfl⟩
    · by_cases hcd : d = c
      · subst hcd
        obtain rfl := Option.some.inj (hd.symm.trans hsl)
        exact ⟨sl', by rw [e, getElem?_set_of_some hd], st.fields hcon hdes⟩
      · exact ⟨sl, by rw [e, List.getElem?_set_ne hcd, hsl], rfl, rfl⟩

end Sys2Proof.Machine
end

section
/-! What one step of the machine can be, said once, and the invariants of R42 over it. -/

namespace Sys2Proof.Machine

/-- The block's own state, data memory and the entropy ports apart, is unchanged. -/
structure BlockKept (s t : State) : Prop where
  ports : t.ports = s.ports
  slots : t.slots = s.slots
  created : t.created = s.created
  gen : t.gen = s.gen
  lockOwner : t.lockOwner = s.lockOwner

theorem BlockKept.refl (s : State) : BlockKept s s := ⟨rfl, rfl, rfl, rfl, rfl⟩

theorem BlockKept.pendingAt {s t : State} (h : BlockKept s t) (p : Nat) : t.pendingAt p = s.pendingAt p := by
  simp [State.pendingAt, h.ports]

/-- One step from `s` to `t`. In each case `s0` is `s` with the model's own record of who moves next advanced. -/
inductive Stepped (s t : State) : Prop
  /-- Nothing is served, or a requester reads a register, or reads or writes data memory. -/
  | kept (h : BlockKept s t)
  /-- The controller runs the command of a port. -/
  | command (s0 : State) (l : Latch) (i : Instr) (hk : BlockKept s s0) (hl : s0.pendingAt s0.cur = some l)
      (hd : decode s0.slots.length l.word = .ok i) (he : exec i s0 = .next t)
  /-- The word of a port is illegal (R96). -/
  | illegal (s0 : State) (l : Latch) (hk : BlockKept s s0) (hl : s0.pendingAt s0.cur = some l)
      (ht : t = raise s0 .illegal 0)
  /-- A requester writes a register of its port. -/
  | registerWrite (s0 : State) (p off : Nat) (v : Word) (hk : BlockKept s s0)
      (ht : t = { s0 with ports := s0.ports.modify p fun q => q.writeReg off v })
  /-- The environment uses the generator through the handle, on an engine that exists (R182). -/
  | handleUse (s0 : State) (hk : BlockKept s s0) (hc : s0.created = true)
      (ht : (∃ g, BlockKept (s0.setGen Config.hw g) t) ∨ BlockKept (s0.scrambleGen Config.hw) t)
  /-- The hardware reset (R280). -/
  | reset (s0 : State) (rest : List Move) (ha : s.agenda = .hardReset :: rest) (hk : BlockKept s s0)
      (ht : t = hardReset Config.hw s0)

theorem serve_stepped {s s0 : State} (p : Nat) (hk : BlockKept s s0) : AllNext (Stepped s) (serve exec p s0) := by
  have hk' : BlockKept s { s0 with cur := p } := ⟨hk.ports, hk.slots, hk.created, hk.gen, hk.lockOwner⟩
  unfold serve
  split
  · exact .kept hk
  · rename_i l hl
    split
    · exact .illegal _ l hk' hl rfl
    · rename_i i hi
      exact allNext_iff.2 fun t he => .command _ l i hk' hl hi he

theorem withRegister_allNext {P : State → Prop} {cfg : Config} {s : State} {r addr size : Nat}
    {k : Nat → Nat → Result} (h : ∀ p off, AllNext P (k p off)) : AllNext P (withRegister cfg s r addr size k) := by
  unfold withRegister
  split
  · trivial
  · split
    · trivial
    · split
      · trivial
      · exact h _ _

theorem handleUse_stepped {s s0 : State} (r n epoch : Nat) (hk : BlockKept s s0) :
    AllNext (Stepped s) (handleUse Config.hw r n epoch s0) := by
  unfold handleUse
  split
  · rename_i h
    split
    · exact .handleUse s0 hk h.2.1 (.inr ⟨rfl, rfl, rfl, rfl, rfl⟩)
    · exact .handleUse s0 hk h.2.1 (.inl ⟨_, rfl, rfl, rfl, rfl, rfl⟩)
  · trivial

/-- Every step is one of the cases of `Stepped`. -/
theorem step_stepped (s : State) : AllNext (Stepped s) (step s) := by
  unfold step stepWith
  split
  · trivial
  · split
    · rename_i m rest ha
      have hk : BlockKept s { s with agenda := rest } := ⟨rfl, rfl, rfl, rfl, rfl⟩
      cases m with
      | serve p => exact serve_stepped p hk
      | regRead r addr size => exact withRegister_allNext fun _ _ => .kept ⟨rfl, rfl, rfl, rfl, rfl⟩
      | regWrite r addr size v => exact withRegister_allNext fun p off => .registerWrite _ p off v hk rfl
      | memRead r base n => exact withHostRange_allNext fun _ => .kept ⟨rfl, rfl, rfl, rfl, rfl⟩
      | memWrite r base v => exact withHostRange_allNext fun _ => .kept ⟨rfl, rfl, rfl, rfl, rfl⟩
      | handleUse r n epoch => exact handleUse_stepped r n epoch hk
      | handleSeed r v => trivial
      | hardReset => exact .reset _ rest ha hk rfl
    · split
      · exact .kept (.refl s)
      · exact serve_stepped _ ⟨rfl, rfl, rfl, rfl, rfl⟩

theorem stepped_of_step {s t : State} (h : step s = .next t) : Stepped s t := allNext_iff.1 (step_stepped s) t h

/-- What a hardware reset leaves: data memory and the draw counter aside, every field is named (R43, R280). -/
theorem hardReset_eq (cfg : Config) (s : State) : ∃ m n, hardReset cfg s =
    { s with ports := s.ports.map fun _ => .idle, slots := s.slots.map fun _ => .empty, created := false, gen := .new,
             lockOwner := none, engineEpoch := s.engineEpoch + 1, mem := m, draws := n } := by
  obtain ⟨m, n, h⟩ := storeFreeAll_eq cfg s.pendingOutputs s
  exact ⟨m, n, by simp [hardReset, h]⟩

/-- The port of an ended command has nothing pending. -/
theorem pendingAt_of_ended {s t : State} {code : BitVec 8} {info : Word} (h : Ended s t code info) :
    t.pendingAt s.cur = none := by
  obtain ⟨q, hq, e⟩ := Option.map_eq_some_iff.1 h
  simp only [Prod.mk.injEq] at e
  simp [State.pendingAt, hq, e.2.2]

/-- A port with a pending command exists. -/
theorem lt_of_pendingAt {s : State} {p : Nat} {l : Latch} (h : s.pendingAt p = some l) : p < s.ports.length := by
  obtain ⟨q, hq, -⟩ := Option.bind_eq_some_iff.1 h
  exact (List.getElem?_eq_some_iff.1 hq).1

/-! ### The slots -/

/-- A command keeps R42 of every slot: an AEAD command takes a slot's step, an RNG command changes none. -/
theorem slotsOk_of_exec {i : Instr} {s t : State} (ok : s.SlotsOk) (h : exec i s = .next t) : t.SlotsOk := by
  cases hi : i.slot? with
  | none =>
    rw [State.SlotsOk, slots_of_exec_rng hi h]
    exact ok
  | some c =>
    obtain ⟨_, _, -, -, run⟩ := allNext_iff.1 (exec_aead hi s) t h
    rcases run.slots with e | ⟨sl, sl', hsl, e, st⟩
    · rw [State.SlotsOk, e]
      exact ok
    · intro x hx
      rw [e] at hx
      rcases List.mem_or_eq_of_mem_set hx with hx | rfl
      · exact ok x hx
      · exact st.ok (ok sl (List.mem_of_getElem? hsl))

/-- Settles O14: a command takes a slot's step, a reset empties every slot, and no other step changes one. -/
theorem slotsKeepTheirInvariant : Obligations.SlotsKeepTheirInvariant := by
  intro s t ok h
  have of_eq {u v : State} (hu : u.SlotsOk) (e : v.slots = u.slots) : v.SlotsOk := by rwa [State.SlotsOk, e]
  cases stepped_of_step h with
  | kept hk => exact of_eq ok hk.slots
  | command s0 l i hk hl hd he => exact slotsOk_of_exec (of_eq ok hk.slots) he
  | illegal s0 l hk hl ht => exact of_eq ok (ht ▸ hk.slots)
  | registerWrite s0 p off v hk ht => exact of_eq ok (ht ▸ hk.slots)
  | handleUse s0 hk hc ht =>
    rcases ht with ⟨g, hg⟩ | hg
    · exact of_eq ok (hg.slots.trans hk.slots)
    · exact of_eq ok (hg.slots.trans hk.slots)
  | reset s0 rest ha hk ht =>
    obtain ⟨m, n, e⟩ := hardReset_eq Config.hw s0
    intro sl hsl
    rw [ht, e] at hsl
    obtain ⟨_, -, rfl⟩ := List.mem_map.1 hsl
    exact empty_ok Config.hw

/-! ### The ports -/

theorem idle_ok : Port.idle.ok := ⟨by decide, rfl, rfl, rfl, by decide, by decide, fun _ h => absurd rfl h⟩

/-- The code of an end is at most 7, and a detail other than 0 comes with E_INIT or E_BACKEND (R24). -/
theorem EndDetail.code_le {code : BitVec 8} {info : Word} (h : EndDetail code info) :
    code.toNat ≤ 7 ∧ (info ≠ 0 → code = 4 ∨ code = 5) := by
  rcases h with ⟨hc, hi⟩ | ⟨hc, -⟩ | ⟨hc, -⟩
  · simp only [List.mem_cons, List.not_mem_nil, or_false] at hc
    exact ⟨by omega, fun h => absurd hi h⟩
  · exact ⟨by simp [hc], fun _ => .inl hc⟩
  · exact ⟨by simp [hc], fun _ => .inr hc⟩

/-- The end of a command keeps R42 at its port, and no other port changes. -/
theorem portsOk_of_end {i : Instr} {s t : State} {code c : BitVec 8} {info : Word} (ok : s.PortsOk)
    (run : CommandRun i code s t) (he : Ended s t c info) (hd : EndDetail c info) : t.PortsOk := by
  intro q hq
  obtain ⟨j, hj⟩ := List.mem_iff_getElem?.1 hq
  by_cases hjc : j = s.cur
  · subst hjc
    obtain ⟨p, q', hp, hq', use⟩ := run.curPort_cases.resolve_left fun ⟨_, e⟩ => nomatch hj.symm.trans e
    obtain rfl := Option.some.inj (hj.symm.trans hq')
    rw [Ended, hj, Option.map_some, Option.some.injEq, Prod.mk.injEq, Prod.mk.injEq] at he
    obtain ⟨hs, hinfo, hpend⟩ := he
    replace hs : q.status = statusDone c := hs
    obtain ⟨-, hkey, htag, hseed, -⟩ := ok p (List.mem_of_getElem? hp)
    obtain ⟨hle, hinit⟩ := EndDetail.code_le hd
    have hbusy : q.busy = true ↔ q.pending ≠ none := by simp [Port.busy, hs, hpend, -BitVec.getLsbD_eq_getElem]
    refine ⟨hbusy, use.keyStage.elim (·.trans hkey) id, use.tagStage.elim (·.trans htag) id,
      use.seedStage.elim (·.trans hseed) id, by simp [hs], by simpa [Port.code, hs] using hle, fun _ hne => ?_⟩
    simpa [Port.code, hs] using hinit (hinfo ▸ hne)
  · rw [run.otherPortsKept.2 j hjc] at hj
    exact ok q (List.mem_of_getElem? hj)

/-- A command that is held or ends keeps R42 at every port. -/
theorem portsOk_of_exec {i : Instr} {s t : State} (ok : s.PortsOk) (h : exec i s = .next t) : t.PortsOk := by
  rcases exec_cases h with ⟨-, rfl, -⟩ | ⟨code, info, he, hd, run⟩
  · exact ok
  · exact portsOk_of_end ok run he hd

/-- A register write keeps R42 at a port: it issues a command, or writes an `ARG` register, or is ignored (R22). -/
theorem writeReg_ok {p : Port} (off : Nat) (v : Word) (ok : p.ok) : (p.writeReg off v).ok := by
  obtain ⟨hbusy, hkey, htag, hseed, hrest⟩ := ok
  unfold Port.writeReg
  split
  · exact ⟨hbusy, hkey, htag, hseed, hrest⟩
  · split
    · exact ⟨by simp [Port.busy], hkey, htag, hseed, by simp, by simp [Port.code], nofun⟩
    all_goals exact ⟨hbusy, hkey, htag, hseed, hrest⟩

/-- Settles O15: a command's end writes a code and its detail and clears BUSY, an issue sets BUSY, a reset idles every
port, and no other step changes `STATUS`, `ERRINFO`, a pending record or a staging buffer. -/
theorem portsKeepTheirInvariant : Obligations.PortsKeepTheirInvariant := by
  intro s t ok h
  have of_eq {u v : State} (hu : u.PortsOk) (e : v.ports = u.ports) : v.PortsOk := by rwa [State.PortsOk, e]
  cases stepped_of_step h with
  | kept hk => exact of_eq ok hk.ports
  | command s0 l i hk hl hd he => exact portsOk_of_exec (of_eq ok hk.ports) he
  | illegal s0 l hk hl ht =>
    -- the end of a command that has done nothing; which command it is does not matter
    have run := (CommandRun.refl .rngLock 7 s0).finish 7 0
    have he := (CommandRun.refl .rngLock 7 s0).ended (lt_of_pendingAt hl) 7 0
    exact ht ▸ portsOk_of_end (of_eq ok hk.ports) run he (by decide)
  | registerWrite s0 p off v hk ht =>
    intro q hq
    obtain ⟨j, hj⟩ := List.mem_iff_getElem?.1 hq
    rw [ht, List.getElem?_modify, hk.ports] at hj
    obtain ⟨q0, hq0, rfl⟩ := Option.map_eq_some_iff.1 hj
    have ok0 := ok q0 (List.mem_of_getElem? hq0)
    split
    · exact writeReg_ok off v ok0
    · exact ok0
  | handleUse s0 hk hc ht =>
    rcases ht with ⟨g, hg⟩ | hg
    · exact of_eq ok (hg.ports.trans hk.ports)
    · exact of_eq ok (hg.ports.trans hk.ports)
  | reset s0 rest ha hk ht =>
    obtain ⟨m, n, e⟩ := hardReset_eq Config.hw s0
    intro p hp
    rw [ht, e] at hp
    obtain ⟨_, -, rfl⟩ := List.mem_map.1 hp
    exact idle_ok

/-! ### The RNG unit -/

theorem rngOk_iff (s : State) : s.RngOk ↔ EngineOk s ∧ ∀ r, s.lockOwner = some r → r < s.ports.length :=
  and_assoc.symm

theorem rngOk_congr {s t : State} (ok : s.RngOk) (hg : t.gen = s.gen) (hc : t.created = s.created)
    (ho : t.lockOwner = s.lockOwner) (hl : t.ports.length = s.ports.length) : t.RngOk := by
  rwa [State.RngOk, hg, hc, ho, hl]

/-- A command keeps the RNG unit's invariant: an owner it makes is the port it runs for. -/
theorem rngOk_of_exec {i : Instr} {s t : State} (ok : s.RngOk) (h : exec i s = .next t) : t.RngOk := by
  cases hi : i.slot? with
  | some c =>
    obtain ⟨_, _, -, -, run⟩ := allNext_iff.1 (exec_aead hi s) t h
    obtain ⟨hc, hg, ho, -, -⟩ := run.rng
    exact rngOk_congr ok hg hc ho run.ports_length
  | none =>
    rcases allNext_iff.1 (exec_rng hi s) t h with ⟨rfl, -⟩ | ⟨code, info, -, -, run, move, hs⟩
    · exact ok
    · obtain ⟨engine, owner⟩ := (rngOk_iff s).1 ok
      refine (rngOk_iff t).2 ⟨run.engine engine, fun r hr => ?_⟩
      rw [run.ports_length]
      rcases move with e | ⟨-, -, e⟩ | ⟨-, -, e⟩
      · exact owner r (e ▸ hr)
      · cases e.symm.trans hr
      · exact Option.some.inj (e.symm.trans hr) ▸ hs

/-- Settles O16: by the way each command ends, and because a use of the handle is on an engine that exists. -/
theorem rngUnitKeepsItsInvariant : Obligations.RngUnitKeepsItsInvariant := by
  intro s t ok h
  have kept {u v : State} (hu : u.RngOk) (hk : BlockKept u v) : v.RngOk :=
    rngOk_congr hu hk.gen hk.created hk.lockOwner (by rw [hk.ports])
  cases stepped_of_step h with
  | kept hk => exact kept ok hk
  | command s0 l i hk hl hd he => exact rngOk_of_exec (kept ok hk) he
  | illegal s0 l hk hl ht => exact ht ▸ rngOk_congr (kept ok hk) rfl rfl rfl (by simp [raise_eq_finish])
  | registerWrite s0 p off v hk ht => exact ht ▸ rngOk_congr (kept ok hk) rfl rfl rfl (by simp)
  | handleUse s0 hk hc ht =>
    obtain ⟨wf, -, owner⟩ := kept ok hk
    have absent {b : SecBuf} (e : s0.created = false) : b = .new := nomatch hc.symm.trans e
    rcases ht with ⟨g, hg⟩ | hg
    · exact kept (u := s0.setGen Config.hw g) ⟨SecBuf.wf_assign _ _ wf, absent, owner⟩ hg
    · exact kept (u := s0.scrambleGen Config.hw) ⟨SecBuf.wf_scramble _ _ wf, absent, owner⟩ hg
  | reset s0 rest ha hk ht =>
    obtain ⟨m, n, e⟩ := hardReset_eq Config.hw s0
    rw [ht, e]
    exact ⟨SecBuf.wf_new, fun _ => rfl, nofun⟩

/-- A command changes the owner of the mutex only as RNG_UNLOCK of the owner or as RNG_LOCK on a free mutex, and has then
ended. -/
theorem lockOwner_of_exec {i : Instr} {s t : State} (h : exec i s = .next t) : t.lockOwner = s.lockOwner ∨
    t.pendingAt s.cur = none ∧ ((i = .rngUnlock ∧ s.lockOwner = some s.cur ∧ t.lockOwner = none) ∨
      (i = .rngLock ∧ s.lockOwner = none ∧ t.lockOwner = some s.cur)) := by
  cases hi : i.slot? with
  | some c =>
    obtain ⟨_, _, -, -, run⟩ := allNext_iff.1 (exec_aead hi s) t h
    obtain ⟨-, -, ho, -, -⟩ := run.rng
    exact .inl ho
  | none =>
    rcases allNext_iff.1 (exec_rng hi s) t h with ⟨rfl, -⟩ | ⟨_, _, he, -, -, move, -⟩
    · exact .inl rfl
    · exact move.imp_right fun move => ⟨pendingAt_of_ended he, move⟩

/-- A step changes the owner of the mutex only by a reset or by a command's move on it. -/
theorem lockOwner_of_step {s t : State} (h : step s = .next t) : t.lockOwner = s.lockOwner ∨
    (t.lockOwner = none ∧ ∃ rest, s.agenda = .hardReset :: rest) ∨
    ∃ p l i, s.pendingAt p = some l ∧ decode s.slots.length l.word = .ok i ∧ t.pendingAt p = none ∧
      ((i = .rngUnlock ∧ s.lockOwner = some p ∧ t.lockOwner = none) ∨
        (i = .rngLock ∧ s.lockOwner = none ∧ t.lockOwner = some p)) := by
  cases stepped_of_step h with
  | kept hk => exact .inl hk.lockOwner
  | command s0 l i hk hl hd he =>
    rw [hk.pendingAt] at hl
    rw [hk.slots] at hd
    have move := lockOwner_of_exec he
    rw [hk.lockOwner] at move
    exact move.imp_right fun ⟨hp, move⟩ => .inr ⟨s0.cur, l, i, hl, hd, hp, move⟩
  | illegal s0 l hk hl ht => exact .inl (ht ▸ hk.lockOwner)
  | registerWrite s0 p off v hk ht => exact .inl (ht ▸ hk.lockOwner)
  | handleUse s0 hk hc ht =>
    rcases ht with ⟨g, hg⟩ | hg
    · exact .inl (hg.lockOwner.trans hk.lockOwner)
    · exact .inl (hg.lockOwner.trans hk.lockOwner)
  | reset s0 rest ha hk ht => exact .inr (.inl ⟨ht ▸ rfl, rest, ha⟩)

/-- Settles O49: read off the moves a step can make on the mutex. -/
theorem mutexChangesHands : Obligations.MutexChangesHands := by
  intro s t h
  rcases lockOwner_of_step h with e | ⟨e, rest, ha⟩ | ⟨p, l, i, hl, hd, hp, ⟨rfl, hs, ht⟩ | ⟨rfl, hs, ht⟩⟩
  · exact ⟨fun r hs ht => (nomatch hs.symm.trans (e.symm.trans ht)), fun r hs ht => absurd (e.trans hs) ht⟩
  · exact ⟨fun r _ ht => (nomatch e.symm.trans ht), fun r _ _ => ⟨e, .inl ⟨rest, ha⟩⟩⟩
  · refine ⟨fun r hs' _ => (nomatch hs'.symm.trans hs), fun r hr _ => ⟨ht, .inr ⟨l, ?_⟩⟩⟩
    obtain rfl : p = r := Option.some.inj (hs.symm.trans hr)
    exact ⟨hl, hd, hp⟩
  · refine ⟨fun r _ hr => ⟨l, ?_⟩, fun r hr _ => (nomatch hr.symm.trans hs)⟩
    obtain rfl : p = r := Option.some.inj (ht.symm.trans hr)
    exact ⟨hl, hd, hp⟩

end Sys2Proof.Machine
end

section
/-! The claims about the reset state, the served command, and the moves of the requesters and of the reset input. -/

namespace Sys2Proof.Machine

/-! ### The move at the head of the agenda -/

/-- Where no two ports name one slot, the step is the agenda's first move. -/
theorem step_of_agenda {s : State} {m : Move} {rest : List Move} (hc : s.slotClash = false)
    (ha : s.agenda = m :: rest) : step s = makeMove Config.hw exec m { s with agenda := rest } := by
  simp [step, stepWith, hc, ha]

/-- Settles O6: the controller's move decodes the pending word and runs the command. -/
theorem stepRunsTheServedCommand : Obligations.StepRunsTheServedCommand := by
  intro s p rest l i ha hc hl hd
  have hl' : State.pendingAt { s with agenda := rest } p = some l := hl
  rw [step_of_agenda hc ha]
  simp [makeMove, serve, hl', hd]

/-- Settles O8: the placed word is port 0's pending command, and serving port 0 is the next move. -/
theorem fetchedWordRunsNext : Obligations.FetchedWordRunsNext := by
  intro s w i hw hp hc hd
  have e : s.withFetchWord 32 w = s.issueNext (BitVec.ofNat 32 w) := by rw [State.withFetchWord, Nat.mod_eq_of_lt hw]
  rw [e] at hc ⊢
  have hl : (s.issueNext (BitVec.ofNat 32 w)).pendingAt 0 = some ⟨BitVec.ofNat 32 w, s.ports[0].args⟩ := by
    simp [State.issueNext, State.pendingAt, hp]
  exact stepRunsTheServedCommand _ 0 s.agenda _ i rfl hc hl hd

/-! ### The reset state -/

/-- Settles O11: the reset state's lists are replicas of the idle port and of the empty slot. -/
theorem resetStateValues : Obligations.ResetStateValues := by
  intro nCtx nReq
  refine ⟨by simp [State.resetOf], by simp [State.resetOf], fun p hp => ?_, fun sl hsl => ?_, rfl, rfl, rfl, rfl⟩
  · obtain rfl := List.eq_of_mem_replicate hp
    exact ⟨rfl, rfl, rfl, rfl, rfl, rfl, rfl, rfl, rfl⟩
  · obtain rfl := List.eq_of_mem_replicate hsl
    exact ⟨rfl, rfl, rfl, rfl, rfl⟩

/-- Settles O12: the idle port and the empty slot meet R42. -/
theorem invariantsHoldAtReset : Obligations.InvariantsHoldAtReset := by
  intro nCtx nReq
  refine ⟨(wf_iff Config.hw _).2 ⟨.nil, nofun⟩, fun sl hsl => ?_, fun p hp => ?_, SecBuf.wf_new, fun _ => rfl, nofun⟩
  · exact List.eq_of_mem_replicate hsl ▸ empty_ok Config.hw
  · exact List.eq_of_mem_replicate hp ▸ idle_ok

/-! ### Register accesses -/

/-- The address of an offset in a port's window names that port and that offset, where the port exists (R21). -/
theorem portOffset_portAddr (cfg : Config) (n p : Nat) {off : Nat} (h : off < 0x40) :
    portOffset cfg n (portAddr cfg p off) = if p < n then some (p, off) else none := by
  have hsub : cfg.portBase + 0x40 * p + off - cfg.portBase = 0x40 * p + off := by omega
  have hdiv : (0x40 * p + off) / 0x40 = p := by omega
  have hmod : (0x40 * p + off) % 0x40 = off := by omega
  have hle : cfg.portBase ≤ cfg.portBase + 0x40 * p + off := by omega
  simp only [portOffset, portAddr, hsub, hdiv, hmod, hle, true_and]

/-- A whole aligned word of a requester's own port goes on (R21). -/
theorem withRegister_of_own {cfg : Config} {s : State} {r off : Nat} (hr : r < s.ports.length) (ho : off < 0x40)
    (hal : off % 4 = 0) (k : Nat → Nat → Result) : withRegister cfg s r (portAddr cfg r off) 4 k = k r off := by
  simp [withRegister, portOffset_portAddr cfg _ _ ho, hr, hal]

/-- A narrower or misaligned access, or one to another requester's port, has no next state (R21). -/
theorem withRegister_of_bad {cfg : Config} {s : State} {r p off size : Nat} (ho : off < 0x40)
    (hbad : size ≠ 4 ∨ off % 4 ≠ 0 ∨ p ≠ r) (k : Nat → Nat → Result) (t : State) :
    withRegister cfg s r (portAddr cfg p off) size k ≠ .next t := by
  rw [withRegister, portOffset_portAddr cfg _ _ ho]
  by_cases hp : p < s.ports.length
  · by_cases hpr : p = r
    · have : size ≠ 4 ∨ off % 4 ≠ 0 := by omega
      simp [← hpr, hp, this]
    · simp [hp, hpr]
  · simp [hp]

/-- `CMD` and the offsets that hold no register read 0 (R21). -/
theorem readReg_reserved (p : Port) {off : Nat} (h : off = 0x00 ∨ off = 0x0C ∨ 0x28 ≤ off) : p.readReg off = 0 := by
  unfold Port.readReg
  split
  case h_9 => rfl
  all_goals omega

/-- Settles O54: the read hands out the register at the offset. -/
theorem registerReads : Obligations.RegisterReads := by
  intro s r off rest p hc ha hp ho hal
  have hr := (List.getElem?_eq_some_iff.1 hp).1
  refine ⟨p.readReg off, ?_, ?_, ?_, ?_, ?_, ?_, ?_, ?_, ?_, readReg_reserved p⟩
  · rw [step_of_agenda hc ha]
    simp only [makeMove, regRead, withRegister_of_own (s := { s with agenda := rest }) hr ho hal, hp, Option.getD_some]
  all_goals
    rintro rfl
    rfl

/-- While BUSY a write is ignored (R22). -/
theorem writeReg_busy {p : Port} (h : p.busy = true) (off : Nat) (v : Word) : p.writeReg off v = p := by
  simp [Port.writeReg, h]

/-- A write to an offset that is neither `CMD` nor an `ARG` register is ignored (R21). -/
theorem writeReg_readOnly (p : Port) {off : Nat} (h : off = 0x04 ∨ off = 0x08 ∨ off = 0x0C ∨ 0x20 ≤ off) (v : Word) :
    p.writeReg off v = p := by
  unfold Port.writeReg
  split
  · rfl
  · split
    case h_6 => rfl
    all_goals omega

/-- Settles O55: the write is `Port.writeReg` on the requester's port. -/
theorem registerWrites : Obligations.RegisterWrites := by
  intro s r off v rest p hc ha hp ho hal
  have hr := (List.getElem?_eq_some_iff.1 hp).1
  refine ⟨p.writeReg off v, ?_, fun hb => writeReg_busy hb off v, fun hb => ?_⟩
  · rw [step_of_agenda hc ha]
    simp only [makeMove, regWrite, withRegister_of_own (s := { s with agenda := rest }) hr ho hal]
    rw [List.modify_eq_set_getElem?, hp]
    rfl
  · have idle : p.busy = false := hb
    refine ⟨?_, ?_, ?_, ?_, ?_, fun h => writeReg_readOnly p h v⟩
    all_goals
      rintro rfl
      simp [Port.writeReg, idle, Port.issue, statusPending]

/-! ### Data memory and the handle -/

/-- What stops a requester's write: a byte some pending command reads or writes is blocked (R72 (a)). -/
theorem hostBlocked_write_iff (s : State) (x : Nat) :
    HostBlocked s (s.pendingReads Config.hw ++ s.pendingWrites Config.hw) x ↔
      2 ^ 32 ≤ x ∨ inRegion s.regions .device x = true ∨
        s.PendingTouches Config.hw readsByte x ∨ s.PendingTouches Config.hw writesByte x := by
  simp only [HostBlocked, ← has_pendingReads, ← has_pendingWrites, List.mem_append, or_and_right, exists_or]

/-- What stops a requester's read: a byte some pending command writes is blocked (R72 (a)). -/
theorem hostBlocked_read_iff (s : State) (x : Nat) :
    HostBlocked s (s.pendingWrites Config.hw) x ↔
      2 ^ 32 ≤ x ∨ inRegion s.regions .device x = true ∨ s.PendingTouches Config.hw writesByte x := by
  rw [HostBlocked, has_pendingWrites]

/-- Settles O56: what `withRegister` and `withHostRange` let pass and what they stop. -/
theorem forbiddenAccessesHaveNoNextState : Obligations.ForbiddenAccessesHaveNoNextState := by
  intro s rest hc
  refine ⟨fun r v ha t => ?_, fun r p off size ha ho hbad t => ?_, fun r p off size v ha ho hbad t => ?_,
    fun r base v ha => ⟨fun hf t => ?_, fun hw hf => ?_⟩, fun r base n ha => ⟨fun hf t => ?_, fun hw hf => ?_⟩⟩
  all_goals rw [step_of_agenda hc ha]
  · exact nofun
  · exact withRegister_of_bad ho hbad _ t
  · exact withRegister_of_bad ho hbad _ t
  · obtain ⟨x, h1, h2, hx⟩ := hf
    exact withHostRange_of_blocked ⟨x, h1, h2, (hostBlocked_write_iff s x).2 hx⟩ _ t
  · refine ⟨State.store Config.hw { s with agenda := rest } base v, ?_, bytesAt_writeBytes rfl,
      memoryKeptOutside_writeBytes rfl le_rfl le_rfl, rfl⟩
    exact withHostRange_of_free hw (fun x h1 h2 hx => hf x h1 h2 ((hostBlocked_write_iff s x).1 hx)) _
  · obtain ⟨x, h1, h2, hx⟩ := hf
    exact withHostRange_of_blocked ⟨x, h1, h2, (hostBlocked_read_iff s x).2 hx⟩ _ t
  · exact withHostRange_of_free hw (fun x h1 h2 hx => hf x h1 h2 ((hostBlocked_read_iff s x).1 hx)) _

/-! ### Hardware reset -/

/-- Settles O58: every field but data memory is named by the reset, and memory outside the output ranges is kept. -/
theorem hardwareResetClearsTheBlock : Obligations.HardwareResetClearsTheBlock := by
  intro s rest hc ha
  have mem (x : Nat) (hx : ¬ ∃ t ∈ s.pendingOutputs, t.Has x) :
      byteAt (hardReset Config.hw { s with agenda := rest }) x = byteAt s x :=
    read_storeFreeAll_outside Config.hw s.pendingOutputs { s with agenda := rest } hx
  obtain ⟨m, n, e⟩ := hardReset_eq Config.hw { s with agenda := rest }
  refine ⟨_, step_of_agenda hc ha, ?_, ?_, fun p hp => ?_, fun sl hsl => ?_, rfl, rfl, rfl, ?_, ?_, fun x hx => ?_⟩
  · simp [e]
  · simp [e]
  · rw [e] at hp
    obtain ⟨_, -, rfl⟩ := List.mem_map.1 hp
    rfl
  · rw [e] at hsl
    obtain ⟨_, -, rfl⟩ := List.mem_map.1 hsl
    rfl
  · simp [e]
  · simp [e]
  · refine mem x fun h => ?_
    obtain ⟨p, l, i, hl, hd, hw⟩ := (has_pendingOutputs s x).1 h
    exact hx p l i hl hd hw

end Sys2Proof.Machine
end

section
/-! What a command does to data memory: it stores only in its own output range, which lies in the address space, so that
the canonical form is kept. -/

namespace Sys2Proof.Machine

/-- What a command `i` with operands `a`, on its way or at its end, has done to data memory: its canonical form is kept,
and a byte outside R62's output range of the command reads as before. -/
structure MemoryRun (i : Instr) (a : Args) (s u : State) : Prop where
  canonical : s.MemOk → u.MemOk
  frame : ∀ x, ¬ writesByte a x i → byteAt u x = byteAt s x

namespace MemoryRun
variable {i : Instr} {a : Args} {s u t : State}

theorem of_mem (h : u.mem = s.mem) : MemoryRun i a s u :=
  ⟨fun ok => by rwa [State.MemOk, h], fun x _ => memoryKept_of_mem h x⟩

/-- A store inside the output range, all of it in the address space. -/
theorem store {base : Nat} {v : Bytes} (h : MemoryRun i a s u) (ht : t.mem = Memory.writeBytes Config.hw u.mem base v)
    (top : base + v.length ≤ 2 ^ 32) (own : ∀ x, base ≤ x → x < base + v.length → writesByte a x i) :
    MemoryRun i a s t where
  canonical ok := by
    rw [State.MemOk, ht]
    exact wf_writeBytes Config.hw v top (h.canonical ok)
  frame x hx := by
    have out : x < base ∨ base + v.length ≤ x := by
      by_contra hin
      exact hx (own x (by omega) (by omega))
    rw [byteAt, ht, read_writeBytes_outside _ _ _ _ out]
    exact h.frame x hx

/-- A byte string of `n` bytes stored at `base`, where these `n` bytes are the command's output range. -/
theorem storeAll {base n : Nat} {v : Bytes} (h : MemoryRun i a s u)
    (ht : t.mem = Memory.writeBytes Config.hw u.mem base v) (hn : v.length = n) (top : base + n ≤ 2 ^ 32)
    (own : ∀ x, writesByte a x i ↔ base ≤ x ∧ x < base + n) : MemoryRun i a s t :=
  h.store ht (by omega) fun x h1 h2 => (own x).2 ⟨h1, by omega⟩

/-- The frame, with the output range written out. -/
theorem keptOutside {base n : Nat} (h : MemoryRun i a s u)
    (own : ∀ x, writesByte a x i ↔ base ≤ x ∧ x < base + n) : MemoryKeptOutside s u base n :=
  fun x hx => h.frame x fun hw => by
    obtain ⟨h1, h2⟩ := (own x).1 hw
    omega

end MemoryRun

/-! ### The AEAD commands -/

section
variable {c : Nat} {a : Args} {s : State} (ha : s.operands = some a)
include ha

/-- A command that works on a slot; one that names none ends with E_ILLEGAL and stores nothing. -/
theorem aead_memory {i : Instr} {k : Args → Slot → Result} (h : ∀ sl, AllNext (MemoryRun i a s) (k a sl)) :
    AllNext (MemoryRun i a s) (withCommand s fun a => withSlot s c (k a)) := by
  rw [withCommand_of_operands ha]
  exact withSlot_allNext (fun _ => .of_mem rfl) fun sl _ => h sl

theorem aeadConstruct_memory (m : Mode) :
    AllNext (MemoryRun (.aeadConstruct c m) a s) (aeadConstruct Config.hw c m s) := by
  refine aead_memory ha fun sl => ?_
  split
  · exact .of_mem rfl
  · dsimp only
    split
    · exact .of_mem rfl
    · refine withRange_allNext fun _ => ?_
      unfold installKey
      dsimp only
      split
      · exact .of_mem rfl
      · split
        · exact .of_mem rfl
        · exact .of_mem rfl

theorem aeadReset_memory : AllNext (MemoryRun (.aeadReset c) a s) (aeadReset Config.hw c s) := by
  refine aead_memory ha fun sl => ?_
  split
  · exact .of_mem rfl
  · refine withRange_allNext fun _ => withRange_allNext fun _ => ?_
    unfold startMessage
    dsimp only
    split
    · exact .of_mem rfl
    · split
      · exact .of_mem rfl
      · split
        · exact .of_mem rfl
        · exact .of_mem rfl

theorem aeadAad_memory : AllNext (MemoryRun (.aeadAad c) a s) (aeadAad Config.hw c s) := by
  refine aead_memory ha fun sl => ?_
  split
  · exact .of_mem rfl
  · refine withRange_allNext fun _ => ?_
    split
    · exact .of_mem rfl
    · exact .of_mem rfl

/-- A transform stores the output of its member, or free bytes, over its output range. -/
theorem transform_memory {i : Instr} {member : Backend → Bytes → Bytes → Option (Bytes × Bytes)} {info : Word}
    (hm : ∀ be x bs y bs', member be x bs = some (y, bs') → y.length = x.length)
    (own : ∀ x, writesByte a x i ↔ u32 a.a2 ≤ x ∧ x < u32 a.a2 + byteCount a.a1) :
    AllNext (MemoryRun i a s) (transform Config.hw member info c s) := by
  have run : MemoryRun i a s s := .of_mem rfl
  refine aead_memory ha fun sl => ?_
  split
  · exact .of_mem rfl
  · refine withRange_allNext fun _ => withRange_allNext fun acc => ?_
    have top := rangeFault_none_bound acc
    split
    · trivial
    · unfold runTransform
      split
      · exact run.storeAll rfl (SecBuf.drawBytes_length _ _ _) top own
      · rename_i out bs hbs
        exact run.storeAll rfl ((hm _ _ _ _ _ hbs).trans (load_length _ _ _ _)) top own

theorem aeadEncrypt_memory : AllNext (MemoryRun (.aeadEncrypt c) a s) (aeadEncrypt Config.hw c s) :=
  transform_memory ha (fun _ _ _ _ _ h => (encryptBytes_length h).1) fun _ => .rfl

theorem aeadDecrypt_memory : AllNext (MemoryRun (.aeadDecrypt c) a s) (aeadDecrypt Config.hw c s) :=
  transform_memory ha (fun _ _ _ _ _ h => (decryptBytes_length h).1) fun _ => .rfl

/-- AEAD_AUTH_TAG stores zeros over its output range, early or before the tag, and then the tag. -/
theorem aeadAuthTag_memory : AllNext (MemoryRun (.aeadAuthTag c) a s) (aeadAuthTag Config.hw c s) := by
  have own (x : Nat) : writesByte a x (.aeadAuthTag c) ↔ u32 a.a0 ≤ x ∧ x < u32 a.a0 + byteCount a.a1 := .rfl
  have run : MemoryRun (.aeadAuthTag c) a s s := .of_mem rfl
  refine aead_memory ha fun sl => ?_
  split
  · exact .of_mem rfl
  · split
    · unfold rejectTag
      split
      · exact withRange_allNext fun acc => run.storeAll rfl (SecBuf.zeros_length _) (rangeFault_none_bound acc) own
      · exact .of_mem rfl
    · refine withRange_allNext fun acc => ?_
      have top := rangeFault_none_bound acc
      have zeroed : MemoryRun (.aeadAuthTag c) a s (s.store Config.hw (u32 a.a0) (zeros (byteCount a.a1))) :=
        run.storeAll rfl (SecBuf.zeros_length _) top own
      unfold deliverTag
      split
      · exact ⟨zeroed.canonical, zeroed.frame⟩
      · rename_i tag bs hbs
        refine zeroed.storeAll rfl ?_ top own
        rw [throughTagStage_fst]
        exact (getTagBytes_length hbs).1

theorem aeadDestroy_memory : AllNext (MemoryRun (.aeadDestroy c) a s) (aeadDestroy c s) :=
  aead_memory (k := fun _ sl => .next (complete (s.setSlot c sl.destroyed))) ha fun _ => .of_mem rfl

end

/-! ### The RNG commands -/

/-- What lazy creation leaves alone where it succeeds. -/
theorem creationKept_of_ok {cfg : Config} {s u : State} (e : ensureCreated cfg s = .ok u) : CreationKept s u := by
  have h := ensureCreated_spec cfg s
  split at h
  · obtain ⟨t, et, -, -, -, -, kept⟩ := h
    obtain rfl : t = u := by simpa using et.symm.trans e
    exact kept
  · obtain ⟨t, et, -⟩ := h
    cases et.symm.trans e

/-- What lazy creation leaves alone where it fails. -/
theorem creationKept_of_error {cfg : Config} {s : State} {r : State × Word} (e : ensureCreated cfg s = .error r) :
    CreationKept s r.1 := by
  have h := ensureCreated_spec cfg s
  split at h
  · obtain ⟨t, et, -⟩ := h
    cases et.symm.trans e
  · obtain ⟨t, et, -, -, -, -, kept⟩ := h
    obtain rfl : _ = r := by simpa using et.symm.trans e
    exact kept

/-- Steps 4 and 5 of the command frame (R164): the creation stores nothing. -/
theorem onEngine_memory {i : Instr} {a : Args} {s : State} {k : State → State} (hk : ∀ u, (k u).mem = u.mem) :
    MemoryRun i a s (onEngine Config.hw s.takeMutex k) :=
  onEngine_ind (fun _ e => .of_mem (creationKept_of_error e).mem)
    fun u e => .of_mem ((hk u).trans (creationKept_of_ok e).mem)

theorem withEngine_memory {i : Instr} {a : Args} {s : State} {k : State → Result}
    (hk : ∀ u, u.mem = s.mem → AllNext (MemoryRun i a s) (k u)) :
    AllNext (MemoryRun i a s) (withEngine Config.hw s.takeMutex k) :=
  withEngine_allNext (fun _ e => .of_mem (creationKept_of_error e).mem)
    fun u e => hk u (creationKept_of_ok e).mem

theorem withMutex_memory {i : Instr} {a : Args} {s : State} {k : State → Result}
    (hk : AllNext (MemoryRun i a s) (k s.takeMutex)) : AllNext (MemoryRun i a s) (withMutex s k) :=
  withMutex_allNext (fun _ _ => .of_mem rfl) fun _ => hk

theorem seedWith_mem (cfg : Config) (seed : Bytes) (s : State) : (seedWith cfg seed s).mem = s.mem := by
  rcases seedWith_cases cfg seed s with ⟨g, -, e⟩ | ⟨-, e⟩
  · rw [e]
    rfl
  · rw [e]
    rfl

theorem returnWord_mem (cfg : Config) (s : State) : (returnWord cfg s).mem = s.mem := by
  unfold returnWord
  split
  · rfl
  · rfl

theorem returnTwoWords_mem (cfg : Config) (s : State) : (returnTwoWords cfg s).mem = s.mem := by
  unfold returnTwoWords
  split
  · rfl
  · rfl

/-- A framed command without a range stores nothing, if its body does not. -/
theorem framed_memory {i : Instr} {a : Args} {s : State} {k : State → State} (hk : ∀ u, (k u).mem = u.mem) :
    AllNext (MemoryRun i a s) (withCommand s fun _ => withMutex s fun s => .next (onEngine Config.hw s k)) :=
  withCommand_allNext fun _ _ => withMutex_memory (onEngine_memory hk)

theorem rngRandomSeed_memory {a : Args} {s : State} :
    AllNext (MemoryRun .rngRandomSeed a s) (rngRandomSeed Config.hw s) :=
  framed_memory fun u => seedWith_mem Config.hw _ (drawSeed Config.hw u).2

theorem rngUnlock_memory {a : Args} {s : State} : AllNext (MemoryRun .rngUnlock a s) (rngUnlock s) := by
  refine withCommand_allNext fun _ _ => ?_
  split
  · exact .of_mem rfl
  · exact .of_mem rfl

theorem rngCtx_memory {a : Args} {s : State} : AllNext (MemoryRun .rngCtx a s) (rngCtx Config.hw s) := by
  refine withCommand_allNext fun _ _ => ?_
  split
  · exact .of_mem rfl
  · exact withMutex_memory (onEngine_memory fun _ => rfl)

theorem rngShutdown_memory {a : Args} {s : State} : AllNext (MemoryRun .rngShutdown a s) (rngShutdown s) := by
  refine withCommand_allNext fun _ _ => withMutex_memory ?_
  split
  · exact .of_mem rfl
  · exact .of_mem rfl

/-- A framed command with a range; its length check comes before the frame (R164 (2)). -/
theorem framedRange_memory {i : Instr} {a : Args} {s : State} {k : Args → State → State} (ha : s.operands = some a)
    (hk : ∀ u, u.mem = s.mem → u32 a.a0 + byteCount a.a1 ≤ 2 ^ 32 → MemoryRun i a s (k a u)) :
    AllNext (MemoryRun i a s) (withCommand s fun a => if s32 a.a1 ≤ 0 then .next (raise s .arg 0)
      else withMutex s fun s => withEngine Config.hw s fun s =>
        withRange s (u32 a.a0) (byteCount a.a1) (.next (k a s))) := by
  rw [withCommand_of_operands ha]
  split
  · exact .of_mem rfl
  · exact withMutex_memory (withEngine_memory fun u hu =>
      withRange_allNext fun acc => hk u hu (rangeFault_none_bound acc))

theorem rngSeed_memory {a : Args} {s : State} (ha : s.operands = some a) :
    AllNext (MemoryRun .rngSeed a s) (rngSeed Config.hw s) :=
  framedRange_memory ha fun u hu _ =>
    .of_mem ((seedWith_mem Config.hw _ (throughSeedStage Config.hw u _).2).trans hu)

/-- The whole words are one store at the start of the buffer. -/
theorem wholeWords_mem {cfg : Config} {base q : Nat} {s t : State} (e : wholeWords cfg base q s = some t) :
    ∃ v, v.length = 4 * q ∧ t.mem = Memory.writeBytes cfg s.mem base v := by
  have h := wholeWords_spec cfg base q s
  split at h
  · cases h.symm.trans e
  · rename_i b g _
    obtain ⟨hl, t', et, -, -, ht⟩ := h
    obtain rfl := Option.some.inj (et.symm.trans e)
    exact ⟨b, hl, by rw [ht]⟩

/-- The tail is one store behind them. -/
theorem tailWord_mem {cfg : Config} {base n : Nat} {s t : State} (hn : n ≤ 4) (e : tailWord cfg base n s = some t) :
    ∃ v, v.length = n ∧ t.mem = Memory.writeBytes cfg s.mem base v := by
  have h := tailWord_spec cfg base n hn s
  split at h
  · cases h.symm.trans e
  · rename_i b g _
    obtain ⟨hl, t', et, -, ht⟩ := h
    obtain rfl := Option.some.inj (et.symm.trans e)
    exact ⟨b, hl, by rw [ht]⟩

/-- RNG_RAND_BYTES stores the whole words and the tail in its output range, or free bytes over all of it. -/
theorem rngRandBytes_memory {a : Args} {s : State} (ha : s.operands = some a) :
    AllNext (MemoryRun .rngRandBytes a s) (rngRandBytes Config.hw s) := by
  have own (x : Nat) : writesByte a x .rngRandBytes ↔ u32 a.a0 ≤ x ∧ x < u32 a.a0 + byteCount a.a1 := .rfl
  refine framedRange_memory ha fun u hu top => ?_
  have run : MemoryRun .rngRandBytes a s u := .of_mem hu
  unfold fillRandom
  split
  · exact run.storeAll rfl (SecBuf.drawBytes_length _ _ _) top own
  · rename_i u1 e1
    obtain ⟨v1, l1, m1⟩ := wholeWords_mem e1
    have run1 := run.store m1 (by omega) fun x h1 h2 => (own x).2 ⟨h1, by omega⟩
    split
    · exact run1.storeAll rfl (SecBuf.drawBytes_length _ _ _) top own
    · rename_i u2 e2
      obtain ⟨v2, l2, m2⟩ := tailWord_mem (by omega) e2
      exact run1.store m2 (by omega) fun x h1 h2 => (own x).2 ⟨by omega, by omega⟩

/-! ### Every command -/

/-- What a command has done to data memory when it answers a next state. -/
theorem exec_memory {a : Args} {s : State} (ha : s.operands = some a) (i : Instr) :
    AllNext (MemoryRun i a s) (exec i s) := by
  cases i with
  | aeadConstruct c m => exact aeadConstruct_memory ha m
  | aeadReset c => exact aeadReset_memory ha
  | aeadAad c => exact aeadAad_memory ha
  | aeadEncrypt c => exact aeadEncrypt_memory ha
  | aeadDecrypt c => exact aeadDecrypt_memory ha
  | aeadAuthTag c => exact aeadAuthTag_memory ha
  | aeadDestroy c => exact aeadDestroy_memory ha
  | rngSeed => exact rngSeed_memory ha
  | rngRandomSeed => exact rngRandomSeed_memory
  | rngRandBytes => exact rngRandBytes_memory ha
  | rngRandU32 => exact framed_memory (returnWord_mem Config.hw)
  | rngRandU64 => exact framed_memory (returnTwoWords_mem Config.hw)
  | rngLock => exact framed_memory fun _ => rfl
  | rngUnlock => exact rngUnlock_memory
  | rngCtx => exact rngCtx_memory
  | rngShutdown => exact rngShutdown_memory

/-- A command with an empty output range. -/
theorem not_writesByte {i : Instr} (hi : ∀ c, i ≠ .aeadEncrypt c ∧ i ≠ .aeadDecrypt c ∧ i ≠ .aeadAuthTag c)
    (hr : i ≠ .rngRandBytes) (a : Args) (x : Nat) : ¬ writesByte a x i := by
  cases i with
  | aeadEncrypt c => exact absurd rfl (hi c).1
  | aeadDecrypt c => exact absurd rfl (hi c).2.1
  | aeadAuthTag c => exact absurd rfl (hi c).2.2
  | rngRandBytes => exact absurd rfl hr
  | aeadConstruct | aeadReset | aeadAad | aeadDestroy | rngSeed | rngRandomSeed | rngRandU32 | rngRandU64 | rngLock
  | rngUnlock | rngCtx | rngShutdown => exact id

/-- Settles O34: each command's frame, with its output range written out. -/
theorem commandMemoryFrame : Obligations.CommandMemoryFrame := by
  intro s t i a ha h
  have run := allNext_iff.1 (exec_memory ha i) t h
  refine ⟨?_, ?_, ?_, fun hi hr x => run.frame x (not_writesByte hi hr a x)⟩
  · rintro c (rfl | rfl)
    · exact run.keptOutside fun _ => .rfl
    · exact run.keptOutside fun _ => .rfl
  · rintro c rfl
    exact run.keptOutside fun _ => .rfl
  · rintro rfl
    exact run.keptOutside fun _ => .rfl

end Sys2Proof.Machine
end

section
/-! The step, move by move: what it keeps of data memory, what it keeps of the generator while the mutex is owned, and
which command the controller serves. -/

namespace Sys2Proof.Machine

/-- The controller's step for a port: nothing to do, an illegal word, or a command. -/
theorem serve_allNext {P : State → Prop} {run : Instr → State → Result} {p : Nat} {s : State} (idle : P s)
    (illegal : P (raise { s with cur := p } .illegal 0))
    (command : ∀ i l, s.pendingAt p = some l → AllNext P (run i { s with cur := p })) :
    AllNext P (serve run p s) := by
  unfold serve
  split
  · exact idle
  · rename_i l hl
    split
    · exact illegal
    · exact command _ l hl

/-- A step: the agenda's first move, the service of a waiting port, or nothing. -/
theorem step_allNext {P : State → Prop} {s : State} (idle : P s)
    (move : ∀ m rest, s.agenda = m :: rest → AllNext P (makeMove Config.hw exec m { s with agenda := rest }))
    (serve : ∀ p, AllNext P (serve exec p { s with picks := s.picks + 1 })) : AllNext P (step s) := by
  unfold step stepWith
  split
  · trivial
  · split
    · rename_i m rest ha
      exact move m rest ha
    · split
      · exact idle
      · exact serve _

/-! ### The canonical form of data memory -/

theorem serve_memOk {s : State} (ok : s.MemOk) (p : Nat) : AllNext State.MemOk (serve exec p s) := by
  refine serve_allNext ok ok fun i l hl => allNext_iff.2 fun t h => ?_
  have ha : State.operands { s with cur := p } = some l.args := congrArg (Option.map Latch.args) hl
  exact (allNext_iff.1 (exec_memory ha i) t h).canonical ok

theorem handleUse_mem {cfg : Config} {r n epoch : Nat} {s : State} :
    AllNext (fun t => t.mem = s.mem) (handleUse cfg r n epoch s) := by
  unfold handleUse
  split
  · split
    · rfl
    · rfl
  · trivial

theorem makeMove_memOk {s : State} (ok : s.MemOk) (m : Move) :
    AllNext State.MemOk (makeMove Config.hw exec m s) := by
  cases m with
  | serve p => exact serve_memOk ok p
  | regRead r addr size => exact withRegister_allNext fun _ _ => ok
  | regWrite r addr size v => exact withRegister_allNext fun _ _ => ok
  | memRead r base n => exact withHostRange_allNext fun _ => ok
  | memWrite r base v => exact withHostRange_allNext fun top => wf_writeBytes Config.hw v top ok
  | handleUse r n epoch =>
    refine allNext_iff.2 fun t h => ?_
    rw [State.MemOk, allNext_iff.1 handleUse_mem t h]
    exact ok
  | handleSeed r v => trivial
  | hardReset => exact wf_storeFreeAll Config.hw s.pendingOutputs ok

/-- Settles O13: a command stores inside the address space, and so do a requester's write and a reset's free bytes; no
other move stores. -/
theorem memoryStaysCanonical : Obligations.MemoryStaysCanonical := by
  intro s t ok h
  have move (m : Move) (rest : List Move) (_ : s.agenda = m :: rest) :
      AllNext State.MemOk (makeMove Config.hw exec m { s with agenda := rest }) :=
    makeMove_memOk (s := { s with agenda := rest }) ok m
  exact allNext_iff.1 (step_allNext ok move (serve_memOk ok)) t h

/-! ### The generator while the mutex is owned -/

/-- The generator's state and its existence are unchanged. -/
abbrev EngineKept (s t : State) : Prop := t.gen = s.gen ∧ t.created = s.created

theorem withMutex_engineKept {s : State} {r : Nat} (ho : s.lockOwner = some r) (k : State → Result) :
    AllNext (EngineKept s) (withMutex s k) := by
  rw [withMutex_of_taken ho]
  exact ⟨rfl, rfl⟩

/-- A command with a range: its length check fails, or it is held. -/
theorem framedRange_engineKept {s : State} {r : Nat} (ho : s.lockOwner = some r) (k : Args → State → Result) :
    AllNext (EngineKept s) (withCommand s fun a => if s32 a.a1 ≤ 0 then .next (raise s .arg 0)
      else withMutex s (k a)) := by
  refine withCommand_allNext fun a _ => ?_
  split
  · exact ⟨rfl, rfl⟩
  · exact withMutex_engineKept ho _

theorem rngSeed_engineKept {cfg : Config} {s : State} {r : Nat} (ho : s.lockOwner = some r) :
    AllNext (EngineKept s) (rngSeed cfg s) := framedRange_engineKept ho _

theorem rngRandBytes_engineKept {cfg : Config} {s : State} {r : Nat} (ho : s.lockOwner = some r) :
    AllNext (EngineKept s) (rngRandBytes cfg s) := framedRange_engineKept ho _

theorem rngUnlock_engineKept {s : State} : AllNext (EngineKept s) (rngUnlock s) := by
  refine withCommand_allNext fun _ _ => ?_
  split
  · exact ⟨rfl, rfl⟩
  · exact ⟨rfl, rfl⟩

theorem rngCtx_engineKept {cfg : Config} {s : State} {r : Nat} (ho : s.lockOwner = some r) :
    AllNext (EngineKept s) (rngCtx cfg s) := by
  refine withCommand_allNext fun _ _ => ?_
  split
  · exact ⟨rfl, rfl⟩
  · exact withMutex_engineKept ho _

/-- While the mutex is owned no command changes the generator: one that takes the mutex is held, RNG_UNLOCK, an RNG_CTX
on an engine that exists and the AEAD commands leave the engine alone (R74, R163). -/
theorem exec_engineKept {s : State} {r : Nat} (ho : s.lockOwner = some r) (i : Instr) :
    AllNext (EngineKept s) (exec i s) := by
  cases i with
  | aeadConstruct | aeadReset | aeadAad | aeadEncrypt | aeadDecrypt | aeadAuthTag | aeadDestroy =>
    refine allNext_iff.2 fun t h => ?_
    obtain ⟨_, _, -, -, run⟩ := allNext_iff.1 (exec_aead rfl s) t h
    obtain ⟨hc, hg, -⟩ := run.rng
    exact ⟨hg, hc⟩
  | rngSeed => exact rngSeed_engineKept ho
  | rngRandBytes => exact rngRandBytes_engineKept ho
  | rngRandomSeed | rngRandU32 | rngRandU64 | rngLock | rngShutdown =>
    exact withCommand_allNext fun _ _ => withMutex_engineKept ho _
  | rngUnlock => exact rngUnlock_engineKept
  | rngCtx => exact rngCtx_engineKept ho

theorem serve_engineKept {s : State} {r : Nat} (ho : s.lockOwner = some r) (p : Nat) :
    AllNext (EngineKept s) (serve exec p s) :=
  serve_allNext ⟨rfl, rfl⟩ ⟨rfl, rfl⟩ fun i _ _ => exec_engineKept (s := { s with cur := p }) ho i

/-- Only the mutex's owner uses the generator through the handle (R182, R183). -/
theorem handleUse_owner {cfg : Config} {q n epoch : Nat} {s : State} :
    AllNext (fun _ => s.lockOwner = some q) (handleUse cfg q n epoch s) := by
  unfold handleUse
  split
  · rename_i h
    split
    · exact h.1
    · exact h.1
  · trivial

/-- While `r` owns the mutex a move keeps the generator, but for a reset and `r`'s own use of the handle. -/
theorem makeMove_engineKept {s : State} {r : Nat} (ho : s.lockOwner = some r) (m : Move) :
    AllNext (fun t => EngineKept s t ∨ m = .hardReset ∨ ∃ n epoch, m = .handleUse r n epoch)
      (makeMove Config.hw exec m s) := by
  cases m with
  | serve p => exact allNext_iff.2 fun t h => .inl (allNext_iff.1 (serve_engineKept ho p) t h)
  | regRead q addr size => exact withRegister_allNext fun _ _ => .inl ⟨rfl, rfl⟩
  | regWrite q addr size v => exact withRegister_allNext fun _ _ => .inl ⟨rfl, rfl⟩
  | memRead q base n => exact withHostRange_allNext fun _ => .inl ⟨rfl, rfl⟩
  | memWrite q base v => exact withHostRange_allNext fun _ => .inl ⟨rfl, rfl⟩
  | handleUse q n epoch =>
    refine allNext_iff.2 fun t h => .inr (.inr ⟨n, epoch, ?_⟩)
    obtain rfl : q = r := Option.some.inj ((allNext_iff.1 handleUse_owner t h).symm.trans ho)
    rfl
  | handleSeed q v => trivial
  | hardReset => exact .inr (.inl rfl)

/-- Settles O50: no command served while `r` owns the mutex changes the generator, and of the other moves only a reset
and `r`'s own use of the handle may. -/
theorem lockedGeneratorIsTheOwners : Obligations.LockedGeneratorIsTheOwners := by
  intro s t r ho h
  revert t
  refine allNext_iff.1 (step_allNext ?idle ?move ?serve)
  case idle => exact .inl ⟨rfl, rfl⟩
  case move =>
    intro m rest ha
    refine allNext_iff.2 fun u hu => ?_
    rcases allNext_iff.1 (makeMove_engineKept (s := { s with agenda := rest }) ho m) u hu with
      kept | rfl | ⟨n, epoch, rfl⟩
    · exact .inl kept
    · exact .inr (.inl ⟨rest, ha⟩)
    · exact .inr (.inr ⟨n, epoch, rest, ha⟩)
  case serve =>
    exact fun p => allNext_iff.2 fun u hu =>
      .inl (allNext_iff.1 (serve_engineKept (s := { s with picks := s.picks + 1 }) ho p) u hu)

/-! ### Which command is served -/

/-- Two ports with commands for one slot are a clash (R72 (b)). -/
theorem slotClash_of_two {s : State} {p q c : Nat} {k l : Latch} {i j : Instr} (hpq : p < q)
    (hk : s.pendingAt p = some k) (hl : s.pendingAt q = some l) (hi : decode s.slots.length k.word = .ok i)
    (hj : decode s.slots.length l.word = .ok j) (ci : i.slot? = some c) (cj : j.slot? = some c) :
    s.slotClash = true := by
  obtain ⟨a, ha, hk⟩ := Option.bind_eq_some_iff.1 hk
  obtain ⟨b, hb, hl⟩ := Option.bind_eq_some_iff.1 hl
  obtain ⟨hp, rfl⟩ := List.getElem?_eq_some_iff.1 ha
  obtain ⟨hq, rfl⟩ := List.getElem?_eq_some_iff.1 hb
  rw [State.slotClash, Bool.not_eq_true', decide_eq_false_iff_not]
  intro nodup
  rw [State.pendingCommands, List.Nodup, List.pairwise_filterMap, List.pairwise_filterMap] at nodup
  have distinct := List.pairwise_iff_getElem.1 nodup p q hp hq hpq
  exact distinct (i, k.args) (by simp [hk, hi, Except.toOption]) (j, l.args) (by simp [hl, hj, Except.toOption])
    c ci c cj rfl

/-- Settles O10: `step` tests for the clash before any move. -/
theorem slotClashHasNoNextState : Obligations.SlotClashHasNoNextState := by
  intro s p q c k l i j hpq hk hl hi hj ci cj
  rw [step, stepWith, if_pos (slotClash_of_two hpq hk hl hi hj ci cj)]

theorem mem_waiting {s : State} {p : Nat} (h : p ∈ s.waiting) : ∃ l, s.pendingAt p = some l :=
  Option.isSome_iff_exists.1 (List.mem_filter.1 h).2

/-- Where some port waits, the controller picks one that does (R73). -/
theorem pick_of_waiting (cfg : Config) {s : State} (h : s.waiting ≠ []) : ∃ p ∈ s.waiting, pick cfg s = some p := by
  have hlt := Nat.mod_lt (cfg.schedule s.picks) (List.length_pos_iff.2 h)
  exact ⟨_, List.getElem_mem hlt, List.getElem?_eq_getElem hlt⟩

theorem pick_of_idle (cfg : Config) {s : State} (h : s.waiting = []) : pick cfg s = none := by simp [pick, h]

/-- Where the agenda is empty the step is the service of the picked port. -/
theorem step_of_pick {s : State} {p : Nat} (hc : s.slotClash = false) (ha : s.agenda = [])
    (hp : pick Config.hw s = some p) : step s = serve exec p { s with picks := s.picks + 1 } := by
  simp [step, stepWith, hc, ha, hp]

/-- Settles O7: the picked port waits, and its service runs its command or ends it with E_ILLEGAL. -/
theorem controllerServesSomeWaitingPort : Obligations.ControllerServesSomeWaitingPort := by
  intro s ha hc
  refine ⟨fun hw => by simp [step, stepWith, hc, ha, pick_of_idle Config.hw hw], fun hw => ?_⟩
  obtain ⟨p, hp, hpick⟩ := pick_of_waiting Config.hw hw
  obtain ⟨l, hl⟩ := mem_waiting hp
  have hl' : State.pendingAt { s with picks := s.picks + 1 } p = some l := hl
  refine ⟨p, l, hp, hl, ?_⟩
  rw [step_of_pick hc ha hpick]
  cases hd : decode s.slots.length l.word with
  | ok i => simp [serve, hl', hd]
  | error e =>
    refine ⟨raise { s with picks := s.picks + 1, cur := p } .illegal 0, by simp [serve, hl', hd], ?_⟩
    exact onlyRefusedWith_raise (lt_of_pendingAt hl) .illegal

end Sys2Proof.Machine
end

section
/-! Commands that reach a range of data memory without meaning (R66 to R69). -/

namespace Sys2Proof.Machine

/-! ### Ranges -/

/-- Only the provision of memory decides whether an access stops. -/
theorem rangeStop_congr {s t : State} (h : t.regions = s.regions) {base n : Nat} {f : Fault}
    (hr : RangeStop s base n f) : RangeStop t base n f := by
  rw [RangeStop, h]
  exact hr

/-- Two ranges, tested in their order: the first stops, or it can be accessed and the second stops. -/
theorem withRange_of_either_stop {s : State} {b1 n1 b2 n2 : Nat} {f : Fault}
    (h : RangeStop s b1 n1 f ∨ Accessible s b1 n1 ∧ RangeStop s b2 n2 f) (k : Result) :
    withRange s b1 n1 (withRange s b2 n2 k) = .fault f := by
  rcases h with h | ⟨acc, h⟩
  · exact withRange_of_stop h _
  · rw [withRange_of_accessible acc, withRange_of_stop h]

/-! ### The AEAD commands -/

/-- The checks of AEAD_AAD pass on a StreamMode session in phase `Reset` or `AssocData`, the length positive (R133). -/
theorem aadError_eq_none_iff (sl : Slot) (a : Args) : aadError sl a = none ↔
    sl.mode = .stream ∧ (sl.phase = .reset ∨ sl.phase = .assocData) ∧ 0 < s32 a.a1 := by
  unfold aadError
  cases sl.mode <;> cases sl.phase <;> simp

section
variable {cfg : Config} {c : Nat} {s : State} {a : Args} {sl : Slot} {f : Fault}
  (ha : s.operands = some a) (hs : s.slots[c]? = some sl)
include ha hs

theorem aeadConstruct_stops {m : Mode} (h1 : 0 < s32 a.a1) (hn : 0 < s32 (backendOf cfg m).stateSize)
    (hr : RangeStop s (u32 a.a0) (byteCount a.a1) f) : aeadConstruct cfg c m s = .fault f := by
  simp only [aeadConstruct, withCommand_of_operands ha, withSlot_of_some hs, if_neg (Int.not_le.2 h1),
    if_neg (Int.not_le.2 hn), withRange_of_stop hr]

/-- A backend without a state ends AEAD_CONSTRUCT with E_INIT 1 before the key is read (R125 line 5). -/
theorem aeadConstruct_of_no_state {m : Mode} (h1 : 0 < s32 a.a1) (hn : ¬ 0 < s32 (backendOf cfg m).stateSize) :
    aeadConstruct cfg c m s = .next (raise (s.setSlot c (slotForConstruct sl)) .init 1) := by
  simp only [aeadConstruct, withCommand_of_operands ha, withSlot_of_some hs, if_neg (Int.not_le.2 h1),
    if_pos (Int.not_lt.1 hn)]

theorem aeadReset_stops (he : resetError sl a = none)
    (hr : RangeStop s (u32 a.a0) (byteCount a.a1) f ∨
      Accessible s (u32 a.a0) (byteCount a.a1) ∧ RangeStop s (u32 a.a2) (byteCount a.a3) f) :
    aeadReset cfg c s = .fault f := by
  simp only [aeadReset, withCommand_of_operands ha, withSlot_of_some hs, he, withRange_of_either_stop hr]

theorem aeadAad_stops (he : aadError sl a = none) (hr : RangeStop s (u32 a.a0) (byteCount a.a1) f) :
    aeadAad cfg c s = .fault f := by
  simp only [aeadAad, withCommand_of_operands ha, withSlot_of_some hs, he, withRange_of_stop hr]

theorem transform_stops {member : Backend → Bytes → Bytes → Option (Bytes × Bytes)} {info : Word}
    (he : transformError sl a = none)
    (hr : RangeStop s (u32 a.a0) (byteCount a.a1) f ∨
      Accessible s (u32 a.a0) (byteCount a.a1) ∧ RangeStop s (u32 a.a2) (byteCount a.a1) f) :
    transform cfg member info c s = .fault f := by
  simp only [transform, withCommand_of_operands ha, withSlot_of_some hs, he, withRange_of_either_stop hr]

/-- A transform on ranges that overlap without starting at the same address (R69). -/
theorem transform_of_overlap {member : Backend → Bytes → Bytes → Option (Bytes × Bytes)} {info : Word}
    (he : transformError sl a = none) (r1 : Accessible s (u32 a.a0) (byteCount a.a1))
    (r2 : Accessible s (u32 a.a2) (byteCount a.a1)) (hne : u32 a.a0 ≠ u32 a.a2)
    (h1 : u32 a.a0 < u32 a.a2 + byteCount a.a1) (h2 : u32 a.a2 < u32 a.a0 + byteCount a.a1) :
    transform cfg member info c s = .refused .partialOverlap := by
  have overlap : partialOverlap (u32 a.a0) (u32 a.a2) (byteCount a.a1) = true := by simp [partialOverlap, hne, h1, h2]
  rw [transform_of_admitted ha hs he r1 r2, if_pos overlap]

/-- AEAD_AUTH_TAG reaches its output range where the mode allows the tag length, and by the early zero-fill also where
it does not (R143). -/
theorem aeadAuthTag_stops (ho : sl.phase.open = true) (h1 : 1 ≤ s32 a.a1)
    (hv : tagLenValid sl a.a1 = true ∨ cfg.tagZeroBeforeValidate = true)
    (hr : RangeStop s (u32 a.a0) (byteCount a.a1) f) : aeadAuthTag cfg c s = .fault f := by
  simp only [aeadAuthTag, withCommand_of_operands ha, withSlot_of_some hs, ho, Bool.true_eq_false, if_false]
  split
  · rename_i hbad
    have early : cfg.tagZeroBeforeValidate = true := hv.resolve_left (by simp [hbad])
    rw [rejectTag, if_pos ⟨early, h1⟩, withRange_of_stop hr]
  · exact withRange_of_stop hr _

/-- Without the early zero-fill a tag length the mode does not allow is E_ARG (R142 line 3). -/
theorem aeadAuthTag_rejects (ho : sl.phase.open = true) (hv : tagLenValid sl a.a1 = false)
    (hz : cfg.tagZeroBeforeValidate = false) : aeadAuthTag cfg c s = .next (raise s .arg 0) := by
  simp [aeadAuthTag, withCommand_of_operands ha, withSlot_of_some hs, ho, hv, rejectTag, hz]

end

/-- The mode allows a positive tag length: at most 16 in StreamMode, TAGLEN in CounterMode (R144). -/
theorem tagLenValid_of_pos {sl : Slot} {n : Word} (h : 1 ≤ s32 n) : tagLenValid sl n = true ↔
    (sl.mode = .stream ∧ s32 n ≤ 16) ∨ (sl.mode = .counter ∧ n = sl.taglen) := by
  rw [tagLenValid_iff]
  cases sl.mode <;> simp [h]

/-! ### The RNG commands -/

section
variable {cfg : Config} {s : State} {base n : Nat} {f : Fault} {k : State → Result}

/-- Where the creation fails the command ends with its failure, and its body is not reached (R165). -/
theorem withEngine_of_error {info : Word} {env : EnvPorts} (hs : s.cur < s.ports.length)
    (h : creationOf cfg s = .error (info, env)) : ∃ t, withEngine cfg s k = .next t ∧ CreationFailed s t info env := by
  have spec := ensureCreated_spec cfg s
  rw [h] at spec
  obtain ⟨u, he, -, hc, hg, rfl, kept⟩ := spec
  exact ⟨creationFailed (u, info), by simp [withEngine, he], creationFailed_spec hs hc hg kept⟩

/-- Where the engine exists or is created, the body's access to a range stops as it would before (R164). -/
theorem withEngine_of_stop {r : Bytes × EnvPorts} (h : creationOf cfg s = .ok r) (hr : RangeStop s base n f) :
    (withEngine cfg s fun u => withRange u base n (k u)) = .fault f := by
  have spec := ensureCreated_spec cfg s
  rw [h] at spec
  obtain ⟨u, he, -, -, -, -, kept⟩ := spec
  simp only [withEngine, he, withRange_of_stop (rangeStop_congr kept.regions hr)]

end

/-- A framed command with a range, its length positive and the mutex free, goes on to the engine and then to its range
(R164). -/
theorem framedRange_eq {cfg : Config} {s : State} {a : Args} (ha : s.operands = some a) (h1 : 0 < s32 a.a1)
    (hf : s.lockOwner = none) (k : Args → State → Result) :
    (withCommand s fun a => if s32 a.a1 ≤ 0 then .next (raise s .arg 0)
      else withMutex s fun s => withEngine cfg s fun s => withRange s (u32 a.a0) (byteCount a.a1) (k a s)) =
      withEngine cfg s.takeMutex fun u => withRange u (u32 a.a0) (byteCount a.a1) (k a u) := by
  rw [withCommand_of_operands ha, if_neg (Int.not_le.2 h1), withMutex_of_free hf]

/-- RNG_SEED and RNG_RAND_BYTES are such commands. -/
theorem exec_rngRange {s : State} {a : Args} {i : Instr} (ha : s.operands = some a)
    (hi : i = .rngSeed ∨ i = .rngRandBytes) (h1 : 0 < s32 a.a1) (hf : s.lockOwner = none) :
    ∃ k : State → Result,
      exec i s = withEngine Config.hw s.takeMutex fun u => withRange u (u32 a.a0) (byteCount a.a1) (k u) := by
  rcases hi with rfl | rfl
  · exact ⟨_, (framedRange_eq ha h1 hf _ : rngSeed Config.hw s = _)⟩
  · exact ⟨_, (framedRange_eq ha h1 hf _ : rngRandBytes Config.hw s = _)⟩

/-- Settles O26: each command, its checks passed, comes to its ranges in the order of its pseudocode. -/
theorem transformStopsOnBadRanges : Obligations.TransformStopsOnBadRanges := by
  intro s a f ha
  have hcur := cur_lt_of_operands ha
  refine ⟨fun c m sl hs h1 hr => ?_, fun c sl hs hp hst hct h3 hr => ?_, fun c sl hs hm hp h1 hr => ?_,
    fun c sl i hi hs ho h1 h3 => ?_, fun c sl hs ho h1 hr => ?_, fun i hi h1 hf hr => ?_⟩
  · split
    · rename_i hn
      exact aeadConstruct_stops ha hs h1 hn hr
    · rename_i hn
      exact ⟨_, aeadConstruct_of_no_state ha hs h1 hn, ended_finish rfl hcur⟩
  · exact aeadReset_stops ha hs ((resetError_eq_none_iff sl a).2 ⟨hp, hst, hct, h3⟩) hr
  · exact aeadAad_stops ha hs ((aadError_eq_none_iff sl a).2 ⟨hm, hp, h1⟩) hr
  · have he := (transformError_eq_none_iff sl a).2 ⟨ho, h1, h3⟩
    rcases hi with rfl | rfl
    · exact ⟨transform_stops ha hs he, transform_of_overlap ha hs he⟩
    · exact ⟨transform_stops ha hs he, transform_of_overlap ha hs he⟩
  · split
    · rename_i hv
      rw [← or_assoc, ← tagLenValid_of_pos h1] at hv
      exact aeadAuthTag_stops ha hs ho h1 hv hr
    · rename_i hv
      rw [← or_assoc, ← tagLenValid_of_pos h1, not_or, Bool.not_eq_true, Bool.not_eq_true] at hv
      exact ⟨_, aeadAuthTag_rejects ha hs ho hv.1 hv.2, onlyRefusedWith_raise hcur .arg⟩
  · obtain ⟨k, hk⟩ := exec_rngRange ha hi h1 hf
    rw [hk]
    cases hc : creationOf Config.hw s with
    | error r => exact withEngine_of_error (s := s.takeMutex) hcur hc
    | ok r => exact withEngine_of_stop (s := s.takeMutex) hc hr

end Sys2Proof.Machine
end

section
/-! The command word: what a word has to read as a command, said of the encoder, of R92's columns and of the decoder. -/

namespace Sys2Proof

/-! ### The fields of a word -/

/-- A word is its four fields (R90). -/
theorem eq_iff_fields (v w : Word) : v = w ↔
    fieldRsv v = fieldRsv w ∧ fieldMode v = fieldMode w ∧ fieldCtx v = fieldCtx w ∧ fieldOp v = fieldOp w := by
  refine ⟨fun h => by simp [h], fun ⟨hr, hm, hc, ho⟩ => BitVec.eq_of_toNat_eq ?_⟩
  have hr := congrArg BitVec.toNat hr
  have hc := congrArg BitVec.toNat hc
  have ho := congrArg BitVec.toNat ho
  have := v.isLt
  have := w.isLt
  rw [fieldMode_eq, fieldMode_eq, decide_eq_decide] at hm
  rw [fieldCtx_toNat, fieldCtx_toNat] at hc
  rw [fieldOp_toNat, fieldOp_toNat] at ho
  simp only [fieldRsv, BitVec.extractLsb'_toNat, Nat.shiftRight_eq_div_pow] at hr
  omega

theorem fieldRsv_and (v w : Word) : fieldRsv (v &&& w) = fieldRsv v &&& fieldRsv w := BitVec.extractLsb'_and
theorem fieldCtx_and (v w : Word) : fieldCtx (v &&& w) = fieldCtx v &&& fieldCtx w := BitVec.extractLsb'_and
theorem fieldOp_and (v w : Word) : fieldOp (v &&& w) = fieldOp v &&& fieldOp w := BitVec.extractLsb'_and
theorem fieldMode_and (v w : Word) : fieldMode (v &&& w) = (fieldMode v && fieldMode w) := BitVec.getLsbD_and

theorem fieldCtx_eq_zero_iff (w : Word) : fieldCtx w = 0 ↔ (fieldCtx w).toNat = 0 := BitVec.toNat_inj.symm

/-- The `ctx` field as R92's table reads it. -/
theorem shiftRight_toNat_mod_eq_fieldCtx (w : Word) : (w >>> 8).toNat % 256 = (fieldCtx w).toNat := by
  simp [fieldCtx_toNat, Nat.shiftRight_eq_div_pow]

/-- The `mode` field as R92's table reads it. -/
theorem shiftRight_toNat_mod_eq_one_iff (w : Word) : (w >>> 16).toNat % 2 = 1 ↔ fieldMode w = true := by
  simp [fieldMode_eq, Nat.shiftRight_eq_div_pow]

@[simp] theorem modeOfBit_bit (m : Mode) : modeOfBit m.bit = m := by cases m <;> rfl
@[simp] theorem bit_modeOfBit (b : Bool) : (modeOfBit b).bit = b := by cases b <;> rfl

theorem Mode.bit_eq_true_iff (m : Mode) : m.bit = true ↔ m = .counter := by cases m <;> simp [Mode.bit]

/-! ### A word that reads as a command -/

/-- The fields of the word are the command's (R90, R92). -/
structure Reads (w : Word) (i : Instr) : Prop where
  rsv : fieldRsv w = 0
  op : fieldOp w = i.opcode
  ctx : (fieldCtx w).toNat = i.slot?.getD 0
  mode : fieldMode w = i.modeBit

theorem reads_iff (w : Word) (i : Instr) : Reads w i ↔ fieldRsv w = 0 ∧ fieldOp w = i.opcode ∧
    (fieldCtx w).toNat = i.slot?.getD 0 ∧ fieldMode w = i.modeBit :=
  ⟨fun h => ⟨h.rsv, h.op, h.ctx, h.mode⟩, fun ⟨hr, ho, hc, hm⟩ => ⟨hr, ho, hc, hm⟩⟩

theorem wf_of_slot {nCtx c : Nat} {i : Instr} (h : i.slot? = some c) : i.wf nCtx = true ↔ c < nCtx ∧ c < 256 := by
  simp [Instr.wf, h]

theorem wf_of_no_slot {nCtx : Nat} {i : Instr} (h : i.slot? = none) : i.wf nCtx = true := by simp [Instr.wf, h]

/-- A well-formed command's slot number fits its field. -/
theorem slot_lt_of_wf {nCtx : Nat} {i : Instr} (h : i.wf nCtx = true) : i.slot?.getD 0 < 256 := by
  cases hs : i.slot? with
  | none => simp
  | some c => exact ((wf_of_slot hs).1 h).2

/-- The word of a command reads as it. -/
theorem reads_encode {nCtx : Nat} {i : Instr} (h : i.wf nCtx = true) : Reads (encode i) i := by
  obtain ⟨ho, hc, hm, hr⟩ := Laws.EncodingShape.of_assemble i
  exact ⟨hr, ho, by rw [hc, BitVec.toNat_ofNat, Nat.mod_eq_of_lt (slot_lt_of_wf h)], hm⟩

/-- A command is read from no word but its own. -/
theorem Reads.encode_eq {w : Word} {i : Instr} (h : Reads w i) : encode i = w := by
  rw [encode, ← h.op, ← h.ctx, ← h.mode, BitVec.ofNat_toNat, BitVec.setWidth_eq, assemble_fields w h.rsv]

/-- R92's masks keep the `op` and reserved fields of a word. -/
theorem rowMask_fields (i : Instr) :
    fieldRsv (Machine.rowMask i) = BitVec.allOnes 15 ∧ fieldOp (Machine.rowMask i) = BitVec.allOnes 8 := by
  cases i <;> simp only [Machine.rowMask] <;> decide

theorem rowMatch_fields (i : Instr) :
    fieldRsv (Machine.rowMatch i) = 0 ∧ fieldMode (Machine.rowMatch i) = false ∧ fieldCtx (Machine.rowMatch i) = 0 ∧
      fieldOp (Machine.rowMatch i) = i.opcode := by
  cases i <;> simp only [Machine.rowMatch, Instr.opcode] <;> decide

/-- A word selects a row by its reserved field, its opcode, and what the row's mask keeps of `mode` and `ctx`. -/
theorem selects_iff (w : Word) (i : Instr) : w &&& Machine.rowMask i = Machine.rowMatch i ↔
    fieldRsv w = 0 ∧ (fieldMode w && fieldMode (Machine.rowMask i)) = false ∧
      fieldCtx w &&& fieldCtx (Machine.rowMask i) = 0 ∧ fieldOp w = i.opcode := by
  obtain ⟨kr, ko⟩ := rowMask_fields i
  obtain ⟨hr, hm, hc, ho⟩ := rowMatch_fields i
  rw [eq_iff_fields, fieldRsv_and, fieldMode_and, fieldCtx_and, fieldOp_and, kr, ko, hr, hm, hc, ho,
    BitVec.and_allOnes, BitVec.and_allOnes]

/-- R92's columns say the same of a word as the fields. -/
theorem row_iff_reads (w : Word) (i : Instr) :
    w &&& Machine.rowMask i = Machine.rowMatch i ∧ Machine.rowFields w i ↔ Reads w i := by
  rw [selects_iff, reads_iff]
  cases i
  case aeadConstruct c m =>
    have hm : fieldMode 0xFFFE00FF = false := by decide
    have hc : fieldCtx 0xFFFE00FF = 0#8 := by decide
    simp only [Machine.rowMask, Machine.rowFields, hm, hc, shiftRight_toNat_mod_eq_fieldCtx,
      shiftRight_toNat_mod_eq_one_iff, ← Mode.bit_eq_true_iff, Instr.modeBit, Instr.slot?, Bool.and_false,
      BitVec.and_zero, Option.getD_some, ← Bool.eq_iff_iff]
    tauto
  case aeadReset c | aeadAad c | aeadEncrypt c | aeadDecrypt c | aeadAuthTag c | aeadDestroy c =>
    have hm : fieldMode 0xFFFF00FF = true := by decide
    have hc : fieldCtx 0xFFFF00FF = 0#8 := by decide
    simp only [Machine.rowMask, Machine.rowFields, hm, hc, shiftRight_toNat_mod_eq_fieldCtx, Instr.modeBit,
      Instr.slot?, Bool.and_true, BitVec.and_zero, Option.getD_some]
    tauto
  case rngSeed | rngRandomSeed | rngRandBytes | rngRandU32 | rngRandU64 | rngLock | rngUnlock | rngCtx | rngShutdown =>
    have hm : fieldMode 0xFFFFFFFF = true := by decide
    have hc : fieldCtx 0xFFFFFFFF = BitVec.allOnes 8 := by decide
    simp only [Machine.rowMask, Machine.rowFields, hm, hc, fieldCtx_eq_zero_iff, Instr.modeBit, Instr.slot?,
      Bool.and_true, BitVec.and_allOnes, Option.getD_none]
    tauto

/-! ### The decoder -/

theorem decodeConstruct_of_fields {nCtx c : Nat} {w : Word} {m : Mode} (hc : (fieldCtx w).toNat = c)
    (hm : fieldMode w = m.bit) (h : c < nCtx) : decodeConstruct nCtx w = .ok (.aeadConstruct c m) := by
  simp [decodeConstruct, hc, hm, h]

theorem decodeAead_of_fields {nCtx c : Nat} {w : Word} (hc : (fieldCtx w).toNat = c) (hm : fieldMode w = false)
    (h : c < nCtx) (mk : Nat → Instr) : decodeAead nCtx w mk = .ok (mk c) := by
  simp [decodeAead, hc, hm, h]

theorem decodeRng_of_fields {w : Word} (hc : (fieldCtx w).toNat = 0) (hm : fieldMode w = false) (i : Instr) :
    decodeRng w i = .ok i := by
  simp [decodeRng, (fieldCtx_eq_zero_iff w).2 hc, hm]

/-- A word that reads as a well-formed command decodes to it. -/
theorem Reads.decode_eq {nCtx : Nat} {w : Word} {i : Instr} (h : Reads w i) (hwf : i.wf nCtx = true) :
    decode nCtx w = .ok i := by
  obtain ⟨hr, ho, hc, hm⟩ := h
  rw [decode, if_neg (not_not.2 hr), ho]
  cases i
  case aeadConstruct c m =>
    obtain ⟨hlt, -⟩ := (wf_of_slot rfl).1 hwf
    exact decodeConstruct_of_fields hc hm hlt
  case aeadReset c | aeadAad c | aeadEncrypt c | aeadDecrypt c | aeadAuthTag c | aeadDestroy c =>
    obtain ⟨hlt, -⟩ := (wf_of_slot rfl).1 hwf
    exact decodeAead_of_fields hc hm hlt _
  case rngSeed | rngRandomSeed | rngRandBytes | rngRandU32 | rngRandU64 | rngLock | rngUnlock | rngCtx | rngShutdown =>
    exact decodeRng_of_fields hc hm _

/-- The opcodes of the AEAD commands (R92). -/
def IsAeadOp (w : Word) : Prop := 0x10 ≤ (fieldOp w).toNat ∧ (fieldOp w).toNat ≤ 0x16

/-- The opcodes of the RNG commands (R92). -/
def IsRngOp (w : Word) : Prop := 0x20 ≤ (fieldOp w).toNat ∧ (fieldOp w).toNat ≤ 0x28

/-- What a word decodes to, each answer with the first condition of R91 that holds of the word, or with the command's
fields where none does. -/
inductive Decoded (nCtx : Nat) (w : Word) : Except DecodeError Instr → Prop
  | reservedBits (hr : fieldRsv w ≠ 0) : Decoded nCtx w (.error .reservedBits)
  | unknownOpcode (hr : fieldRsv w = 0) (ha : ¬ IsAeadOp w) (hg : ¬ IsRngOp w) :
    Decoded nCtx w (.error .unknownOpcode)
  | misplacedRngField (hr : fieldRsv w = 0) (hg : IsRngOp w) (hf : (fieldCtx w).toNat = 0 → fieldMode w = true) :
    Decoded nCtx w (.error .misplacedRngField)
  | misplacedMode (hr : fieldRsv w = 0) (ha : IsAeadOp w) (ho : (fieldOp w).toNat ≠ 0x10) (hm : fieldMode w = true) :
    Decoded nCtx w (.error .misplacedMode)
  | noSuchSlot (hr : fieldRsv w = 0) (ha : IsAeadOp w) (hm : (fieldOp w).toNat ≠ 0x10 → fieldMode w = false)
    (hc : nCtx ≤ (fieldCtx w).toNat) : Decoded nCtx w (.error .noSuchSlot)
  | aead (i : Instr) (h : Reads w i) (ha : IsAeadOp w) (hm : (fieldOp w).toNat ≠ 0x10 → fieldMode w = false)
    (hs : i.slot? = some (fieldCtx w).toNat) (hc : (fieldCtx w).toNat < nCtx) : Decoded nCtx w (.ok i)
  | rng (i : Instr) (h : Reads w i) (hg : IsRngOp w) (hs : i.slot? = none) (hc : (fieldCtx w).toNat = 0)
    (hm : fieldMode w = false) : Decoded nCtx w (.ok i)

theorem decodeConstruct_decoded {nCtx : Nat} {w : Word} (hr : fieldRsv w = 0) (ho : (fieldOp w).toNat = 0x10) :
    Decoded nCtx w (decodeConstruct nCtx w) := by
  have ha : IsAeadOp w := by simp [IsAeadOp, ho]
  rw [decodeConstruct]
  split
  · rename_i hc
    exact .aead _ ⟨hr, BitVec.eq_of_toNat_eq ho, rfl, (bit_modeOfBit _).symm⟩ ha (absurd ho) rfl hc
  · rename_i hc
    exact .noSuchSlot hr ha (absurd ho) (Nat.not_lt.1 hc)

theorem decodeAead_decoded {nCtx : Nat} {w : Word} {mk : Nat → Instr} (hr : fieldRsv w = 0)
    (lo : 0x10 < (fieldOp w).toNat) (hi : (fieldOp w).toNat ≤ 0x16) (ho : ∀ c, (mk c).opcode = fieldOp w)
    (hs : ∀ c, (mk c).slot? = some c) (hm : ∀ c, (mk c).modeBit = false) :
    Decoded nCtx w (decodeAead nCtx w mk) := by
  have ha : IsAeadOp w := ⟨lo.le, hi⟩
  rw [decodeAead]
  split
  · rename_i hb
    exact .misplacedMode hr ha lo.ne' hb
  · rename_i hb
    rw [Bool.not_eq_true] at hb
    split
    · rename_i hc
      exact .aead _ ⟨hr, (ho _).symm, by rw [hs, Option.getD_some], hb.trans (hm _).symm⟩ ha (fun _ => hb) (hs _) hc
    · rename_i hc
      exact .noSuchSlot hr ha (fun _ => hb) (Nat.not_lt.1 hc)

theorem decodeRng_decoded {nCtx : Nat} {w : Word} {i : Instr} (hr : fieldRsv w = 0) (hg : IsRngOp w)
    (ho : i.opcode = fieldOp w) (hs : i.slot? = none) (hm : i.modeBit = false) : Decoded nCtx w (decodeRng w i) := by
  rw [decodeRng]
  split
  · rename_i hf
    have hc := (fieldCtx_eq_zero_iff w).1 hf.1
    exact .rng i ⟨hr, ho.symm, by rw [hs, Option.getD_none, hc], hf.2.trans hm.symm⟩ hg hs hc hf.2
  · rename_i hf
    refine .misplacedRngField hr hg fun hc => ?_
    simpa [(fieldCtx_eq_zero_iff w).2 hc] using hf

/-- The decoder answers by the first condition of R91 that holds of the word. -/
theorem decode_decoded (nCtx : Nat) (w : Word) : Decoded nCtx w (decode nCtx w) := by
  rw [decode]
  split
  · rename_i hr
    exact .reservedBits hr
  · rename_i hr
    rw [not_not] at hr
    split
    case h_1 _ ho => exact decodeConstruct_decoded hr ho
    case h_2 _ ho | h_3 _ ho | h_4 _ ho | h_5 _ ho | h_6 _ ho | h_7 _ ho =>
      exact decodeAead_decoded hr (by omega) (by omega) (fun _ => BitVec.eq_of_toNat_eq ho.symm) (fun _ => rfl)
        fun _ => rfl
    case h_8 _ ho | h_9 _ ho | h_10 _ ho | h_11 _ ho | h_12 _ ho | h_13 _ ho | h_14 _ ho | h_15 _ ho | h_16 _ ho =>
      exact decodeRng_decoded hr ⟨by omega, by omega⟩ (BitVec.eq_of_toNat_eq ho.symm) rfl rfl
    case h_17 => exact .unknownOpcode hr (by grind [IsAeadOp]) (by grind [IsRngOp])

theorem Decoded.reads {nCtx : Nat} {w : Word} {i : Instr} (h : Decoded nCtx w (.ok i)) :
    Reads w i ∧ i.wf nCtx = true := by
  cases h with
  | aead _ hi _ _ hs hc => exact ⟨hi, (wf_of_slot hs).2 ⟨hc, (fieldCtx w).isLt⟩⟩
  | rng _ hi _ hs => exact ⟨hi, wf_of_no_slot hs⟩

theorem decode_eq_ok_iff (nCtx : Nat) (w : Word) (i : Instr) :
    decode nCtx w = .ok i ↔ Reads w i ∧ i.wf nCtx = true :=
  ⟨fun h => (h ▸ decode_decoded nCtx w).reads, fun ⟨h, hwf⟩ => h.decode_eq hwf⟩

/-! ### The claims -/

/-- Settles O1: the word of a command has the command's fields, and a word with them decodes to the command. -/
theorem decodeOfEncodedCommand : Obligations.DecodeOfEncodedCommand :=
  fun nCtx i h => (decode_eq_ok_iff nCtx _ i).2 ⟨reads_encode h, h⟩

/-- Settles O2: the decoded word has the command's fields and no other bit. -/
theorem encodeOfDecodedWord : Obligations.EncodeOfDecodedWord := by
  intro nCtx w i h
  obtain ⟨hi, hwf⟩ := (decode_eq_ok_iff nCtx w i).1 h
  exact ⟨hi.encode_eq, hwf⟩

/-- Settles O3: R92's columns name the fields that the decoder reads. -/
theorem opcodeTableSelectsCommands : Obligations.OpcodeTableSelectsCommands := by
  intro nCtx w i
  rw [← and_assoc, row_iff_reads]
  exact decode_eq_ok_iff nCtx w i

/-- Settles O4: the decoder answers under the conditions of `Decoded`, and these exclude each other. -/
theorem illegalWordsByCause : Obligations.IllegalWordsByCause := by
  intro nCtx w op ctx mode rsv isAead isRng
  have hr : fieldRsv w = 0 ↔ rsv = 0 := fieldRsv_eq_zero_iff w
  have ho : (fieldOp w).toNat = op := fieldOp_toNat w
  have hc : (fieldCtx w).toNat = ctx := fieldCtx_toNat w
  have hm : fieldMode w = decide (mode = 1) := fieldMode_eq w
  have bit : mode < 2 := Nat.mod_lt _ (by decide)
  have ha : IsAeadOp w ↔ isAead := by rw [IsAeadOp, ho]
  have hg : IsRngOp w ↔ isRng := by rw [IsRngOp, ho]
  have excl : ¬ (isAead ∧ isRng) := fun ⟨⟨_, h⟩, ⟨l, _⟩⟩ => by omega
  have answer := decode_decoded nCtx w
  clear_value op ctx mode rsv isAead isRng
  generalize decode nCtx w = r at answer
  cases answer
  case reservedBits | unknownOpcode | misplacedRngField | misplacedMode | noSuchSlot => grind
  case aead reads _ _ _ _ | rng reads _ _ _ _ =>
    obtain ⟨_, opcode, slot, modeBit⟩ := reads
    grind

/-- Settles O5: each word is decoded by evaluation. -/
theorem writtenWordsDecode : Obligations.WrittenWordsDecode := by
  unfold Obligations.WrittenWordsDecode
  decide

end Sys2Proof
end

section
/-! The step for an illegal word. -/

namespace Sys2Proof.Machine

/-- Settles O9: the controller ends a command whose word decodes to nothing by `raise`, which changes nothing but the end
of the command. -/
theorem illegalWordEndsWithEIllegal : Obligations.IllegalWordEndsWithEIllegal := by
  intro s p rest l e ha hc hl hd
  have hl' : State.pendingAt { s with agenda := rest } p = some l := hl
  refine ⟨raise { s with agenda := rest, cur := p } .illegal 0, ?_, onlyRefusedWith_raise (lt_of_pendingAt hl) .illegal⟩
  rw [step_of_agenda hc ha]
  simp [makeMove, serve, hl', hd]

end Sys2Proof.Machine
end

section
/-! AEAD commands that their checks reject: each ends by one `raise` on an unchanged block (R246, R248). -/

namespace Sys2Proof.Machine

/-- A command that only raises an error is one that its port sees refused. -/
theorem refused_of_raise {s : State} {a : Args} {i : Instr} {e : Err} (ha : s.operands = some a)
    (h : exec i s = .next (raise s e 0)) : ∃ t, exec i s = .next t ∧ OnlyRefusedWith s t e.code :=
  ⟨_, h, onlyRefusedWith_raise (cur_lt_of_operands ha) e⟩

/-! ### What the checks answer -/

/-- On a session the checks of AEAD_RESET raise E_ARG alone (R129 lines 2 to 4). -/
theorem resetError_of_live {sl : Slot} {a : Args} {e : Err} (live : sl.phase ≠ .unconstructed)
    (h : resetError sl a = some e) : e = .arg := by
  rw [resetError, if_neg live] at h
  repeat' split at h
  all_goals simp_all

/-- On a StreamMode session in `Reset` or `AssocData` the checks of AEAD_AAD raise E_ARG alone (R133 line 4). -/
theorem aadError_of_admitted {sl : Slot} {a : Args} {e : Err} (hm : sl.mode = .stream)
    (hp : sl.phase = .reset ∨ sl.phase = .assocData) (h : aadError sl a = some e) : e = .arg := by
  have : s32 a.a1 ≤ 0 ∧ e = .arg := by rcases hp with hp | hp <;> simpa [aadError, hm, hp, eq_comm] using h
  exact this.2

/-- In an admitted phase the checks of a transform raise E_SIZE alone (R136, R139 lines 2 and 3). -/
theorem transformError_of_open {sl : Slot} {a : Args} {e : Err} (ho : sl.phase.open = true)
    (h : transformError sl a = some e) : e = .size := by
  simp only [transformError, ho, Bool.true_eq_false, if_false] at h
  repeat' split at h
  all_goals simp_all

/-! ### The commands -/

section
variable {c : Nat} {s : State} {a : Args} {sl : Slot} {e : Err}
  (ha : s.operands = some a) (hs : s.slots[c]? = some sl)
include ha hs

theorem aeadConstruct_refused {m : Mode} (h : s32 a.a1 ≤ 0) :
    ∃ t, exec (.aeadConstruct c m) s = .next t ∧ OnlyRefusedWith s t Err.arg.code :=
  refused_of_raise ha <| by
    simp only [exec, execAeadConstruct, aeadConstruct, withCommand_of_operands ha, withSlot_of_some hs, if_pos h]

theorem aeadReset_refused (he : resetError sl a = some e) :
    ∃ t, exec (.aeadReset c) s = .next t ∧ OnlyRefusedWith s t e.code :=
  refused_of_raise ha <| by
    simp only [exec, execAeadReset, aeadReset, withCommand_of_operands ha, withSlot_of_some hs, he]

theorem aeadAad_refused (he : aadError sl a = some e) :
    ∃ t, exec (.aeadAad c) s = .next t ∧ OnlyRefusedWith s t e.code :=
  refused_of_raise ha <| by
    simp only [exec, execAeadAad, aeadAad, withCommand_of_operands ha, withSlot_of_some hs, he]

theorem transform_refused {i : Instr} (hi : i = .aeadEncrypt c ∨ i = .aeadDecrypt c)
    (he : transformError sl a = some e) : ∃ t, exec i s = .next t ∧ OnlyRefusedWith s t e.code := by
  have raises (member info) : transform Config.hw member info c s = .next (raise s e 0) := by
    simp only [transform, withCommand_of_operands ha, withSlot_of_some hs, he]
  rcases hi with rfl | rfl
  · exact refused_of_raise ha (raises encryptBytes 7)
  · exact refused_of_raise ha (raises decryptBytes 8)

theorem aeadAuthTag_refused_phase (ho : sl.phase.open = false) :
    ∃ t, exec (.aeadAuthTag c) s = .next t ∧ OnlyRefusedWith s t Err.seq.code :=
  refused_of_raise ha <| by
    simp only [exec, execAeadAuthTag, aeadAuthTag, withCommand_of_operands ha, withSlot_of_some hs, if_pos ho]

/-- AEAD_AUTH_TAG with a tag length the mode does not allow (R142 line 3). -/
theorem exec_aeadAuthTag_of_invalid (ho : sl.phase.open = true) (hv : tagLenValid sl a.a1 = false) :
    exec (.aeadAuthTag c) s = rejectTag Config.hw a s := by
  simp only [exec, execAeadAuthTag, aeadAuthTag, withCommand_of_operands ha, withSlot_of_some hs, ho, hv, if_true,
    Bool.true_eq_false, if_false]

/-- A tag length the mode does not allow, where nothing is zero-filled early (R142 line 3, R143). -/
theorem aeadAuthTag_refused_length (ho : sl.phase.open = true) (hv : tagLenValid sl a.a1 = false)
    (hz : Config.hw.tagZeroBeforeValidate = false ∨ s32 a.a1 < 1) :
    ∃ t, exec (.aeadAuthTag c) s = .next t ∧ OnlyRefusedWith s t Err.arg.code := by
  have early : ¬ (Config.hw.tagZeroBeforeValidate = true ∧ s32 a.a1 ≥ 1) := by
    rintro ⟨hz', h1⟩
    rcases hz with hz | hz
    · cases hz.symm.trans hz'
    · omega
  exact refused_of_raise ha ((exec_aeadAuthTag_of_invalid ha hs ho hv).trans (if_neg early))

end

/-! ### The claims -/

/-- Settles O17: the length is the first thing checked. -/
theorem constructRejectsNonPositiveKeyLength : Obligations.ConstructRejectsNonPositiveKeyLength :=
  fun _ _ _ _ _ ha hs h => aeadConstruct_refused ha hs h

/-- Settles O19: without a session the first check fails; with one the checks do not all pass, and raise E_ARG alone. -/
theorem resetRejectsInOrder : Obligations.ResetRejectsInOrder := by
  intro s c a sl ha hs
  refine ⟨fun dead => aeadReset_refused ha hs (e := .seq) (if_pos dead), fun live bad => ?_⟩
  cases he : resetError sl a with
  | none =>
    obtain ⟨-, hst, hct, h3⟩ := (resetError_eq_none_iff sl a).1 he
    rcases bad with ⟨hm, h⟩ | ⟨hm, h⟩ | h
    · exact absurd (hst hm) (by omega)
    · exact absurd (hct hm) (by omega)
    · exact absurd h3 (by omega)
  | some e =>
    obtain rfl := resetError_of_live live he
    exact aeadReset_refused ha hs he

/-- Settles O21: the mode is tested right after the phase `Unconstructed`. -/
theorem counterModeAadUnsupported : Obligations.CounterModeAadUnsupported := by
  intro s c a sl ha hs
  refine ⟨fun live hm => aeadAad_refused ha hs (e := .unsupported) ?_,
    fun dead => aeadAad_refused ha hs (e := .seq) (if_pos dead)⟩
  rw [aadError, if_neg live, if_pos hm]

/-- Settles O22: a StreamMode session passes the mode test, so that its phase decides, and then the length. -/
theorem streamAadRejectsInOrder : Obligations.StreamAadRejectsInOrder := by
  intro s c a sl ha hs hm
  refine ⟨fun h1 h2 => aeadAad_refused ha hs (e := .seq) ?_, fun hp h => aeadAad_refused ha hs (e := .arg) ?_⟩
  · by_cases dead : sl.phase = .unconstructed <;> simp [aadError, hm, h1, h2, dead]
  · rcases hp with hp | hp <;> simp [aadError, hm, hp, h]

/-- Settles O24: outside the admitted phases the first check fails; inside them the checks do not all pass, and raise
E_SIZE alone. -/
theorem transformRejectsInOrder : Obligations.TransformRejectsInOrder := by
  intro s c a sl i hi ha hs
  refine ⟨fun ho => transform_refused ha hs hi (e := .seq) (if_pos ho), fun ho bad => ?_⟩
  cases he : transformError sl a with
  | none =>
    obtain ⟨-, h1, h3⟩ := (transformError_eq_none_iff sl a).1 he
    exact absurd bad (by omega)
  | some e =>
    obtain rfl := transformError_of_open ho he
    exact transform_refused ha hs hi he

end Sys2Proof.Machine
end

section
/-! AEAD commands whose checks pass, on ranges that can be accessed: each completes, by the answers of its backend
members in their order. -/

namespace Sys2Proof.Machine

/-- What was stored over a range reads back. -/
theorem bytesAt_stored {t : State} {m : Memory} {base n : Nat} {v : Bytes}
    (h : t.mem = Memory.writeBytes Config.hw m base v) (hn : v.length = n) : bytesAt t base n = v :=
  hn ▸ bytesAt_writeBytes h

/-- A change of the current port does not remove it. -/
theorem cur_lt_updCur {s : State} (h : s.cur < s.ports.length) (f : Port → Port) :
    s.cur < (s.updCur f).ports.length := by
  simpa using h

/-- The end of a command whose backend member fails on a session (R129, R150). -/
theorem failSlot_ends {c : Nat} {s : State} {sl : Slot} (hs : s.slots[c]? = some sl) (hcur : s.cur < s.ports.length)
    (aadf : Bool) (e : Err) (info : Word) :
    ∃ t sl', (.next (raise (failSlot Config.hw s c { sl with aadf := aadf }) e info) : Result) = .next t ∧
      t.slots[c]? = some sl' ∧ Ended s t e.code info ∧ FailedFrom sl sl' aadf :=
  ⟨_, _, rfl, getElem?_set_of_some hs _, ended_finish rfl hcur, rfl, rfl, rfl, rfl, rfl⟩

/-! ### The commands past their checks -/

section
variable {c : Nat} {s : State} {a : Args} {sl : Slot} (ha : s.operands = some a) (hs : s.slots[c]? = some sl)
include ha hs

/-- AEAD_CONSTRUCT comes to its backend calls with the key read and the key's staging buffer empty again (R125 line 6
on, R127). -/
theorem exec_aeadConstruct_eq {m : Mode} (h1 : 0 < s32 a.a1) (hn : 0 < s32 (backendOf Config.hw m).stateSize)
    (acc : Accessible s (u32 a.a0) (byteCount a.a1)) :
    exec (.aeadConstruct c m) s =
      installKey Config.hw c m a.a2 (bytesAt s (u32 a.a0) (byteCount a.a1)) (slotForConstruct sl)
        (s.updCur fun p => { p with keyStage := .new }) := by
  simp only [exec, execAeadConstruct, aeadConstruct, withCommand_of_operands ha, withSlot_of_some hs,
    if_neg (Int.not_le.2 h1), if_neg (Int.not_le.2 hn), withRange_of_accessible acc, throughKeyStage_fst,
    throughKeyStage_snd, bytesAt_eq_load]

theorem exec_aeadReset_eq (he : resetError sl a = none) (r1 : Accessible s (u32 a.a0) (byteCount a.a1))
    (r2 : Accessible s (u32 a.a2) (byteCount a.a3)) :
    exec (.aeadReset c) s =
      startMessage Config.hw c a (bytesAt s (u32 a.a0) (byteCount a.a1)) (bytesAt s (u32 a.a2) (byteCount a.a3)) sl
        s := by
  simp only [exec, execAeadReset, aeadReset, withCommand_of_operands ha, withSlot_of_some hs, he,
    withRange_of_accessible r1, withRange_of_accessible r2, bytesAt_eq_load]

/-- AEAD_AUTH_TAG comes to its backend call with its output range zero (R142 line 4). -/
theorem exec_aeadAuthTag_eq (ho : sl.phase.open = true) (hv : tagLenValid sl a.a1 = true)
    (acc : Accessible s (u32 a.a0) (byteCount a.a1)) :
    exec (.aeadAuthTag c) s =
      deliverTag Config.hw c a sl (s.store Config.hw (u32 a.a0) (zeros (byteCount a.a1))) := by
  simp only [exec, execAeadAuthTag, aeadAuthTag, withCommand_of_operands ha, withSlot_of_some hs, ho, hv,
    Bool.true_eq_false, if_false, withRange_of_accessible acc]

end

/-! ### AEAD_CONSTRUCT, AEAD_RESET, AEAD_AAD, AEAD_DESTROY -/

/-- Settles O18: line 2 of R125 leaves an empty slot, and each failing member leaves it so. -/
theorem constructInstallsKey : Obligations.ConstructInstallsKey := by
  intro s c m a sl ha hs hempty h1 acc
  have hcur := cur_lt_of_operands ha
  have hslot := slotForConstruct_eq_empty hempty
  dsimp only
  split
  · rename_i hn
    exact ⟨_, _, aeadConstruct_of_no_state ha hs h1 (Int.not_lt.2 hn), getElem?_set_of_some hs _, ended_finish rfl hcur,
      hslot⟩
  · rename_i hn
    have hl := cur_lt_updCur hcur fun p => { p with keyStage := .new }
    rw [exec_aeadConstruct_eq ha hs h1 (Int.not_le.1 hn) acc, hslot, installKey]
    cases initBytes (backendOf Config.hw m) (bytesAt s (u32 a.a0) (byteCount a.a1))
        (byteCount (backendOf Config.hw m).stateSize) with
    | none => exact ⟨_, _, rfl, getElem?_set_of_some hs _, ended_finish rfl hl, rfl⟩
    | some bs =>
      dsimp only
      cases setTagLenIfCounter Config.hw m a.a2 bs with
      | none => exact ⟨_, _, rfl, getElem?_set_of_some hs _, ended_finish rfl hl, rfl⟩
      | some bs' =>
        exact ⟨_, _, rfl, getElem?_set_of_some hs _, ended_finish rfl hl, rfl, rfl, rfl, rfl,
          SecBuf.content_assign _ _ _⟩

/-- Settles O20: the three backend calls in their order; the first that fails leaves the slot `Failed`. -/
theorem resetStartsMessage : Obligations.ResetStartsMessage := by
  intro s c a sl ha hs live hst hct h3 r1 r2
  have hcur := cur_lt_of_operands ha
  have he := (resetError_eq_none_iff sl a).2 ⟨live, hst, hct, h3⟩
  dsimp only
  rw [exec_aeadReset_eq ha hs he r1 r2, startMessage]
  cases resetIvBytes (backendOf Config.hw sl.mode) (bytesAt s (u32 a.a0) (byteCount a.a1)) sl.bstate.content with
  | none => exact failSlot_ends hs hcur false .init 4
  | some b1 =>
    dsimp only
    cases setMsgLenIfCounter Config.hw sl.mode b1 with
    | none => exact failSlot_ends hs hcur false .init 5
    | some b2 =>
      dsimp only
      cases processAadIfAny (backendOf Config.hw sl.mode) a.a3 (bytesAt s (u32 a.a2) (byteCount a.a3)) b2 with
      | none => exact failSlot_ends hs hcur false .backend 6
      | some b3 =>
        exact ⟨_, _, rfl, getElem?_set_of_some hs _, ended_finish rfl hcur, rfl, rfl, rfl, decide_eq_true_iff,
          SecBuf.content_assign _ _ _⟩

/-- Settles O23: one backend call on the bytes read. -/
theorem aadAppends : Obligations.AadAppends := by
  intro s c a sl ha hs hm hp h1 acc
  have hcur := cur_lt_of_operands ha
  have he := (aadError_eq_none_iff sl a).2 ⟨hm, hp, h1⟩
  simp only [exec, execAeadAad, aeadAad, withCommand_of_operands ha, withSlot_of_some hs, he,
    withRange_of_accessible acc, ← bytesAt_eq_load]
  cases processAadBytes (backendOf Config.hw sl.mode) (bytesAt s (u32 a.a0) (byteCount a.a1)) sl.bstate.content with
  | none => exact failSlot_ends hs hcur sl.aadf .backend 6
  | some bs =>
    exact ⟨_, _, rfl, getElem?_set_of_some hs _, ended_finish rfl hcur, rfl, rfl, rfl, rfl, SecBuf.content_assign _ _ _⟩

/-- Settles O30: the command has no check, and a destroyed slot is an empty one. -/
theorem destroyEmptiesSlot : Obligations.DestroyEmptiesSlot := by
  intro s c a sl ha hs
  have runs : exec (.aeadDestroy c) s = .next (complete (s.setSlot c .empty)) := by
    simp only [exec, execAeadDestroy, aeadDestroy, withCommand_of_operands ha, withSlot_of_some hs, destroyed_eq_empty]
  exact ⟨_, runs, ended_finish rfl (cur_lt_of_operands ha), getElem?_set_of_some hs _, memoryKept_of_mem rfl,
    rfl, rfl, rfl, rfl, rfl⟩

/-! ### The transforms -/

/-- The backend member of a transform and the detail of its failure (R136, R139). -/
def TransformMember (c : Nat) (i : Instr) (member : Backend → Bytes → Bytes → Option (Bytes × Bytes)) (info : Word) :
    Prop :=
  i = .aeadEncrypt c ∧ member = encryptBytes ∧ info = 7 ∨ i = .aeadDecrypt c ∧ member = decryptBytes ∧ info = 8

namespace TransformMember
variable {c : Nat} {i : Instr} {member : Backend → Bytes → Bytes → Option (Bytes × Bytes)} {info : Word}
  (h : TransformMember c i member info)
include h

theorem instr : i = .aeadEncrypt c ∨ i = .aeadDecrypt c := h.imp And.left And.left

theorem exec_eq (s : State) : exec i s = transform Config.hw member info c s := by
  rcases h with ⟨rfl, rfl, rfl⟩ | ⟨rfl, rfl, rfl⟩ <;> rfl

theorem output_length {be : Backend} {x bs y bs' : Bytes} (e : member be x bs = some (y, bs')) :
    y.length = x.length := by
  rcases h with ⟨-, rfl, -⟩ | ⟨-, rfl, -⟩
  · exact (encryptBytes_length e).1
  · exact (decryptBytes_length e).1

end TransformMember

/-- How a transform with operands `a` on slot `c`, which held `sl`, has ended, by the answer of its backend member. -/
def TransformEnd (c : Nat) (a : Args) (sl : Slot) (info : Word) (s t : State) : Option (Bytes × Bytes) → Prop
  | none => Ended s t 5 info ∧
      t.slots[c]? = some { sl with bstate := sl.bstate.scramble Config.hw (s.draws + 1), phase := .failed }
  | some (out, bs) => Ended s t 0 0 ∧ bytesAt t (u32 a.a2) (byteCount a.a1) = out ∧
      t.slots[c]? = some { sl with bstate := SecBuf.assign Config.hw sl.bstate bs, phase := .transforming }

/-- A transform past its checks, on ranges that can be accessed and are the same or disjoint (R136, R139 lines 4
to 9). -/
theorem transform_completes {c : Nat} {i : Instr} {member : Backend → Bytes → Bytes → Option (Bytes × Bytes)}
    {info : Word} {s : State} {a : Args} {sl : Slot} (hi : TransformMember c i member info) (ha : s.operands = some a)
    (hs : s.slots[c]? = some sl) (he : transformError sl a = none) (r1 : Accessible s (u32 a.a0) (byteCount a.a1))
    (r2 : Accessible s (u32 a.a2) (byteCount a.a1))
    (apart : partialOverlap (u32 a.a0) (u32 a.a2) (byteCount a.a1) = false) :
    ∃ t, exec i s = .next t ∧ TransformEnd c a sl info s t
      (member (backendOf Config.hw sl.mode) (bytesAt s (u32 a.a0) (byteCount a.a1)) sl.bstate.content) := by
  have hcur := cur_lt_of_operands ha
  rw [hi.exec_eq, transform_of_admitted ha hs he r1 r2, apart, if_neg Bool.false_ne_true, runTransform,
    ← bytesAt_eq_load]
  cases e : member (backendOf Config.hw sl.mode) (bytesAt s (u32 a.a0) (byteCount a.a1)) sl.bstate.content with
  | none => exact ⟨_, rfl, ended_finish rfl hcur, getElem?_set_of_some hs _⟩
  | some r =>
    have hlen : r.1.length = byteCount a.a1 := (hi.output_length e).trans (load_length _ _ _ _)
    exact ⟨_, rfl, ended_finish rfl hcur, bytesAt_stored rfl hlen, getElem?_set_of_some hs _⟩

/-- Settles O25: the end of a transform, its slot taken apart, and the memory frame of every transform. -/
theorem transformMovesBytes : Obligations.TransformMovesBytes := by
  intro s c a sl i info member hi ha hs ho h1 h3 r1 r2 apart
  have hi : TransformMember c i member info := hi
  have he := (transformError_eq_none_iff sl a).2 ⟨ho, h1, h3⟩
  obtain ⟨t, runs, ends⟩ := transform_completes hi ha hs he r1 r2 ((partialOverlap_eq_false_iff _ _ _).2 apart)
  have frame := (commandMemoryFrame s t i a ha runs).1 c hi.instr
  cases e : member (backendOf Config.hw sl.mode) (bytesAt s (u32 a.a0) (byteCount a.a1)) sl.bstate.content with
  | none =>
    rw [e] at ends
    obtain ⟨ended, slot⟩ := ends
    exact ⟨t, _, runs, slot, frame, ended, rfl, rfl, rfl, rfl, rfl⟩
  | some r =>
    rw [e] at ends
    obtain ⟨ended, out, slot⟩ := ends
    exact ⟨t, _, runs, slot, frame, ended, out, rfl, rfl, rfl, rfl, SecBuf.content_assign _ _ _⟩

/-- Every transform has its backend member. -/
theorem exists_transformMember {c : Nat} {i : Instr} (hi : i = .aeadEncrypt c ∨ i = .aeadDecrypt c) :
    ∃ member info, TransformMember c i member info := by
  rcases hi with rfl | rfl
  · exact ⟨_, _, .inl ⟨rfl, rfl, rfl⟩⟩
  · exact ⟨_, _, .inr ⟨rfl, rfl, rfl⟩⟩

/-- Settles O27: the whole input is read before any output is written, so that both runs make the same backend call. -/
theorem inPlaceTransformEqualsTwoBuffer : Obligations.InPlaceTransformEqualsTwoBuffer := by
  intro s s' c a a' sl i hi ha ha' hs hs' ho h1 h3 h3' e0 e1 e2 r1 r1' r2' apart hbytes
  obtain ⟨member, info, hi⟩ := exists_transformMember hi
  have sameInput : bytesAt s' (u32 a.a0) (byteCount a.a1) = bytesAt s (u32 a.a0) (byteCount a.a1) :=
    List.map_congr_left fun k hk => hbytes k (List.mem_range.1 hk)
  obtain ⟨t, runs, ends⟩ := transform_completes hi ha hs ((transformError_eq_none_iff sl a).2 ⟨ho, h1, h3⟩) r1
    (by rwa [e2]) ((partialOverlap_eq_false_iff _ _ _).2 (.inl (by rw [e2])))
  obtain ⟨t', runs', ends'⟩ := transform_completes hi ha' hs'
    ((transformError_eq_none_iff sl a').2 ⟨ho, by rwa [e1], by rwa [e1]⟩) (by rwa [e0, e1]) (by rwa [e1])
    ((partialOverlap_eq_false_iff _ _ _).2 (.inr (by rwa [e0, e1])))
  refine ⟨t, t', runs, runs', ?_⟩
  rw [e0, e1, sameInput] at ends'
  cases e : member (backendOf Config.hw sl.mode) (bytesAt s (u32 a.a0) (byteCount a.a1)) sl.bstate.content with
  | none =>
    rw [e] at ends ends'
    have failed {u v : State} (h : Ended u v 5 info) : ¬ Ended u v 0 0 := fun k => nomatch (ended_unique h k).1
    exact ⟨iff_of_false (failed ends.1) (failed ends'.1), fun h => absurd h (failed ends.1)⟩
  | some r =>
    rw [e] at ends ends'
    obtain ⟨ended, out, slot⟩ := ends
    obtain ⟨ended', out', slot'⟩ := ends'
    exact ⟨iff_of_true ended ended', fun _ => ⟨out.trans (e1 ▸ out'.symm), slot.trans slot'.symm⟩⟩

/-! ### AEAD_AUTH_TAG -/

/-- Settles O28: the phase, then the tag length; the early zero-fill stores zeros over the range and nothing else. -/
theorem authTagRejectsInOrder : Obligations.AuthTagRejectsInOrder := by
  intro s c a sl ha hs
  refine ⟨fun ho => aeadAuthTag_refused_phase ha hs ho, fun ho h1 => ?_, fun ho h1 bad acc => ?_⟩
  · have invalid : tagLenValid sl a.a1 = false := by
      rw [← Bool.not_eq_true, tagLenValid_iff]
      exact fun h => absurd h.1 (by omega)
    exact aeadAuthTag_refused_length ha hs ho invalid (.inr h1)
  · have invalid : tagLenValid sl a.a1 = false := by
      rw [← Bool.not_eq_true, tagLenValid_of_pos h1]
      rcases bad with ⟨hm, h⟩ | ⟨hm, h⟩ <;> simp [hm, h]
    split
    · rename_i hz
      have runs : exec (.aeadAuthTag c) s =
          .next (raise (s.store Config.hw (u32 a.a0) (zeros (byteCount a.a1))) .arg 0) := by
        rw [exec_aeadAuthTag_of_invalid ha hs ho invalid, rejectTag, if_pos ⟨hz, h1⟩, withRange_of_accessible (acc hz)]
      exact ⟨_, runs, ended_finish rfl (cur_lt_of_operands ha), rfl, ⟨rfl, rfl, rfl, rfl, rfl⟩,
        bytesAt_stored rfl (SecBuf.zeros_length _), (commandMemoryFrame s _ _ a ha runs).2.1 c rfl⟩
    · rename_i hz
      exact aeadAuthTag_refused_length ha hs ho invalid (.inl (Bool.eq_false_of_not_eq_true hz))

/-- Settles O29: the range is zero before the tag is made, and the tag is stored over it. -/
theorem authTagDelivers : Obligations.AuthTagDelivers := by
  intro s c a sl ha hs ho h1 hst hct acc
  have hcur := cur_lt_of_operands ha
  have runs := exec_aeadAuthTag_eq ha hs ho ((tagLenValid_iff sl a.a1).2 ⟨h1, hst, hct⟩) acc
  have frame (t) (h : exec (.aeadAuthTag c) s = .next t) : MemoryKeptOutside s t (u32 a.a0) (byteCount a.a1) :=
    (commandMemoryFrame s t _ a ha h).2.1 c rfl
  rw [deliverTag] at runs
  cases e : getTagBytes (backendOf Config.hw sl.mode) (byteCount a.a1) sl.bstate.content with
  | none =>
    rw [e] at runs
    exact ⟨_, _, runs, getElem?_set_of_some hs _, frame _ runs, ended_finish rfl hcur, ⟨rfl, rfl, rfl, rfl, rfl⟩,
      bytesAt_stored rfl (SecBuf.zeros_length _)⟩
  | some r =>
    rw [e] at runs
    have hl := cur_lt_updCur hcur fun p => { p with tagStage := .new }
    refine ⟨_, _, runs, getElem?_set_of_some hs _, frame _ runs, ended_finish rfl hl, ?_, rfl, rfl, rfl, rfl,
      SecBuf.content_assign _ _ _⟩
    exact (bytesAt_stored rfl ((congrArg _ (throughTagStage_fst _ _ _)).trans (getTagBytes_length e).1)).trans
      (throughTagStage_fst _ _ _)

end Sys2Proof.Machine
end

section
/-! The AEAD unit as a whole: the sequencing table of R148, the frame, and its independence from the RNG unit. -/

namespace Sys2Proof.Machine

/-! ### The sequencing table (R148) -/

/-- What R148 says of a command on slot `c` to which the table gives the phase `q`. -/
def PhaseEnd (q : Phase) (c : Nat) (s t : State) : Prop :=
  ∃ code info sl', Ended s t code info ∧ t.slots[c]? = some sl' ∧
    (code = 0 ∧ sl'.phase = q ∨
     (code = 4 ∨ code = 5) ∧ sl'.phase = (if q = .constructed then .unconstructed else .failed) ∨
     (code = 1 ∨ code = 2) ∧ t.slots = s.slots)

/-- What R148 says of a command on slot `c` whose entry in the table is given. -/
def MeetsEntry (i : Instr) (c : Nat) (s : State) : Except Err Phase → Prop
  | .error e => ∃ t, exec i s = .next t ∧ OnlyRefusedWith s t e.code
  | .ok q => AllNext (PhaseEnd q c s) (exec i s)

section
variable {q : Phase} {c : Nat} {s u : State} {sl sl' : Slot}

/-- E_ARG and E_SIZE leave the slots alone. -/
theorem phaseEnd_rejected {e : Err} (he : e = .arg ∨ e = .size) (hs : s.slots[c]? = some sl) (hu : u.slots = s.slots)
    (hc : u.cur = s.cur) (hl : s.cur < u.ports.length) : PhaseEnd q c s (raise u e 0) := by
  refine ⟨e.code, 0, sl, ended_finish hc hl, (congrArg (·[c]?) hu).trans hs, .inr (.inr ⟨?_, hu⟩)⟩
  rcases he with rfl | rfl
  · exact .inl rfl
  · exact .inr rfl

/-- A success leaves slot `c` in the phase of the table. -/
theorem phaseEnd_completes (hs : s.slots[c]? = some sl) (hu : u.slots = s.slots) (hc : u.cur = s.cur)
    (hl : s.cur < u.ports.length) (hp : sl'.phase = q) : PhaseEnd q c s (complete (u.setSlot c sl')) :=
  ⟨0, 0, sl', ended_finish hc hl, getElem?_set_of_some (hu.symm ▸ hs) sl', .inl ⟨rfl, hp⟩⟩

/-- A failing backend member leaves slot `c` `Failed`. -/
theorem phaseEnd_failSlot {cfg : Config} {e : Err} {info : Word} (he : e = .init ∨ e = .backend)
    (hq : q ≠ .constructed) (hs : s.slots[c]? = some sl) (hu : u.slots = s.slots) (hc : u.cur = s.cur)
    (hl : s.cur < u.ports.length) : PhaseEnd q c s (raise (failSlot cfg u c sl') e info) := by
  refine ⟨e.code, info, _, ended_finish hc hl, getElem?_set_of_some (hu.symm ▸ hs) _,
    .inr (.inl ⟨?_, (if_neg hq).symm⟩)⟩
  rcases he with rfl | rfl
  · exact .inl rfl
  · exact .inr rfl

/-- A failing AEAD_CONSTRUCT leaves slot `c` `Unconstructed`. -/
theorem phaseEnd_notConstructed {info : Word} (hs : s.slots[c]? = some sl) (hu : u.slots = s.slots)
    (hc : u.cur = s.cur) (hl : s.cur < u.ports.length) (hp : sl'.phase = .unconstructed) :
    PhaseEnd .constructed c s (raise (u.setSlot c sl') .init info) :=
  ⟨4, info, sl', ended_finish hc hl, getElem?_set_of_some (hu.symm ▸ hs) sl', .inr (.inl ⟨.inl rfl, hp⟩)⟩

end

theorem slotForConstruct_phase (sl : Slot) : (slotForConstruct sl).phase = .unconstructed := by
  unfold slotForConstruct
  split
  · assumption
  · rfl

/-- The row of AEAD_AAD, in the order of R133's checks. -/
theorem phaseTable_aeadAad (p : Phase) (m : Mode) (c : Nat) : phaseTable p m (.aeadAad c) =
    some (if p = .unconstructed then .error .seq
      else if m = .counter then .error .unsupported
      else if p = .reset ∨ p = .assocData then .ok .assocData else .error .seq) := by
  cases p <;> cases m <;> rfl

/-- The row of a transform, by the admitted phases. -/
theorem phaseTable_transform (p : Phase) (m : Mode) {i : Instr} {c : Nat}
    (hi : i = .aeadEncrypt c ∨ i = .aeadDecrypt c) :
    phaseTable p m i = some (if p.open then .ok .transforming else .error .seq) := by
  rcases hi with rfl | rfl <;> cases p <;> rfl

/-- The row of AEAD_AUTH_TAG, by the admitted phases. -/
theorem phaseTable_aeadAuthTag (p : Phase) (m : Mode) (c : Nat) :
    phaseTable p m (.aeadAuthTag c) = some (if p.open then .ok .tagExtracted else .error .seq) := by
  cases p <;> rfl

section
variable {c : Nat} {s : State} {a : Args} {sl : Slot} (ha : s.operands = some a) (hs : s.slots[c]? = some sl)
include ha hs

theorem aeadConstruct_meetsEntry (m : Mode) : MeetsEntry (.aeadConstruct c m) c s (.ok .constructed) := by
  have hcur := cur_lt_of_operands ha
  have dead := slotForConstruct_phase sl
  simp only [MeetsEntry, exec, execAeadConstruct, aeadConstruct, withCommand_of_operands ha, withSlot_of_some hs]
  split
  · exact phaseEnd_rejected (.inl rfl) hs rfl rfl hcur
  · split
    · exact phaseEnd_notConstructed hs rfl rfl hcur dead
    · refine withRange_allNext fun _ => ?_
      have hl := cur_lt_updCur hcur fun p => { p with keyStage := .new }
      unfold installKey
      dsimp only
      split
      · exact phaseEnd_notConstructed hs rfl rfl hl dead
      · split
        · exact phaseEnd_notConstructed hs rfl rfl hl dead
        · exact phaseEnd_completes hs rfl rfl hl rfl

theorem aeadReset_meetsEntry :
    MeetsEntry (.aeadReset c) c s (if sl.phase = .unconstructed then .error .seq else .ok .reset) := by
  have hcur := cur_lt_of_operands ha
  split
  · rename_i dead
    exact aeadReset_refused ha hs (if_pos dead)
  · rename_i live
    simp only [MeetsEntry, exec, execAeadReset, aeadReset, withCommand_of_operands ha, withSlot_of_some hs]
    split
    · rename_i e he
      exact phaseEnd_rejected (.inl (resetError_of_live live he)) hs rfl rfl hcur
    · refine withRange_allNext fun _ => withRange_allNext fun _ => ?_
      unfold startMessage
      dsimp only
      split
      · exact phaseEnd_failSlot (.inl rfl) nofun hs rfl rfl hcur
      · split
        · exact phaseEnd_failSlot (.inl rfl) nofun hs rfl rfl hcur
        · split
          · exact phaseEnd_failSlot (.inr rfl) nofun hs rfl rfl hcur
          · exact phaseEnd_completes hs rfl rfl hcur rfl

theorem aeadAad_meetsEntry : MeetsEntry (.aeadAad c) c s
    (if sl.phase = .unconstructed then .error .seq
      else if sl.mode = .counter then .error .unsupported
      else if sl.phase = .reset ∨ sl.phase = .assocData then .ok .assocData else .error .seq) := by
  have hcur := cur_lt_of_operands ha
  split
  · rename_i dead
    exact aeadAad_refused ha hs (if_pos dead)
  · rename_i live
    split
    · rename_i hm
      exact aeadAad_refused ha hs (by rw [aadError, if_neg live, if_pos hm])
    · rename_i hm
      split
      · rename_i hp
        have stream : sl.mode = .stream := by
          cases h : sl.mode with
          | stream => rfl
          | counter => exact absurd h hm
        simp only [MeetsEntry, exec, execAeadAad, aeadAad, withCommand_of_operands ha, withSlot_of_some hs]
        split
        · rename_i e he
          exact phaseEnd_rejected (.inl (aadError_of_admitted stream hp he)) hs rfl rfl hcur
        · refine withRange_allNext fun _ => ?_
          split
          · exact phaseEnd_failSlot (.inr rfl) nofun hs rfl rfl hcur
          · exact phaseEnd_completes hs rfl rfl hcur rfl
      · rename_i hp
        exact aeadAad_refused ha hs (by rw [aadError, if_neg live, if_neg hm, if_pos hp])

theorem transform_meetsEntry {i : Instr} (hi : i = .aeadEncrypt c ∨ i = .aeadDecrypt c) :
    MeetsEntry i c s (if sl.phase.open then .ok .transforming else .error .seq) := by
  have hcur := cur_lt_of_operands ha
  split
  · rename_i ho
    obtain ⟨member, info, hi⟩ := exists_transformMember hi
    simp only [MeetsEntry, hi.exec_eq, transform, withCommand_of_operands ha, withSlot_of_some hs]
    split
    · rename_i e he
      exact phaseEnd_rejected (.inr (transformError_of_open ho he)) hs rfl rfl hcur
    · refine withRange_allNext fun _ => withRange_allNext fun _ => ?_
      split
      · trivial
      · unfold runTransform
        split
        · exact phaseEnd_failSlot (.inr rfl) nofun hs rfl rfl hcur
        · exact phaseEnd_completes hs rfl rfl hcur rfl
  · rename_i ho
    exact transform_refused ha hs hi (if_pos (Bool.eq_false_of_not_eq_true ho))

theorem aeadAuthTag_meetsEntry :
    MeetsEntry (.aeadAuthTag c) c s (if sl.phase.open then .ok .tagExtracted else .error .seq) := by
  have hcur := cur_lt_of_operands ha
  split
  · rename_i ho
    simp only [MeetsEntry, exec, execAeadAuthTag, aeadAuthTag, withCommand_of_operands ha, withSlot_of_some hs, ho,
      Bool.true_eq_false, if_false]
    split
    · unfold rejectTag
      split
      · exact withRange_allNext fun _ => phaseEnd_rejected (.inl rfl) hs rfl rfl hcur
      · exact phaseEnd_rejected (.inl rfl) hs rfl rfl hcur
    · refine withRange_allNext fun _ => ?_
      unfold deliverTag
      split
      · exact phaseEnd_failSlot (.inr rfl) nofun hs rfl rfl hcur
      · exact phaseEnd_completes hs rfl rfl (cur_lt_updCur hcur fun p => { p with tagStage := .new }) rfl
  · rename_i ho
    exact aeadAuthTag_refused_phase ha hs (Bool.eq_false_of_not_eq_true ho)

theorem aeadDestroy_meetsEntry : MeetsEntry (.aeadDestroy c) c s (.ok .unconstructed) := by
  simp only [MeetsEntry, exec, execAeadDestroy, aeadDestroy, withCommand_of_operands ha, withSlot_of_some hs]
  exact phaseEnd_completes hs rfl rfl (cur_lt_of_operands ha) rfl

/-- Every AEAD command meets its entry in the table. -/
theorem aead_meetsEntry {i : Instr} {e : Except Err Phase} (hi : i.slot? = some c)
    (ht : phaseTable sl.phase sl.mode i = some e) : MeetsEntry i c s e := by
  cases i with
  | aeadConstruct d m =>
    obtain rfl := Option.some.inj hi
    obtain rfl := Option.some.inj ht
    exact aeadConstruct_meetsEntry ha hs m
  | aeadReset d =>
    obtain rfl := Option.some.inj hi
    obtain rfl := Option.some.inj ht
    exact aeadReset_meetsEntry ha hs
  | aeadAad d =>
    obtain rfl := Option.some.inj hi
    obtain rfl := Option.some.inj ((phaseTable_aeadAad _ _ _).symm.trans ht)
    exact aeadAad_meetsEntry ha hs
  | aeadEncrypt d =>
    obtain rfl := Option.some.inj hi
    obtain rfl := Option.some.inj ((phaseTable_transform _ _ (.inl rfl)).symm.trans ht)
    exact transform_meetsEntry ha hs (.inl rfl)
  | aeadDecrypt d =>
    obtain rfl := Option.some.inj hi
    obtain rfl := Option.some.inj ((phaseTable_transform _ _ (.inr rfl)).symm.trans ht)
    exact transform_meetsEntry ha hs (.inr rfl)
  | aeadAuthTag d =>
    obtain rfl := Option.some.inj hi
    obtain rfl := Option.some.inj ((phaseTable_aeadAuthTag _ _ _).symm.trans ht)
    exact aeadAuthTag_meetsEntry ha hs
  | aeadDestroy d =>
    obtain rfl := Option.some.inj hi
    obtain rfl := Option.some.inj ht
    exact aeadDestroy_meetsEntry ha hs
  | rngSeed | rngRandomSeed | rngRandBytes | rngRandU32 | rngRandU64 | rngLock | rngUnlock | rngCtx | rngShutdown =>
    cases hi

end

/-- Settles O31: each command meets its entry. -/
theorem aeadPhaseTable : Obligations.PhaseTable := by
  intro s c a sl i e ha hs hi ht
  have meets := aead_meetsEntry ha hs hi ht
  cases e with
  | error err => exact meets
  | ok q => exact allNext_iff.1 meets

/-! ### The frame -/

/-- Settles O32: the frame is that of the run of an AEAD command, which returns no value and changes at most its
slot. -/
theorem aeadFrame : Obligations.AeadFrame := by
  intro s t c i hi h
  obtain ⟨code, info, -, -, run⟩ := allNext_iff.1 (exec_aead hi s) t h
  have noValue : ¬ (i = .rngRandU32 ∨ i = .rngRandU64 ∨ i = .rngCtx) := by
    rintro (rfl | rfl | rfl) <;> cases hi
  have slots : OtherSlotsKept s t c := by
    rcases run.slots with e | ⟨_, _, -, e, -⟩
    · exact ⟨by rw [e], fun _ _ => by rw [e]⟩
    · exact ⟨by rw [e, List.length_set], fun d hd => by rw [e, List.getElem?_set_ne hd.symm]⟩
  exact ⟨run.otherPortsKept, run.argsKept, run.ret0Kept_or.resolve_right fun h => noValue h.1,
    run.ret1Kept_or.resolve_right fun h => noValue (.inr (.inl h.1)), run.stagesKeptOrEmpty, slots, run.rng, run.host⟩

/-! ### The RNG unit is not looked at -/

/-- The RNG unit, the mutex and the entropy ports: what no AEAD command depends on (R123). -/
structure RngSide where
  created : Bool
  gen : SecBuf
  lockOwner : Option Nat
  env : EnvPorts

/-- The block with another RNG unit, mutex and state of the entropy ports. -/
def State.withRng (s : State) (r : RngSide) : State :=
  { s with created := r.created, gen := r.gen, lockOwner := r.lockOwner, env := r.env }

/-- A result, the next state in it, if there is one, with another RNG unit. -/
def nextWithRng (r : RngSide) : Result → Result
  | .next t => .next (t.withRng r)
  | .fault f => .fault f
  | .refused e => .refused e

section
variable {r : RngSide} {s : State}

theorem withRng_load (cfg : Config) (base n : Nat) : (s.withRng r).load cfg base n = s.load cfg base n := rfl

theorem withCommand_withRng {k k' : Args → Result} (h : ∀ a, k' a = nextWithRng r (k a)) :
    withCommand (s.withRng r) k' = nextWithRng r (withCommand s k) := by
  have same : (s.withRng r).operands = s.operands := rfl
  cases ha : s.operands with
  | none => rw [withCommand_of_none ha, withCommand_of_none (same.trans ha)]; rfl
  | some a => rw [withCommand_of_operands ha, withCommand_of_operands (same.trans ha), h]

theorem withSlot_withRng {c : Nat} {k k' : Slot → Result} (h : ∀ sl, k' sl = nextWithRng r (k sl)) :
    withSlot (s.withRng r) c k' = nextWithRng r (withSlot s c k) := by
  have same : (s.withRng r).slots[c]? = s.slots[c]? := rfl
  cases hs : s.slots[c]? with
  | none => rw [withSlot_of_none hs, withSlot_of_none (same.trans hs)]; rfl
  | some sl => rw [withSlot_of_some hs, withSlot_of_some (same.trans hs), h]

theorem withRange_withRng {base n : Nat} {k k' : Result} (h : k' = nextWithRng r k) :
    withRange (s.withRng r) base n k' = nextWithRng r (withRange s base n k) := by
  have same : rangeFault (s.withRng r).regions base n = rangeFault s.regions base n := rfl
  cases hf : rangeFault s.regions base n with
  | none => rw [withRange_of_accessible hf, withRange_of_accessible (same.trans hf), h]
  | some f => rw [withRange_of_fault hf, withRange_of_fault (same.trans hf)]; rfl

theorem ite_withRng {p : Prop} [Decidable p] {k k' l l' : Result} (hk : k' = nextWithRng r k)
    (hl : l' = nextWithRng r l) : (if p then k' else l') = nextWithRng r (if p then k else l) := by
  rw [hk, hl, apply_ite (nextWithRng r)]

/-- A command that works on a slot. -/
theorem aead_withRng {c : Nat} {k k' : Args → Slot → Result} (h : ∀ a sl, k' a sl = nextWithRng r (k a sl)) :
    (withCommand (s.withRng r) fun a => withSlot (s.withRng r) c (k' a)) =
      nextWithRng r (withCommand s fun a => withSlot s c (k a)) :=
  withCommand_withRng fun a => withSlot_withRng fun sl => h a sl

end

section
variable (cfg : Config) (c : Nat) (r : RngSide) (s : State)

theorem installKey_withRng (mode : Mode) (tagLen : Word) (key : Bytes) (sl : Slot) :
    installKey cfg c mode tagLen key sl (s.withRng r) = nextWithRng r (installKey cfg c mode tagLen key sl s) := by
  unfold installKey
  dsimp only
  cases initBytes (backendOf cfg mode) key (byteCount (backendOf cfg mode).stateSize) with
  | none => rfl
  | some bs =>
    dsimp only
    cases setTagLenIfCounter cfg mode tagLen bs with
    | none => rfl
    | some bs' => rfl

theorem aeadConstruct_withRng (mode : Mode) :
    aeadConstruct cfg c mode (s.withRng r) = nextWithRng r (aeadConstruct cfg c mode s) :=
  aead_withRng fun a _ => ite_withRng rfl <| ite_withRng rfl <| withRange_withRng <|
    installKey_withRng cfg c r (throughKeyStage cfg s (s.load cfg (u32 a.a0) (byteCount a.a1))).2 mode a.a2 _ _

theorem startMessage_withRng (a : Args) (nonce aad : Bytes) (sl : Slot) :
    startMessage cfg c a nonce aad sl (s.withRng r) = nextWithRng r (startMessage cfg c a nonce aad sl s) := by
  unfold startMessage
  dsimp only
  cases resetIvBytes (backendOf cfg sl.mode) nonce sl.bstate.content with
  | none => rfl
  | some bs1 =>
    dsimp only
    cases setMsgLenIfCounter cfg sl.mode bs1 with
    | none => rfl
    | some bs2 =>
      dsimp only
      cases processAadIfAny (backendOf cfg sl.mode) a.a3 aad bs2 with
      | none => rfl
      | some bs3 => rfl

theorem aeadReset_withRng : aeadReset cfg c (s.withRng r) = nextWithRng r (aeadReset cfg c s) :=
  aead_withRng fun a sl => by
    cases resetError sl a with
    | some e => rfl
    | none => exact withRange_withRng (withRange_withRng (startMessage_withRng cfg c r s a _ _ sl))

theorem aeadAad_withRng : aeadAad cfg c (s.withRng r) = nextWithRng r (aeadAad cfg c s) :=
  aead_withRng fun a sl => by
    cases aadError sl a with
    | some e => rfl
    | none =>
      refine withRange_withRng ?_
      rw [withRng_load]
      cases processAadBytes (backendOf cfg sl.mode) (s.load cfg (u32 a.a0) (byteCount a.a1)) sl.bstate.content with
      | none => rfl
      | some bs => rfl

theorem runTransform_withRng (member : Bytes → Bytes → Option (Bytes × Bytes)) (info : Word) (a : Args) (sl : Slot) :
    runTransform cfg member info c a sl (s.withRng r) = nextWithRng r (runTransform cfg member info c a sl s) := by
  unfold runTransform
  rw [withRng_load]
  cases member (s.load cfg (u32 a.a0) (byteCount a.a1)) sl.bstate.content with
  | none => rfl
  | some out => rfl

theorem transform_withRng (member : Backend → Bytes → Bytes → Option (Bytes × Bytes)) (info : Word) :
    transform cfg member info c (s.withRng r) = nextWithRng r (transform cfg member info c s) :=
  aead_withRng fun a sl => by
    cases transformError sl a with
    | some e => rfl
    | none => exact withRange_withRng (withRange_withRng (ite_withRng rfl (runTransform_withRng cfg c r s _ info a sl)))

theorem rejectTag_withRng (a : Args) : rejectTag cfg a (s.withRng r) = nextWithRng r (rejectTag cfg a s) :=
  ite_withRng (withRange_withRng rfl) rfl

theorem deliverTag_withRng (a : Args) (sl : Slot) :
    deliverTag cfg c a sl (s.withRng r) = nextWithRng r (deliverTag cfg c a sl s) := by
  unfold deliverTag
  cases getTagBytes (backendOf cfg sl.mode) (byteCount a.a1) sl.bstate.content with
  | none => rfl
  | some tag => rfl

theorem aeadAuthTag_withRng : aeadAuthTag cfg c (s.withRng r) = nextWithRng r (aeadAuthTag cfg c s) :=
  aead_withRng fun a sl => ite_withRng rfl (ite_withRng (rejectTag_withRng cfg r s a)
    (withRange_withRng (deliverTag_withRng cfg c r (s.store cfg (u32 a.a0) (zeros (byteCount a.a1))) a sl)))

theorem aeadDestroy_withRng : aeadDestroy c (s.withRng r) = nextWithRng r (aeadDestroy c s) :=
  aead_withRng fun _ _ => rfl

/-- With another RNG unit an AEAD command does what it does with the given one, and leaves the other unit alone. -/
theorem exec_withRng {i : Instr} (hi : i.slot? = some c) : exec i (s.withRng r) = nextWithRng r (exec i s) := by
  cases i with
  | aeadConstruct d m => exact aeadConstruct_withRng _ d r s m
  | aeadReset d => exact aeadReset_withRng _ d r s
  | aeadAad d => exact aeadAad_withRng _ d r s
  | aeadEncrypt d => exact transform_withRng _ d r s encryptBytes 7
  | aeadDecrypt d => exact transform_withRng _ d r s decryptBytes 8
  | aeadAuthTag d => exact aeadAuthTag_withRng _ d r s
  | aeadDestroy d => exact aeadDestroy_withRng d r s
  | rngSeed | rngRandomSeed | rngRandBytes | rngRandU32 | rngRandU64 | rngLock | rngUnlock | rngCtx | rngShutdown =>
    cases hi

end

/-- Settles O33: each of the three outcomes is carried over by `exec_withRng`. -/
theorem aeadIgnoresRngUnit : Obligations.AeadIgnoresRngUnit := by
  intro s c i created gen owner env hi
  have carried := exec_withRng c ⟨created, gen, owner, env⟩ s hi
  exact ⟨fun t h => by rwa [h] at carried, fun f h => by rwa [h] at carried, fun e h => by rwa [h] at carried⟩

end Sys2Proof.Machine
end

section
/-! The command frame of R164, which a command goes through in one of four ways: rejected by its argument check, held by
an owned mutex, ended by a failed creation, or run on an engine that exists. -/

namespace Sys2Proof.Machine

/-! ### Rejected or held, before anything happens -/

/-- A length that is not positive is E_ARG before the frame is entered (R164 (2)). -/
theorem framedRange_rejected {s : State} {a : Args} (ha : s.operands = some a) (h1 : s32 a.a1 ≤ 0)
    (k : Args → State → Result) :
    (withCommand s fun a => if s32 a.a1 ≤ 0 then .next (raise s .arg 0) else withMutex s (k a)) =
      .next (raise s .arg 0) := by
  rw [withCommand_of_operands ha, if_pos h1]

/-- While the mutex is owned a framed command is held (R163). -/
theorem framed_held {s : State} {a : Args} {r : Nat} (ha : s.operands = some a) (ho : s.lockOwner = some r)
    (k : State → Result) : (withCommand s fun _ => withMutex s k) = .next s := by
  rw [withCommand_of_operands ha, withMutex_of_taken ho]

/-- While the mutex is owned a framed command with a range is held, its length check passed (R163, R164 (2)). -/
theorem framedRange_held {s : State} {a : Args} {r : Nat} (ha : s.operands = some a) (ho : s.lockOwner = some r)
    (h1 : 0 < s32 a.a1) (k : Args → State → Result) :
    (withCommand s fun a => if s32 a.a1 ≤ 0 then .next (raise s .arg 0) else withMutex s (k a)) = .next s := by
  rw [withCommand_of_operands ha, if_neg (Int.not_le.2 h1), withMutex_of_taken ho]

/-- On an engine that does not exist RNG_CTX is held while the mutex is owned (R180). -/
theorem rngCtx_held {cfg : Config} {s : State} {a : Args} {r : Nat} (ha : s.operands = some a)
    (ho : s.lockOwner = some r) (hc : s.created = false) : rngCtx cfg s = .next s := by
  simp [rngCtx, withCommand_of_operands ha, hc, withMutex_of_taken ho]

/-- Settles O37: both commands check their length before the frame. -/
theorem rngArgumentErrorsComeFirst : Obligations.RngArgumentErrorsComeFirst := by
  intro s i a hi ha h1
  have rejects : exec i s = .next (raise s .arg 0) := by
    rcases hi with rfl | rfl
    · exact (framedRange_rejected ha h1 _ : rngSeed Config.hw s = _)
    · exact (framedRange_rejected ha h1 _ : rngRandBytes Config.hw s = _)
  exact refused_of_raise ha rejects

/-- Settles O36: each framed command comes to the mutex before it does anything. -/
theorem heldWhileMutexTaken : Obligations.HeldWhileMutexTaken := by
  intro s i a r ha hi ho
  cases i with
  | rngSeed => exact (framedRange_held ha ho hi _ : rngSeed Config.hw s = _)
  | rngRandBytes => exact (framedRange_held ha ho hi _ : rngRandBytes Config.hw s = _)
  | rngRandomSeed | rngRandU32 | rngRandU64 | rngLock | rngShutdown => exact framed_held ha ho _
  | rngCtx => exact rngCtx_held ha ho hi
  | rngUnlock | aeadConstruct | aeadReset | aeadAad | aeadEncrypt | aeadDecrypt | aeadAuthTag | aeadDestroy =>
    exact absurd hi id

/-! ### The body's start -/

/-- The body of a framed command that was issued in `s` is at `u`: the mutex is the issuing port's, data memory is as it
was, and the engine exists with the state `g`, the entropy ports standing at `env`. -/
structure OnEngine (s u : State) (g : Bytes) (env : EnvPorts) : Prop where
  created : u.created = true
  content : u.gen.content = g
  len : u.gen.len = s.genLength g
  env : u.env = env
  owner : u.lockOwner = some s.cur
  mem : u.mem = s.mem
  cur : u.cur = s.cur
  cur_lt : s.cur < u.ports.length

/-- What a framed command answers, the mutex free at its issue in `s`, where `body` is what it does on the engine: it
ends with its creation's failure, or the body has run. -/
inductive FrameRun (cfg : Config) (s : State) (body : State → State) (answer : Result) : Prop
  /-- The creation failed (R165). -/
  | failed (info : Word) (env : EnvPorts) (t : State) (hc : creationOf cfg s = .error (info, env))
      (ht : answer = .next t) (fail : CreationFailed s t info env) (mem : t.mem = s.mem)
  /-- The body ran. -/
  | ran (g : Bytes) (env : EnvPorts) (u : State) (hc : creationOf cfg s = .ok (g, env))
      (ht : answer = .next (body u)) (on : OnEngine s u g env)

/-- Lazy creation goes one of the two ways of `FrameRun`, for any continuation `k` that, on an engine that exists in a
block with the same provision of memory, answers the body's next state. -/
theorem withEngine_run {cfg : Config} {s : State} {body : State → State} {k : State → Result}
    (hcur : s.cur < s.ports.length) (hk : ∀ u, u.regions = s.regions → k u = .next (body u)) :
    FrameRun cfg s body (withEngine cfg s.takeMutex k) := by
  have spec := ensureCreated_spec cfg s.takeMutex
  cases hc : creationOf cfg s with
  | error r =>
    obtain ⟨info, env⟩ := r
    rw [show creationOf cfg s.takeMutex = creationOf cfg s from rfl, hc] at spec
    obtain ⟨u, he, -, absent, hg, rfl, kept⟩ := spec
    exact .failed _ _ _ hc (by simp [withEngine, he]) (creationFailed_spec (s := s.takeMutex) hcur absent hg kept)
      kept.mem
  | ok r =>
    rw [show creationOf cfg s.takeMutex = creationOf cfg s from rfl, hc] at spec
    obtain ⟨u, he, exist, content, len, env, kept⟩ := spec
    have hl : s.cur < u.ports.length := by rw [kept.ports_length]; exact hcur
    exact .ran _ _ u hc (by simp [withEngine, he, hk u kept.regions])
      ⟨exist, content, len, env, kept.lockOwner, kept.mem, kept.cur, hl⟩

/-- `onEngine` is `withEngine` for a body that cannot stop. -/
theorem next_onEngine (cfg : Config) (s : State) (k : State → State) :
    .next (onEngine cfg s k) = withEngine cfg s fun u => .next (k u) := by
  unfold onEngine withEngine
  cases ensureCreated cfg s with
  | error r => rfl
  | ok u => rfl

/-- A framed command without a range, the mutex free. -/
theorem framed_run {cfg : Config} {s : State} {a : Args} (ha : s.operands = some a) (hf : s.lockOwner = none)
    (k : State → State) :
    FrameRun cfg s k (withCommand s fun _ => withMutex s fun s => .next (onEngine cfg s k)) := by
  rw [withCommand_of_operands ha, withMutex_of_free hf, next_onEngine]
  exact withEngine_run (cur_lt_of_operands ha) fun _ _ => rfl

/-- A framed command with a range that can be accessed, its length positive and the mutex free. -/
theorem framedRange_run {cfg : Config} {s : State} {a : Args} (ha : s.operands = some a) (h1 : 0 < s32 a.a1)
    (hf : s.lockOwner = none) (acc : Accessible s (u32 a.a0) (byteCount a.a1)) (k : Args → State → State) :
    FrameRun cfg s (k a) (withCommand s fun a => if s32 a.a1 ≤ 0 then .next (raise s .arg 0)
      else withMutex s fun s => withEngine cfg s fun s =>
        withRange s (u32 a.a0) (byteCount a.a1) (.next (k a s))) := by
  rw [framedRange_eq ha h1 hf fun a u => .next (k a u)]
  refine withEngine_run (cur_lt_of_operands ha) fun u hu => withRange_of_accessible ?_ _
  rw [Accessible, hu]
  exact acc

/-! ### The body's end -/

namespace OnEngine
variable {cfg : Config} {s u : State} {g : Bytes} {env : EnvPorts}

/-- A change of the current port leaves the engine as it is. -/
theorem updCur (h : OnEngine s u g env) (f : Port → Port) : OnEngine s (u.updCur f) g env :=
  { h with cur_lt := by simpa using h.cur_lt }

/-- A generator member fails: `GEN` keeps its length (R189). -/
theorem genFailed (h : OnEngine s u g env) (info : Word) :
    RanOnEngine (Machine.genFailed cfg u info) env ∧ Ended s (Machine.genFailed cfg u info) 5 info ∧
      (Machine.genFailed cfg u info).gen.len = s.genLength g :=
  ⟨⟨h.created, rfl, h.env⟩, ended_finish h.cur h.cur_lt, h.len⟩

/-- The seeding call succeeds (R166 lines 7 and 8). -/
theorem seedWith_of_some {seed g' : Bytes} (h : OnEngine s u g env) (hg : cfg.gen.seed seed g = some g') :
    RanOnEngine (seedWith cfg seed u) env ∧ Ended s (seedWith cfg seed u) 0 0 ∧
      (seedWith cfg seed u).gen.content = g' := by
  rw [seedWith, h.content, hg]
  exact ⟨⟨h.created, rfl, h.env⟩, ended_finish h.cur h.cur_lt, SecBuf.content_assign _ _ _⟩

/-- The seeding call fails (R166 lines 5 and 6). -/
theorem seedWith_of_none {seed : Bytes} (h : OnEngine s u g env) (hg : cfg.gen.seed seed g = none) :
    RanOnEngine (seedWith cfg seed u) env ∧ Ended s (seedWith cfg seed u) 5 17 ∧
      (seedWith cfg seed u).gen.len = s.genLength g := by
  rw [seedWith, h.content, hg]
  exact h.genFailed 17

/-- The bytes read for RNG_SEED pass through the staging buffer, which touches no part of the engine (R167). -/
theorem seedStage (h : OnEngine s u g env) (v : Bytes) : OnEngine s (throughSeedStage cfg u v).2 g env :=
  h.updCur _

/-- A draw for RNG_RANDOM_SEED moves the entropy ports and nothing else of the engine (R168, R213). -/
theorem drawSeed (h : OnEngine s u g env) : OnEngine s (drawSeed cfg u).2 g (chainDraw cfg env).2 := by
  have drawn : OnEngine s { u with env := (chainDraw cfg u.env).2 } g (chainDraw cfg env).2 :=
    { h with env := by rw [h.env] }
  exact drawn.seedStage _

end OnEngine

/-! ### RNG_SEED, RNG_RANDOM_SEED, RNG_RAND_BYTES, RNG_LOCK, RNG_UNLOCK, RNG_SHUTDOWN -/

/-- Settles O38: the body stages the bytes it reads, which are those at the issue, and makes the seeding call. -/
theorem seedMixesBytes : Obligations.SeedMixesBytes := by
  intro s a ha h1 hf acc
  cases (framedRange_run ha h1 hf acc _ : FrameRun Config.hw s _ (rngSeed Config.hw s)) with
  | failed info env t hc ht fail mem =>
    rw [hc]
    exact ⟨t, ht, fail⟩
  | ran g env u hc ht on =>
    rw [hc]
    refine ⟨_, ht, ?_⟩
    dsimp only
    rw [throughSeedStage_fst, ← bytesAt_eq_load, bytesAt_congr on.mem]
    have staged := on.seedStage (cfg := Config.hw) (u.load Config.hw (u32 a.a0) (byteCount a.a1))
    cases hg : Config.hw.gen.seed (bytesAt s (u32 a.a0) (byteCount a.a1)) g with
    | none => exact staged.seedWith_of_none hg
    | some g' => exact staged.seedWith_of_some hg

/-- Settles O39: the body makes one draw, from the entropy ports as the creation left them, and the seeding call. -/
theorem randomSeedDraws : Obligations.RandomSeedDraws := by
  intro s a ha hf
  cases (framed_run ha hf _ : FrameRun Config.hw s _ (rngRandomSeed Config.hw s)) with
  | failed info env t hc ht fail mem =>
    rw [hc]
    exact ⟨t, ht, fail⟩
  | ran g env u hc ht on =>
    rw [hc]
    refine ⟨_, ht, ?_⟩
    have seed : (drawSeed Config.hw u).1 = (chainDraw Config.hw env).1 := by rw [drawSeed_eq, on.env]
    dsimp only
    rw [seed]
    cases hg : Config.hw.gen.seed (chainDraw Config.hw env).1 g with
    | none => exact on.drawSeed.seedWith_of_none hg
    | some g' => exact on.drawSeed.seedWith_of_some hg

/-- Settles O40: the filled buffer and `GEN` are those of `fillRandom_spec`; outside it memory is as O34 says. -/
theorem randBytesFills : Obligations.RandBytesFills := by
  intro s a ha h1 hf acc
  have outside (t : State) (ht : exec .rngRandBytes s = .next t) :
      MemoryKeptOutside s t (u32 a.a0) (byteCount a.a1) :=
    (commandMemoryFrame s t .rngRandBytes a ha ht).2.2.1 rfl
  cases (framedRange_run ha h1 hf acc _ : FrameRun Config.hw s _ (rngRandBytes Config.hw s)) with
  | failed info env t hc ht fail mem =>
    rw [hc]
    exact ⟨t, ht, outside t ht, fail, memoryKept_of_mem mem⟩
  | ran g env u hc ht on =>
    rw [hc]
    refine ⟨_, ht, outside _ ht, ?_⟩
    have fill := fillRandom_spec Config.hw (u32 a.a0) (byteCount a.a1) u
    rw [on.content] at fill
    dsimp only
    cases hr : randomFill Config.hw.gen (byteCount a.a1) g with
    | none =>
      rw [hr] at fill
      obtain ⟨m, gen, draws, e, len, -⟩ := fill
      rw [e]
      refine ⟨⟨on.created, rfl, on.env⟩, ended_finish on.cur on.cur_lt, ?_⟩
      rw [on.len] at len
      exact len
    | some r =>
      rw [hr] at fill
      obtain ⟨len, gen, content, e⟩ := fill
      rw [e]
      exact ⟨⟨on.created, rfl, on.env⟩, ended_finish on.cur on.cur_lt, bytesAt_stored rfl len, content⟩

/-- Settles O43: the body is the command's end alone. -/
theorem lockKeepsMutex : Obligations.LockKeepsMutex := by
  intro s a ha hf
  cases framed_run ha hf complete with
  | failed info env t hc ht fail mem =>
    rw [hc]
    exact ⟨t, ht, fail⟩
  | ran g env u hc ht on =>
    rw [hc]
    exact ⟨_, ht, ended_finish on.cur on.cur_lt, on.owner, on.created, on.content, on.env⟩

/-- Settles O44: the command tests the owner first and enters no frame. -/
theorem unlockFreesMutex : Obligations.UnlockFreesMutex := by
  intro s a ha
  refine ⟨fun ho => ?_, fun ho => ?_⟩
  · have runs : exec .rngUnlock s = .next (complete s.release) := by
      simp only [exec, execRngUnlock, rngUnlock, withCommand_of_operands ha, if_pos ho]
    exact ⟨_, runs, ended_finish rfl (cur_lt_of_operands ha), rfl, rfl, rfl, rfl⟩
  · have rejects : exec .rngUnlock s = .next (raise s .seq 0) := by
      simp only [exec, execRngUnlock, rngUnlock, withCommand_of_operands ha, if_neg ho]
    exact refused_of_raise ha rejects

/-- RNG_SHUTDOWN, the mutex free (R184). -/
theorem rngShutdown_of_free {s : State} {a : Args} (ha : s.operands = some a) (hf : s.lockOwner = none) :
    rngShutdown s = .next (complete (if s.created then s.takeMutex.dropEngine else s.takeMutex).release) := by
  rw [rngShutdown, withCommand_of_operands ha, withMutex_of_free hf, takeMutex_created]

/-- Settles O46: the mutex, then the engine dropped where it exists. -/
theorem shutdownDestroysEngine : Obligations.ShutdownDestroysEngine := by
  intro s a ha
  refine ⟨fun r ho => framed_held ha ho _, fun hf => ⟨_, rngShutdown_of_free ha hf, ?_⟩⟩
  have hcur := cur_lt_of_operands ha
  cases hc : s.created with
  | true => exact ⟨ended_finish rfl hcur, rfl, rfl, rfl, rfl⟩
  | false => exact ⟨ended_finish rfl hcur, hc, rfl, rfl, rfl⟩

end Sys2Proof.Machine
end

section
/-! The RNG commands that return a value (R26), and the environment's use of the generator handle. -/

namespace Sys2Proof.Machine

/-! ### The return registers -/

/-- A change of the current port leaves alone what it does not write of any port. -/
theorem updCur_map {α : Type} (s : State) {f : Port → Port} {g : Port → α} (h : ∀ p, g (f p) = g p) (n : Nat) :
    ((s.updCur f).ports[n]?).map g = (s.ports[n]?).map g := by
  rw [updCur_ports, List.getElem?_modify]
  cases s.ports[n]? with
  | none => rfl
  | some p => by_cases hn : s.cur = n <;> simp [hn, h]

section
variable (s : State) (n : Nat)

theorem finish_ret0 (code : BitVec 8) (info : Word) :
    ((finish s code info).ports[n]?).map Port.ret0 = (s.ports[n]?).map Port.ret0 :=
  updCur_map s (by intro; rfl) n

theorem finish_ret1 (code : BitVec 8) (info : Word) :
    ((finish s code info).ports[n]?).map Port.ret1 = (s.ports[n]?).map Port.ret1 :=
  updCur_map s (by intro; rfl) n

theorem setRet1_ret0 (v : Word) : ((s.setRet1 v).ports[n]?).map Port.ret0 = (s.ports[n]?).map Port.ret0 :=
  updCur_map s (by intro; rfl) n

variable {s n} (hc : s.cur = n) (hn : n < s.ports.length) (v : Word)
include hc hn

theorem setRet0_ret0 : ((s.setRet0 v).ports[n]?).map Port.ret0 = some v := by
  simp [setRet0_eq_updCur, hc, hn]

theorem setRet1_ret1 : ((s.setRet1 v).ports[n]?).map Port.ret1 = some v := by
  simp [setRet1_eq_updCur, hc, hn]

end

/-- A command that fails leaves both return registers unchanged: O48 allows a change only to a success. -/
theorem retsKept_of_failed {s t : State} {i : Instr} {info : Word} (h : exec i s = .next t) (he : Ended s t 5 info) :
    Ret0Kept s t ∧ Ret1Kept s t := by
  have notOk : ¬ Ended s t 0 0 := fun ok => absurd (ended_unique he ok).1 (by decide)
  obtain ⟨r0, r1⟩ := retWriters s t i h
  exact ⟨r0.resolve_right fun k => notOk k.2, r1.resolve_right fun k => notOk k.2⟩

/-- Only RNG_RAND_U64 writes `RET[1]` (R26). -/
theorem ret1Kept_of_exec {s t : State} {i : Instr} (h : exec i s = .next t) (hi : i ≠ .rngRandU64) : Ret1Kept s t :=
  (retWriters s t i h).2.resolve_right fun k => hi k.1

/-! ### RNG_RAND_U32 and RNG_RAND_U64 -/

namespace OnEngine
variable {cfg : Config} {s u : State} {g g' : Bytes} {env : EnvPorts} {ws : List Word}

theorem returnWord_of_none (h : OnEngine s u g env) (hw : genWords cfg.gen 1 g = none) :
    returnWord cfg u = Machine.genFailed cfg u 19 := by
  rw [returnWord, h.content, hw]

theorem returnWord_of_some (h : OnEngine s u g env) (hw : genWords cfg.gen 1 g = some (ws, g')) :
    returnWord cfg u = complete ((u.setGen cfg g').setRet0 (ws.getD 0 0)).release := by
  rw [returnWord, h.content, hw]

theorem returnTwoWords_of_none (h : OnEngine s u g env) (hw : genWords cfg.gen 2 g = none) :
    returnTwoWords cfg u = Machine.genFailed cfg u 19 := by
  rw [returnTwoWords, h.content, hw]

theorem returnTwoWords_of_some (h : OnEngine s u g env) (hw : genWords cfg.gen 2 g = some (ws, g')) :
    returnTwoWords cfg u = complete (((u.setGen cfg g').setRet0 (ws.getD 0 0)).setRet1 (ws.getD 1 0)).release := by
  rw [returnTwoWords, h.content, hw]

end OnEngine

/-- Settles O41: a word, returned, or `GEN` scrambled; that `RET[0]` stays on a failure, and `RET[1]` always, is O48. -/
theorem randU32ReturnsAWord : Obligations.RandU32ReturnsAWord := by
  intro s a ha hf
  have ret1 (t : State) (ht : exec .rngRandU32 s = .next t) : Ret1Kept s t := ret1Kept_of_exec ht nofun
  cases framed_run ha hf (returnWord Config.hw) with
  | failed info env t hc ht fail mem =>
    rw [hc]
    exact ⟨t, ht, ret1 t ht, fail, (retsKept_of_failed (i := .rngRandU32) ht fail.1).1⟩
  | ran g env u hc ht on =>
    rw [hc]
    refine ⟨_, ht, ret1 _ ht, ?_⟩
    dsimp only
    cases hw : genWords Config.hw.gen 1 g with
    | none =>
      rw [on.returnWord_of_none hw] at ht ⊢
      obtain ⟨ran, ended, len⟩ := on.genFailed (cfg := Config.hw) 19
      exact ⟨ran, ended, (retsKept_of_failed (i := .rngRandU32) ht ended).1, len⟩
    | some r =>
      obtain ⟨ws, g'⟩ := r
      have first : ws[0]? = some (ws.getD 0 0) := by simp [genWords_length hw]
      rw [on.returnWord_of_some hw]
      refine ⟨⟨on.created, rfl, on.env⟩, ?_, ?_, SecBuf.content_assign _ _ _⟩
      · exact ended_finish on.cur (by simpa [setRet0_eq_updCur] using on.cur_lt)
      · rw [complete_eq_finish, finish_ret0, release_ports, first]
        exact setRet0_ret0 on.cur on.cur_lt _

/-- Settles O42: the two words of one call, returned, or `GEN` scrambled; that both registers stay on a failure is
O48. -/
theorem randU64ReturnsTwoWords : Obligations.RandU64ReturnsTwoWords := by
  intro s a ha hf
  cases framed_run ha hf (returnTwoWords Config.hw) with
  | failed info env t hc ht fail mem =>
    rw [hc]
    exact ⟨t, ht, fail, retsKept_of_failed (i := .rngRandU64) ht fail.1⟩
  | ran g env u hc ht on =>
    rw [hc]
    refine ⟨_, ht, ?_⟩
    dsimp only
    cases hw : genWords Config.hw.gen 2 g with
    | none =>
      rw [on.returnTwoWords_of_none hw] at ht ⊢
      obtain ⟨ran, ended, len⟩ := on.genFailed (cfg := Config.hw) 19
      obtain ⟨r0, r1⟩ := retsKept_of_failed (i := .rngRandU64) ht ended
      exact ⟨ran, ended, r0, r1, len⟩
    | some r =>
      obtain ⟨ws, g'⟩ := r
      have first : ws[0]? = some (ws.getD 0 0) := by simp [genWords_length hw]
      have second : ws[1]? = some (ws.getD 1 0) := by simp [genWords_length hw]
      have hcur0 : s.cur < ((u.setGen Config.hw g').setRet0 (ws.getD 0 0)).ports.length := by
        simpa [setRet0_eq_updCur] using on.cur_lt
      rw [on.returnTwoWords_of_some hw]
      refine ⟨⟨on.created, rfl, on.env⟩, ?_, ?_, ?_, SecBuf.content_assign _ _ _⟩
      · exact ended_finish on.cur (by simpa [setRet1_eq_updCur] using hcur0)
      · rw [complete_eq_finish, finish_ret0, release_ports, setRet1_ret0, first]
        exact setRet0_ret0 on.cur on.cur_lt _
      · rw [complete_eq_finish, finish_ret1, release_ports, second]
        exact setRet1_ret1 (s := (u.setGen Config.hw g').setRet0 (ws.getD 0 0)) on.cur hcur0 _

/-! ### RNG_CTX -/

/-- The handle of a generator with a context is a value other than the 0 of a contextless one (R7, R181). -/
theorem genHandle_ne_zero (cfg : Config) : cfg.genHandle ≠ 0 := by
  have bound := cfg.genHandleLess1.isLt
  have value : cfg.genHandle.toNat = cfg.genHandleLess1.val + 1 := by
    rw [Config.genHandle, BitVec.toNat_ofNat, Nat.mod_eq_of_lt (by omega)]
  intro zero
  simp [zero] at value

section
variable {s : State} {a : Args} (ha : s.operands = some a)
include ha

/-- On an engine that exists RNG_CTX comes to no mutex (R180 line 1). -/
theorem exec_rngCtx_of_created (hc : s.created = true) :
    exec .rngCtx s = .next (complete (s.setRet0 (ctxValue Config.hw))) := by
  simp only [exec, execRngCtx, rngCtx, withCommand_of_operands ha, if_pos hc]

/-- Elsewhere, the mutex free, it is a framed command (R180 lines 2 to 6). -/
theorem exec_rngCtx_run (hc : s.created = false) (hf : s.lockOwner = none) :
    FrameRun Config.hw s (fun u => complete (u.release.setRet0 (ctxValue Config.hw))) (exec .rngCtx s) := by
  simp only [exec, execRngCtx, rngCtx, withCommand_of_operands ha, hc, Bool.false_eq_true, if_false,
    withMutex_of_free hf, next_onEngine]
  exact withEngine_run (cur_lt_of_operands ha) fun _ _ => rfl

end

/-- The end of a command that has returned a value in `RET[0]`, at its port. -/
theorem complete_setRet0_ends {s u : State} (hc : u.cur = s.cur) (hl : s.cur < u.ports.length) (v : Word) :
    Ended s (complete (u.setRet0 v)) 0 0 ∧ ((complete (u.setRet0 v)).ports[s.cur]?).map Port.ret0 = some v ∧
      StagesKept u (complete (u.setRet0 v)) := by
  refine ⟨ended_finish hc (by simpa [setRet0_eq_updCur] using hl),
    (finish_ret0 _ _ _ _).trans (setRet0_ret0 hc hl v), ?_⟩
  exact (updCur_map (u.setRet0 v) (by intro; rfl) _).trans (updCur_map u (by intro; rfl) _)

/-- Settles O45: without a mutex on an engine that exists, as a framed command elsewhere. -/
theorem ctxReturnsHandle : Obligations.CtxReturnsHandle := by
  intro s a ha
  have hcur := cur_lt_of_operands ha
  refine ⟨genHandle_ne_zero _, fun hc => ?_, fun hc r ho => rngCtx_held ha ho hc, fun hc hf => ?_⟩
  · have runs := exec_rngCtx_of_created ha hc
    obtain ⟨others, args, -, slots, host, -⟩ := rngFrame s _ .rngCtx rfl runs
    obtain ⟨ended, ret0, stages⟩ := complete_setRet0_ends (s := s) rfl hcur (ctxValue Config.hw)
    have rng : RngKept s (complete (s.setRet0 (ctxValue Config.hw))) := ⟨rfl, rfl, rfl, rfl, rfl⟩
    exact ⟨_, runs, ended, ret0, ret1Kept_of_exec runs nofun, rng, others, args, stages, slots, memoryKept_of_mem rfl,
      host, rfl⟩
  · cases exec_rngCtx_run ha hc hf with
    | failed info env t hc ht fail mem =>
      obtain ⟨ret0, ret1⟩ := retsKept_of_failed ht fail.1
      rw [hc]
      exact ⟨t, ht, ret1, fail, ret0⟩
    | ran g env u hc ht on =>
      obtain ⟨ended, ret0, -⟩ := complete_setRet0_ends (u := u.release) on.cur on.cur_lt (ctxValue Config.hw)
      rw [hc]
      exact ⟨_, ht, ret1Kept_of_exec ht nofun, ⟨on.created, rfl, on.env⟩, ended, on.content, ret0⟩

/-! ### The generator handle -/

/-- Settles O57: the step is the use of the handle, whose condition is the statement's. -/
theorem handleUseIsTheOwners : Obligations.HandleUseIsTheOwners := by
  intro s r n epoch rest hclash ha
  rw [step_of_agenda hclash ha]
  simp only [makeMove, handleUse]
  refine ⟨fun ho hc hn he => ?_, fun bad => ?_⟩
  · split
    · rename_i hx
      exact if_neg fun ⟨_, _, context, _⟩ => absurd (hx.symm.trans context) (by decide)
    · rename_i hx
      rw [if_pos ⟨ho, hc, eq_false_of_ne_true hx, hn, he⟩]
      cases genWords Config.hw.gen n s.gen.content with
      | none => exact ⟨_, rfl, rfl, rfl, rfl, ho, hc, rfl, rfl, rfl⟩
      | some w => exact ⟨_, rfl, rfl, rfl, rfl, ho, hc, rfl, SecBuf.content_assign _ _ _, rfl⟩
  · refine if_neg ?_
    rintro ⟨ho, hc, -, hn, he⟩
    rcases bad with h | h | h | h
    · exact h ho
    · exact absurd (h.symm.trans hc) (by decide)
    · omega
    · exact h he

end Sys2Proof.Machine
end

section
/-! The Entropy Source Chain: what one draw asks and gives, and that no step takes the clock back. -/

namespace Sys2Proof.Machine

/-! ### The sources of a draw (R202, R206 lines 1 to 9) -/

section
variable {cfg : Config} {e : EnvPorts}

theorem sourceDraw_of_trng {b : Vector Byte 64} (ht : cfg.trng e.trngReqs = some b) :
    sourceDraw cfg e = (b.toList, { e with trngReqs := e.trngReqs + 1 }) := by
  simp [sourceDraw, ht]

theorem sourceDraw_of_hprng {b : Vector Byte 64} (ht : cfg.trng e.trngReqs = none)
    (hh : cfg.hprng e.hprngReqs = some b) :
    sourceDraw cfg e = (b.toList, { e with trngReqs := e.trngReqs + 1, hprngReqs := e.hprngReqs + 1 }) := by
  simp [sourceDraw, ht, hh]

theorem sourceDraw_of_kdev (ht : cfg.trng e.trngReqs = none) (hh : cfg.hprng e.hprngReqs = none) :
    sourceDraw cfg e =
      ((kdevRead (cfg.kdev e.kdevReqs)).1.getD cfg.fallbackConst.toList,
        { e with trngReqs := e.trngReqs + 1, hprngReqs := e.hprngReqs + 1,
                 kdevReqs := e.kdevReqs + (kdevRead (cfg.kdev e.kdevReqs)).2 }) := by
  simp [sourceDraw, ht, hh]

end

/-- The repeated read makes its first request whatever the device answers (R206 line 7). -/
theorem kdevRead_requests_pos (r : KdevReply) : 0 < (kdevRead r).2 := by
  cases r with
  | ok b => exact Nat.one_pos
  | fail => exact Nat.one_pos
  | retry later => exact Nat.succ_pos _

theorem sourceDraw_fst (cfg : Config) (e : EnvPorts) : (sourceDraw cfg e).1 = firstAnswer cfg e := by
  cases ht : cfg.trng e.trngReqs with
  | some b => simp [sourceDraw_of_trng ht, firstAnswer, ht]
  | none =>
    cases hh : cfg.hprng e.hprngReqs with
    | some b => simp [sourceDraw_of_hprng ht hh, firstAnswer, ht, hh]
    | none =>
      rw [sourceDraw_of_kdev ht hh]
      cases hk : (kdevRead (cfg.kdev e.kdevReqs)).1 with
      | some b => simp [firstAnswer, ht, hh, hk]
      | none => simp [firstAnswer, ht, hh, hk]

/-- What the sources have been asked in a draw (R202), `e` being the ports before it and `e'` the ports after. -/
structure SourcesAsked (cfg : Config) (e e' : EnvPorts) : Prop where
  trng : e'.trngReqs = e.trngReqs + 1
  hprng : e'.hprngReqs = e.hprngReqs + (if cfg.trng e.trngReqs = none then 1 else 0)
  kdev : cfg.trng e.trngReqs = none ∧ cfg.hprng e.hprngReqs = none → e.kdevReqs < e'.kdevReqs
  kdevKept : ¬ (cfg.trng e.trngReqs = none ∧ cfg.hprng e.hprngReqs = none) → e'.kdevReqs = e.kdevReqs
  clockReqs : e'.clockReqs = e.clockReqs
  lastClock : e'.lastClock = e.lastClock

theorem sourceDraw_asks (cfg : Config) (e : EnvPorts) : SourcesAsked cfg e (sourceDraw cfg e).2 := by
  cases ht : cfg.trng e.trngReqs with
  | some b =>
    rw [sourceDraw_of_trng ht]
    exact ⟨rfl, by simp [ht], by simp [ht], fun _ => rfl, rfl, rfl⟩
  | none =>
    cases hh : cfg.hprng e.hprngReqs with
    | some b =>
      rw [sourceDraw_of_hprng ht hh]
      exact ⟨rfl, by simp [ht], by simp [hh], fun _ => rfl, rfl, rfl⟩
    | none =>
      rw [sourceDraw_of_kdev ht hh]
      exact ⟨rfl, by simp [ht], fun _ => Nat.lt_add_of_pos_right (kdevRead_requests_pos _),
        fun h => absurd ⟨ht, hh⟩ h, rfl, rfl⟩

/-! ### One draw -/

theorem mixClock_getElem? (n : Nat) (t : BitVec 64) (b : Bytes) (i : Nat) :
    (mixClock n t 0 b)[i]? = b[i]?.map fun x => if i < n then x ^^^ clockByte t i else x := by
  by_cases h : i < b.length
  · rw [List.getElem?_eq_getElem (by simpa using h), mixClock_getElem n t 0 b i h, List.getElem?_eq_getElem h]
    simp
  · rw [List.getElem?_eq_none (by simpa using h), List.getElem?_eq_none (by omega)]
    rfl

/-- Settles O51: the clock sample changes no source's count, and the sources change no part of the clock. -/
theorem entropyChainDraw : Obligations.ChainDraw := by
  intro cfg e
  obtain ⟨trng, hprng, kdev, kdevKept, clockReqs, -⟩ := sourceDraw_asks cfg e
  refine ⟨trng, hprng, kdev, kdevKept, congrArg (· + 1) clockReqs, chainDraw_length cfg e, fun j _ => ?_⟩
  rw [← sourceDraw_fst]
  exact mixClock_getElem? cfg.clkMixBytes _ _ j

/-! ### The clock over a command -/

/-- The last clock sample in `t` is at least that in `s` (R210). -/
abbrev ClockNotBack (s t : State) : Prop := s.env.lastClock.toNat ≤ t.env.lastClock.toNat

theorem chainDraw_lastClock_mono (cfg : Config) (e : EnvPorts) :
    e.lastClock.toNat ≤ (chainDraw cfg e).2.lastClock.toNat :=
  calc e.lastClock.toNat = (sourceDraw cfg e).2.lastClock.toNat := by rw [(sourceDraw_asks cfg e).lastClock]
    _ ≤ (sampleClock cfg (sourceDraw cfg e).2).1.toNat := sampleClock_mono cfg _

theorem clockNotBack_of_env {s t : State} (h : t.env = s.env) : ClockNotBack s t := by rw [ClockNotBack, h]

theorem drawSeed_clock (cfg : Config) (s : State) : ClockNotBack s (drawSeed cfg s).2 :=
  chainDraw_lastClock_mono cfg s.env

section
variable {cfg : Config} {s : State}

/-- Lazy creation makes at most one draw, and the body starts behind it (R165). -/
theorem withEngine_clock {k : State → Result} (hk : ∀ u, ClockNotBack s u → AllNext (ClockNotBack s) (k u)) :
    AllNext (ClockNotBack s) (withEngine cfg s.takeMutex k) := by
  have drawn : ClockNotBack s (drawSeed cfg s.takeMutex).2 := drawSeed_clock cfg s.takeMutex
  unfold withEngine
  rcases ensureCreated_cases cfg s.takeMutex with ⟨-, e⟩ | ⟨-, -, e⟩ | ⟨_, -, -, -, e⟩ | ⟨_, _, -, -, -, e⟩
  · rw [e]
    exact hk _ le_rfl
  · rw [e]
    exact clockNotBack_of_env rfl
  · rw [e]
    exact drawn
  · rw [e]
    exact hk _ drawn

theorem withMutex_clock {k : State → Result} (hk : AllNext (ClockNotBack s) (k s.takeMutex)) :
    AllNext (ClockNotBack s) (withMutex s k) :=
  withMutex_allNext (fun _ _ => le_rfl) fun _ => hk

theorem onEngine_clock {k : State → State} (hk : ∀ u, ClockNotBack u (k u)) :
    ClockNotBack s (onEngine cfg s.takeMutex k) := by
  rw [← allNext_next (ClockNotBack s), next_onEngine]
  exact withEngine_clock fun u hu => le_trans hu (hk u)

theorem framed_clock {k : State → State} (hk : ∀ u, ClockNotBack u (k u)) :
    AllNext (ClockNotBack s) (withCommand s fun _ => withMutex s fun s => .next (onEngine cfg s k)) :=
  withCommand_allNext fun _ _ => withMutex_clock (onEngine_clock hk)

theorem framedRange_clock {k : Args → State → State} (hk : ∀ a u, ClockNotBack u (k a u)) :
    AllNext (ClockNotBack s) (withCommand s fun a => if s32 a.a1 ≤ 0 then .next (raise s .arg 0)
      else withMutex s fun s => withEngine cfg s fun s =>
        withRange s (u32 a.a0) (byteCount a.a1) (.next (k a s))) := by
  refine withCommand_allNext fun a _ => ?_
  split
  · exact clockNotBack_of_env rfl
  · exact withMutex_clock (withEngine_clock fun u hu => withRange_allNext fun _ => le_trans hu (hk a u))

end

theorem seedWith_env (cfg : Config) (seed : Bytes) (s : State) : (seedWith cfg seed s).env = s.env := by
  rcases seedWith_cases cfg seed s with ⟨g, -, e⟩ | ⟨-, e⟩
  · rw [e]
    rfl
  · rw [e]
    rfl

theorem fillRandom_env (cfg : Config) (buf len : Nat) (s : State) : (fillRandom cfg buf len s).env = s.env := by
  have h := fillRandom_spec cfg buf len s
  split at h
  · obtain ⟨-, gen, -, e⟩ := h
    rw [e]
    rfl
  · obtain ⟨m, gen, draws, e, -⟩ := h
    rw [e]
    rfl

theorem returnWord_env (cfg : Config) (s : State) : (returnWord cfg s).env = s.env := by
  unfold returnWord
  split
  · rfl
  · rfl

theorem returnTwoWords_env (cfg : Config) (s : State) : (returnTwoWords cfg s).env = s.env := by
  unfold returnTwoWords
  split
  · rfl
  · rfl

section
variable {s : State}

theorem rngSeed_clock : AllNext (ClockNotBack s) (rngSeed Config.hw s) :=
  framedRange_clock fun _ u => clockNotBack_of_env (seedWith_env Config.hw _ (throughSeedStage Config.hw u _).2)

/-- RNG_RANDOM_SEED makes one draw more than its creation (R168). -/
theorem rngRandomSeed_clock : AllNext (ClockNotBack s) (rngRandomSeed Config.hw s) :=
  framed_clock fun u => le_trans (drawSeed_clock Config.hw u) (clockNotBack_of_env (seedWith_env Config.hw _ _))

theorem rngRandBytes_clock : AllNext (ClockNotBack s) (rngRandBytes Config.hw s) :=
  framedRange_clock fun _ u => clockNotBack_of_env (fillRandom_env Config.hw _ _ u)

theorem rngUnlock_clock : AllNext (ClockNotBack s) (rngUnlock s) := by
  refine withCommand_allNext fun _ _ => ?_
  split
  · exact clockNotBack_of_env rfl
  · exact clockNotBack_of_env rfl

theorem rngCtx_clock : AllNext (ClockNotBack s) (rngCtx Config.hw s) := by
  refine withCommand_allNext fun _ _ => ?_
  split
  · exact clockNotBack_of_env rfl
  · exact withMutex_clock (onEngine_clock fun _ => clockNotBack_of_env rfl)

theorem rngShutdown_clock : AllNext (ClockNotBack s) (rngShutdown s) := by
  refine withCommand_allNext fun _ _ => withMutex_clock ?_
  split
  · exact clockNotBack_of_env rfl
  · exact clockNotBack_of_env rfl

/-- No command takes the clock back: an AEAD command leaves the entropy ports alone, an RNG command makes draws. -/
theorem exec_clock (i : Instr) : AllNext (ClockNotBack s) (exec i s) := by
  cases i with
  | aeadConstruct | aeadReset | aeadAad | aeadEncrypt | aeadDecrypt | aeadAuthTag | aeadDestroy =>
    refine allNext_iff.2 fun t h => ?_
    obtain ⟨_, _, -, -, run⟩ := allNext_iff.1 (exec_aead rfl s) t h
    obtain ⟨-, -, -, -, env⟩ := run.rng
    exact clockNotBack_of_env env
  | rngSeed => exact rngSeed_clock
  | rngRandomSeed => exact rngRandomSeed_clock
  | rngRandBytes => exact rngRandBytes_clock
  | rngRandU32 => exact framed_clock fun u => clockNotBack_of_env (returnWord_env Config.hw u)
  | rngRandU64 => exact framed_clock fun u => clockNotBack_of_env (returnTwoWords_env Config.hw u)
  | rngLock => exact framed_clock fun _ => clockNotBack_of_env rfl
  | rngUnlock => exact rngUnlock_clock
  | rngCtx => exact rngCtx_clock
  | rngShutdown => exact rngShutdown_clock

/-! ### The clock over a step -/

theorem serve_clock (p : Nat) : AllNext (ClockNotBack s) (serve exec p s) :=
  serve_allNext le_rfl (clockNotBack_of_env rfl) fun i _ _ => exec_clock (s := { s with cur := p }) i

theorem handleUse_clock {cfg : Config} {r n epoch : Nat} : AllNext (ClockNotBack s) (handleUse cfg r n epoch s) := by
  unfold handleUse
  split
  · split
    · exact clockNotBack_of_env rfl
    · exact clockNotBack_of_env rfl
  · trivial

/-- The clock is not the block's, and a reset leaves it (R280). -/
theorem hardReset_env (cfg : Config) (s : State) : (hardReset cfg s).env = s.env := by
  obtain ⟨m, n, e⟩ := hardReset_eq cfg s
  rw [e]

theorem makeMove_clock (m : Move) : AllNext (ClockNotBack s) (makeMove Config.hw exec m s) := by
  cases m with
  | serve p => exact serve_clock p
  | regRead r addr size => exact withRegister_allNext fun _ _ => le_rfl
  | regWrite r addr size v => exact withRegister_allNext fun _ _ => le_rfl
  | memRead r base n => exact withHostRange_allNext fun _ => le_rfl
  | memWrite r base v => exact withHostRange_allNext fun _ => le_rfl
  | handleUse r n epoch => exact handleUse_clock
  | handleSeed r v => trivial
  | hardReset => exact clockNotBack_of_env (hardReset_env Config.hw s)

end

/-- Settles O52: only a command's draws move the clock, and a sample is never less than the one before it. -/
theorem clockNeverGoesBack : Obligations.ClockNeverGoesBack := by
  intro s t h
  have moves (m : Move) (rest : List Move) (_ : s.agenda = m :: rest) :
      AllNext (ClockNotBack s) (makeMove Config.hw exec m { s with agenda := rest }) :=
    makeMove_clock (s := { s with agenda := rest }) m
  have serves (p : Nat) : AllNext (ClockNotBack s) (serve exec p { s with picks := s.picks + 1 }) :=
    serve_clock (s := { s with picks := s.picks + 1 }) p
  exact allNext_iff.1 (step_allNext (P := ClockNotBack s) le_rfl moves serves) t h

end Sys2Proof.Machine
end

section
/-! The Secure Buffer's own claim (R230): an operation that lengthens or keeps the content leaves new content in front of
the old zero tail, and the content of a buffer is then what stands in front. -/

namespace Sys2Proof.Machine.SecBuf

/-! ### New content in front of a zero tail -/

/-- Content as long as the old one or longer, in front of what is left of the store, keeps the zero tail. -/
theorem wf_mk_append_drop {b : SecBuf} {v : Bytes} (h : b.wf = true) (hv : b.len ≤ v.length) :
    SecBuf.wf ⟨v ++ b.raw.drop v.length, v.length⟩ = true := by
  obtain ⟨-, tail⟩ := (wf_iff b).1 h
  refine (wf_iff _).2 ⟨by simp, fun x hx => tail x ?_⟩
  have hx : x ∈ b.raw.drop v.length := by simpa using hx
  exact (List.drop_sublist_drop_left b.raw hv).subset hx

theorem content_mk_append (v w : Bytes) : SecBuf.content ⟨v ++ w, v.length⟩ = v := List.take_left

/-- A store with more room begins with the content. -/
theorem makeRoom_take (cfg : Config) {b : SecBuf} (m : Nat) (h : b.wf = true) :
    (makeRoom cfg b m).raw.take b.len = b.content := by
  obtain ⟨-, len, same, -⟩ := makeRoom_wf cfg m h
  rwa [content, len] at same

/-! ### `append`, `get` and `set` (R224, R225) -/

/-- The new byte stands behind the content of a store with room for it. -/
theorem append_eq (cfg : Config) {b : SecBuf} (x : Byte) (h : b.wf = true) :
    ∃ r : SecBuf, r.wf = true ∧ r.len = b.len ∧
      b.append cfg x = ⟨(b.content ++ [x]) ++ r.raw.drop (b.content ++ [x]).length, (b.content ++ [x]).length⟩ := by
  obtain ⟨wf, len, -, room⟩ := makeRoom_wf cfg (b.len + 1) h
  refine ⟨makeRoom cfg b (b.len + 1), wf, len, ?_⟩
  have fits : b.len < (makeRoom cfg b (b.len + 1)).raw.length := room (Nat.le_succ _)
  simp [append, List.set_eq_take_append_cons_drop, fits, makeRoom_take cfg _ h, content_length h]

theorem wf_append (cfg : Config) {b : SecBuf} (x : Byte) (h : b.wf = true) : (b.append cfg x).wf = true := by
  obtain ⟨r, wf, len, e⟩ := append_eq cfg x h
  rw [e]
  exact wf_mk_append_drop wf (by simp [len, content_length h])

theorem content_append (cfg : Config) {b : SecBuf} (x : Byte) (h : b.wf = true) :
    (b.append cfg x).content = b.content ++ [x] := by
  obtain ⟨r, -, -, e⟩ := append_eq cfg x h
  rw [e, content_mk_append]

theorem get_eq_getElem? (b : SecBuf) (i : Nat) : b.get i = b.content[i]? := by
  simp only [get, content, List.getElem?_take]

/-- Inside the content, `set` puts the new content in front of the same tail. -/
theorem set_eq_some {b : SecBuf} {i : Nat} (x : Byte) (h : b.wf = true) (hi : i < b.len) :
    b.set i x = some ⟨b.content.set i x ++ b.raw.drop (b.content.set i x).length, (b.content.set i x).length⟩ := by
  have hl := content_length h
  have store : b.raw.set i x = b.content.set i x ++ b.raw.drop b.len := by
    rw [← List.set_append_left i x (by omega), content, List.take_append_drop]
  simp [set, hi, store, hl]

theorem set_eq_none {b : SecBuf} {i : Nat} (x : Byte) (hi : b.len ≤ i) : b.set i x = none := if_neg hi.not_gt

/-! ### `resize` (R226) -/

theorem content_resizeFill (cfg : Config) {b : SecBuf} (m : Nat) (fill : Byte) (h : b.wf = true) :
    (b.resizeFill cfg m fill).content = b.content.take m ++ List.replicate (m - b.len) fill := by
  have hl := content_length h
  obtain ⟨inside, -⟩ := (wf_iff b).1 h
  unfold resizeFill
  split
  case isTrue shrinks =>
    have front : (b.raw.take m).length = m := by simp; omega
    rw [Nat.sub_eq_zero_of_le shrinks, List.replicate_zero, List.append_nil, content, content, List.take_take,
      Nat.min_eq_left shrinks, List.append_assoc, List.take_left' front]
  case isFalse grows =>
    have front : (b.content ++ List.replicate (m - b.len) fill).length = m := by simp [hl]; omega
    rw [List.take_of_length_le (by omega : b.content.length ≤ m)]
    simp only [makeRoom_take cfg m h]
    exact List.take_left' front

end Sys2Proof.Machine.SecBuf

namespace Sys2Proof.Machine
open SecBuf

/-- Settles O53: each operation's lemma on the zero tail beside its lemma on the content. -/
theorem secureBufferKeepsZeroTail : Obligations.SecureBufferKeepsZeroTail := by
  intro cfg b h
  refine ⟨wf_new, fun x => ⟨wf_append cfg x h, content_append cfg x h⟩, get_eq_getElem? b, fun i x hi => ?_,
    fun _ x hi => set_eq_none x hi, fun m fill => ⟨wf_resizeFill cfg m fill h, content_resizeFill cfg m fill h⟩,
    ⟨wf_resize cfg 0 h, len_resize cfg b 0⟩, fun v => ⟨wf_assign cfg v h, content_assign cfg b v⟩,
    fun k => ⟨wf_scramble cfg k h, len_scramble cfg k b⟩, rfl⟩
  exact ⟨_, set_eq_some x h hi, wf_mk_append_drop h (by simp [content_length h]), content_mk_append _ _⟩

end Sys2Proof.Machine
end

section
/-! The errors without a detail (R248): each is the answer of a check, raised on the state of the issue before the
command has changed anything. A command past its checks ends with success, E_INIT or E_BACKEND. -/

namespace Sys2Proof.Machine

/-- The codes of E_ARG, E_SIZE, E_UNSUPPORTED, E_SEQ and E_ILLEGAL. -/
abbrev CheckCode (code : BitVec 8) : Prop := code = 1 ∨ code = 2 ∨ code = 3 ∨ code = 6 ∨ code = 7

/-- If a command `i`, issued in `s`, has ended in `t` with one of these codes, it has done nothing else, an early
zero-fill apart (R143, R248). -/
def ErrorsPrecise (i : Instr) (s t : State) : Prop :=
  ∀ code info, Ended s t code info → CheckCode code →
    OnlyRefusedWith s t code ∨ Config.hw.tagZeroBeforeValidate = true ∧ code = 1 ∧ ∃ c, i = .aeadAuthTag c

/-! ### The ways a command answers a next state -/

/-- The code a command has ended with is the one its end wrote. -/
theorem ended_finish_code {s u : State} {c d : BitVec 8} {info info' : Word} (hc : u.cur = s.cur)
    (h : Ended s (finish u c info) d info') : c = d := by
  obtain ⟨q, hq, -⟩ := Option.map_eq_some_iff.1 h
  have hl : s.cur < (finish u c info).ports.length := (List.getElem?_eq_some_iff.1 hq).1
  exact (ended_unique (ended_finish hc (by simpa using hl)) h).1

/-- A command that is held has not ended. -/
theorem not_ended_of_operands {s : State} {a : Args} {code : BitVec 8} {info : Word} (ha : s.operands = some a) :
    ¬ Ended s s code info := fun h => by
  rw [State.operands, pendingAt_of_ended h] at ha
  cases ha

section
variable {i : Instr} {s : State}

theorem precise_held {a : Args} (ha : s.operands = some a) : ErrorsPrecise i s s :=
  fun _ _ h _ => absurd h (not_ended_of_operands ha)

theorem precise_rejected {a : Args} (ha : s.operands = some a) (e : Err) : ErrorsPrecise i s (raise s e 0) := by
  intro code info h _
  obtain rfl := ended_finish_code rfl h
  exact .inl (onlyRefusedWith_raise (cur_lt_of_operands ha) e)

/-- A command past its checks: what it has done by its end does not matter, for its code is another one. -/
theorem precise_worked {u : State} {code : BitVec 8} {info : Word} (hc : u.cur = s.cur) (hw : ¬ CheckCode code) :
    ErrorsPrecise i s (finish u code info) := by
  intro d _ h hd
  obtain rfl := ended_finish_code hc h
  exact absurd hd hw

/-- The early zero-fill of AEAD_AUTH_TAG (R143). -/
theorem precise_zeroFilled {c : Nat} {u : State} (hz : Config.hw.tagZeroBeforeValidate = true) (hc : u.cur = s.cur) :
    ErrorsPrecise (.aeadAuthTag c) s (raise u .arg 0) := by
  intro code info h _
  obtain rfl := ended_finish_code hc h
  exact .inr ⟨hz, rfl, c, rfl⟩

end

/-! ### The AEAD commands -/

section
variable {c : Nat} {s : State}

/-- A command that works on a slot; a number that names none is one more rejection. -/
theorem aead_precise {i : Instr} {k : Args → Slot → Result}
    (h : ∀ a sl, s.operands = some a → AllNext (ErrorsPrecise i s) (k a sl)) :
    AllNext (ErrorsPrecise i s) (withCommand s fun a => withSlot s c (k a)) :=
  withCommand_allNext fun a ha => withSlot_allNext (fun _ => precise_rejected ha .illegal) fun sl _ => h a sl ha

/-- The backend calls of AEAD_CONSTRUCT: a failure is E_INIT. -/
theorem installKey_precise {i : Instr} {u : State} (hc : u.cur = s.cur) (m : Mode) (tagLen : Word) (key : Bytes)
    (sl : Slot) : AllNext (ErrorsPrecise i s) (installKey Config.hw c m tagLen key sl u) := by
  unfold installKey
  dsimp only
  split
  · exact precise_worked hc (by decide)
  · split <;> exact precise_worked hc (by decide)

theorem aeadConstruct_precise (m : Mode) :
    AllNext (ErrorsPrecise (.aeadConstruct c m) s) (aeadConstruct Config.hw c m s) := by
  refine aead_precise fun a sl ha => ?_
  split
  · exact precise_rejected ha .arg
  · dsimp only
    split
    · exact precise_worked rfl (by decide)
    · exact withRange_allNext fun _ => installKey_precise (s := s) (u := (throughKeyStage Config.hw s _).2) rfl _ _ _ _

/-- The backend calls of AEAD_RESET: a failure is E_INIT or E_BACKEND. -/
theorem startMessage_precise {i : Instr} (a : Args) (nonce aad : Bytes) (sl : Slot) :
    AllNext (ErrorsPrecise i s) (startMessage Config.hw c a nonce aad sl s) := by
  unfold startMessage
  dsimp only
  split
  · exact precise_worked rfl (by decide)
  · split
    · exact precise_worked rfl (by decide)
    · split <;> exact precise_worked rfl (by decide)

theorem aeadReset_precise : AllNext (ErrorsPrecise (.aeadReset c) s) (aeadReset Config.hw c s) := by
  refine aead_precise fun a sl ha => ?_
  split
  · exact precise_rejected ha _
  · exact withRange_allNext fun _ => withRange_allNext fun _ => startMessage_precise _ _ _ _

theorem aeadAad_precise : AllNext (ErrorsPrecise (.aeadAad c) s) (aeadAad Config.hw c s) := by
  refine aead_precise fun a sl ha => ?_
  split
  · exact precise_rejected ha _
  · refine withRange_allNext fun _ => ?_
    split <;> exact precise_worked rfl (by decide)

/-- A transform: a failure of its member is E_BACKEND. -/
theorem transform_precise {i : Instr} {member : Backend → Bytes → Bytes → Option (Bytes × Bytes)} {info : Word} :
    AllNext (ErrorsPrecise i s) (transform Config.hw member info c s) := by
  refine aead_precise fun a sl ha => ?_
  split
  · exact precise_rejected ha _
  · refine withRange_allNext fun _ => withRange_allNext fun _ => ?_
    split
    · trivial
    · unfold runTransform
      split <;> exact precise_worked rfl (by decide)

/-- A tag length the mode does not allow: E_ARG, alone or after the early zero-fill (R143). -/
theorem rejectTag_precise {a : Args} (ha : s.operands = some a) :
    AllNext (ErrorsPrecise (.aeadAuthTag c) s) (rejectTag Config.hw a s) := by
  unfold rejectTag
  split
  · rename_i early
    exact withRange_allNext fun _ => precise_zeroFilled early.1 rfl
  · exact precise_rejected ha .arg

theorem aeadAuthTag_precise : AllNext (ErrorsPrecise (.aeadAuthTag c) s) (aeadAuthTag Config.hw c s) := by
  refine aead_precise fun a sl ha => ?_
  split
  · exact precise_rejected ha .seq
  · split
    · exact rejectTag_precise ha
    · refine withRange_allNext fun _ => ?_
      unfold deliverTag
      split <;> exact precise_worked rfl (by decide)

theorem aeadDestroy_precise : AllNext (ErrorsPrecise (.aeadDestroy c) s) (aeadDestroy c s) :=
  aead_precise (k := fun _ sl => .next (complete (s.setSlot c sl.destroyed))) fun _ _ _ =>
    precise_worked rfl (by decide)

end

/-! ### The RNG commands -/

section
variable {i : Instr} {s : State}

theorem withMutex_precise {a : Args} {k : State → Result} (ha : s.operands = some a)
    (hk : AllNext (ErrorsPrecise i s) (k s.takeMutex)) : AllNext (ErrorsPrecise i s) (withMutex s k) :=
  withMutex_allNext (fun _ _ => precise_held ha) fun _ => hk

/-- The engine: a failed creation is E_BACKEND (R165). -/
theorem withEngine_precise {k : State → Result} (hk : ∀ u, u.cur = s.cur → AllNext (ErrorsPrecise i s) (k u)) :
    AllNext (ErrorsPrecise i s) (withEngine Config.hw s.takeMutex k) :=
  withEngine_allNext (fun _ e => precise_worked (creationKept_of_error e).cur (by decide))
    fun u e => hk u (creationKept_of_ok e).cur

theorem onEngine_precise {k : State → State} (hk : ∀ u, u.cur = s.cur → ErrorsPrecise i s (k u)) :
    AllNext (ErrorsPrecise i s) (.next (onEngine Config.hw s.takeMutex k)) := by
  rw [next_onEngine]
  exact withEngine_precise hk

/-- A framed command without a range. -/
theorem framed_precise {k : State → State} (hk : ∀ u, u.cur = s.cur → ErrorsPrecise i s (k u)) :
    AllNext (ErrorsPrecise i s) (withCommand s fun _ => withMutex s fun s => .next (onEngine Config.hw s k)) :=
  withCommand_allNext fun _ ha => withMutex_precise ha (onEngine_precise hk)

/-- A framed command with a range: its length check comes before the frame (R164 (2)). -/
theorem framedRange_precise {k : Args → State → State} (hk : ∀ a u, u.cur = s.cur → ErrorsPrecise i s (k a u)) :
    AllNext (ErrorsPrecise i s) (withCommand s fun a => if s32 a.a1 ≤ 0 then .next (raise s .arg 0)
      else withMutex s fun s => withEngine Config.hw s fun s =>
        withRange s (u32 a.a0) (byteCount a.a1) (.next (k a s))) := by
  refine withCommand_allNext fun a ha => ?_
  split
  · exact precise_rejected ha .arg
  · exact withMutex_precise ha (withEngine_precise fun u hu => withRange_allNext fun _ => hk a u hu)

section
variable {u : State} (hu : u.cur = s.cur)
include hu

theorem seedWith_precise (seed : Bytes) : ErrorsPrecise i s (seedWith Config.hw seed u) := by
  rcases seedWith_cases Config.hw seed u with ⟨g, -, e⟩ | ⟨-, e⟩
  all_goals
    rw [e]
    exact precise_worked hu (by decide)

theorem fillRandom_precise (buf len : Nat) : ErrorsPrecise i s (fillRandom Config.hw buf len u) := by
  have h := fillRandom_spec Config.hw buf len u
  split at h
  · obtain ⟨-, gen, -, e⟩ := h
    rw [e]
    exact precise_worked hu (by decide)
  · obtain ⟨m, gen, draws, e, -⟩ := h
    rw [e]
    exact precise_worked hu (by decide)

theorem returnWord_precise : ErrorsPrecise i s (returnWord Config.hw u) := by
  unfold returnWord
  split <;> exact precise_worked hu (by decide)

theorem returnTwoWords_precise : ErrorsPrecise i s (returnTwoWords Config.hw u) := by
  unfold returnTwoWords
  split <;> exact precise_worked hu (by decide)

end

theorem rngSeed_precise : AllNext (ErrorsPrecise i s) (rngSeed Config.hw s) :=
  framedRange_precise fun _ u hu => seedWith_precise (u := (throughSeedStage Config.hw u _).2) hu _

theorem rngRandomSeed_precise : AllNext (ErrorsPrecise i s) (rngRandomSeed Config.hw s) :=
  framed_precise fun u hu => seedWith_precise (u := (drawSeed Config.hw u).2) hu _

theorem rngRandBytes_precise : AllNext (ErrorsPrecise i s) (rngRandBytes Config.hw s) :=
  framedRange_precise fun _ _ hu => fillRandom_precise hu _ _

theorem rngUnlock_precise : AllNext (ErrorsPrecise i s) (rngUnlock s) := by
  refine withCommand_allNext fun _ ha => ?_
  split
  · exact precise_worked rfl (by decide)
  · exact precise_rejected ha .seq

theorem rngCtx_precise : AllNext (ErrorsPrecise i s) (rngCtx Config.hw s) := by
  refine withCommand_allNext fun _ ha => ?_
  split
  · exact precise_worked rfl (by decide)
  · exact withMutex_precise ha (onEngine_precise fun _ hu => precise_worked hu (by decide))

theorem rngShutdown_precise : AllNext (ErrorsPrecise i s) (rngShutdown s) := by
  refine withCommand_allNext fun _ ha => withMutex_precise ha ?_
  split <;> exact precise_worked rfl (by decide)

end

/-! ### Every command -/

/-- Every next state a command answers meets R248. -/
theorem exec_precise (i : Instr) (s : State) : AllNext (ErrorsPrecise i s) (exec i s) := by
  cases i with
  | aeadConstruct c m => exact aeadConstruct_precise m
  | aeadReset c => exact aeadReset_precise
  | aeadAad c => exact aeadAad_precise
  | aeadEncrypt c => exact transform_precise
  | aeadDecrypt c => exact transform_precise
  | aeadAuthTag c => exact aeadAuthTag_precise
  | aeadDestroy c => exact aeadDestroy_precise
  | rngSeed => exact rngSeed_precise
  | rngRandomSeed => exact rngRandomSeed_precise
  | rngRandBytes => exact rngRandBytes_precise
  | rngRandU32 => exact framed_precise fun _ => returnWord_precise
  | rngRandU64 => exact framed_precise fun _ => returnTwoWords_precise
  | rngLock => exact framed_precise fun _ hu => precise_worked hu (by decide)
  | rngUnlock => exact rngUnlock_precise
  | rngCtx => exact rngCtx_precise
  | rngShutdown => exact rngShutdown_precise

/-- Settles O59: every end with one of the five codes is a rejection on the state of the issue, an early zero-fill
apart. -/
theorem preciseErrors : Obligations.PreciseErrors :=
  fun s t i code info h => allNext_iff.1 (exec_precise i s) t h code info

end Sys2Proof.Machine
end
